-- ==== Sys2Proof/Word.lean ====
section
/-! DEFINITION. The widths of the DSB's data: registers, bytes, samples, bus addresses (R5, R8, R9). -/
namespace Sys2Proof

/-- A 64-bit register value (REG_BITS, R5). -/
abbrev Word := BitVec 64

/-- A byte of a datagram or of the host bus. -/
abbrev Byte := BitVec 8

/-- A signed two's-complement 16-bit sample, an s16 (SAMPLE_BITS, R5); its value is `BitVec.toInt`. -/
abbrev Sample := BitVec 16

/-- A 32-bit byte address of the host bus (BUS_ADDR_BITS, R5). -/
abbrev Addr := BitVec 32

end Sys2Proof
end

