-- ==== Sys2Proof/Machine/Float64.lean ====
section
/-! DEFINITION. IEEE 754 binary64 and binary32 bit patterns (R8, R9) and the three binary64 operations
BuildFreq rounds with (R181). Every finite binary64 is a whole multiple of 2^-1074, so a finite value is
held exactly as its sign and that multiple, its magnitude; each operation computes the exact result as a
ratio of magnitudes and rounds once. -/
namespace Sys2Proof.Machine

/-! ### binary64 patterns -/

/-- Sign, bit 63. -/
def f64Sign (x : Word) : Bool := x.getLsbD 63

/-- Biased exponent, bits [62:52]. -/
def f64Exp (x : Word) : Nat := (x.extractLsb' 52 11).toNat

/-- Fraction, bits [51:0]. -/
def f64Frac (x : Word) : Nat := (x.extractLsb' 0 52).toNat

/-- Neither infinite nor NaN (R109 checks 12 and 13). -/
def f64IsFinite (x : Word) : Bool := f64Exp x ≠ 0x7FF

/-- A NaN pattern. -/
def f64IsNaN (x : Word) : Bool := f64Exp x = 0x7FF && f64Frac x ≠ 0

/-- The magnitude of a finite pattern, in units of 2^-1074. -/
def f64Mag (x : Word) : Nat :=
  if f64Exp x = 0 then f64Frac x else (2 ^ 52 + f64Frac x) * 2 ^ (f64Exp x - 1)

/-- The pattern of sign, biased exponent and fraction. -/
def f64Pack (neg : Bool) (e f : Nat) : Word :=
  BitVec.ofNat 1 neg.toNat ++ BitVec.ofNat 11 e ++ BitVec.ofNat 52 f

/-- The infinity of a sign. -/
def f64Inf (neg : Bool) : Word := f64Pack neg 0x7FF 0

/-- The zero of a sign. -/
def f64Zero (neg : Bool) : Word := f64Pack neg 0 0

/-- A quiet NaN. No rule of the spec ever produces one (R181). -/
def f64NaN : Word := f64Pack false 0x7FF (2 ^ 51)

/-! ### Rounding to nearest, ties to even -/

/-- How far above the smallest spacing the binade of a magnitude with whole part `q` lies: magnitudes
below 2^53 are one unit apart, those in [2^(52+s), 2^(53+s)) are 2^s units apart. -/
def f64Shift (q : Nat) : Nat := Nat.log2 q - 52

/-- `num / den` rounded to a whole number, ties to even. -/
def roundHalfEven (num den : Nat) : Nat :=
  let k := num / den
  let r := num % den
  if 2 * r < den then k
  else if den < 2 * r then k + 1
  else k + k % 2

/-- The magnitude `num / den` rounded to the nearest magnitude of binary64 precision, ties to even, the
exponent unbounded above. -/
def f64RoundMag (num den : Nat) : Nat :=
  let u := 2 ^ f64Shift (num / den)
  roundHalfEven num (den * u) * u

/-- The pattern of a rounded magnitude; one of 2^1024 or more (2^2098 units) is the infinity. -/
def f64OfMag (neg : Bool) (mag : Nat) : Word :=
  if mag < 2 ^ 52 then f64Pack neg 0 mag
  else if mag < 2 ^ 2098 then f64Pack neg (f64Shift mag + 1) (mag / 2 ^ f64Shift mag - 2 ^ 52)
  else f64Inf neg

/-- `f64` of R8 for the exact value `(-1)^neg × num / den` units of 2^-1074. -/
def f64Round (neg : Bool) (num den : Nat) : Word := f64OfMag neg (f64RoundMag num den)

/-! ### The operations of BuildFreq (R181) -/

/-- `f64(x / n)` for an integer `n ≥ 1`, exact in binary64. -/
def f64DivNat (x : Word) (n : Nat) : Word :=
  if f64IsNaN x then f64NaN
  else if f64IsFinite x = false then x
  else f64Round (f64Sign x) (f64Mag x) n

/-- `f64(t × x)` for an integer `t`, exact in binary64; `t = 0` is +0. -/
def f64MulInt (t : Int) (x : Word) : Word :=
  let neg := Bool.xor (decide (t < 0)) (f64Sign x)
  if f64IsNaN x then f64NaN
  else if f64IsFinite x = false then (if t = 0 then f64NaN else f64Inf neg)
  else f64Round neg (t.natAbs * f64Mag x) 1

/-- The exact value of a finite pattern as a whole number of units of 2^-1074. -/
def f64Units (x : Word) : Int := if f64Sign x then -(f64Mag x : Int) else (f64Mag x : Int)

/-- `f64(x + y)`: an exact sum of zero is +0 unless both operands are negative zeros. -/
def f64Add (x y : Word) : Word :=
  if f64IsNaN x ∨ f64IsNaN y then f64NaN
  else if f64IsFinite x = false then
    (if f64IsFinite y = false ∧ f64Sign x ≠ f64Sign y then f64NaN else x)
  else if f64IsFinite y = false then y
  else
    let z := f64Units x + f64Units y
    if z = 0 then f64Zero (f64Sign x && f64Sign y)
    else f64Round (decide (z < 0)) z.natAbs 1

/-! ### binary32 patterns -/

/-- Neither infinite nor NaN: biased exponent, bits [30:23], not all ones. -/
def f32IsFinite (x : BitVec 32) : Bool := x.extractLsb' 23 8 ≠ 0xFF

/-- A pattern made finite: a finite one is itself, and one with an exponent of all ones loses that
exponent's lowest bit. -/
def f32Finite (x : BitVec 32) : BitVec 32 := if f32IsFinite x then x else x ^^^ 0x00800000

/-- The value of a finite binary32 pattern in units of 2^-149. -/
def f32Units (x : BitVec 32) : Int :=
  let e := (x.extractLsb' 23 8).toNat
  let f := (x.extractLsb' 0 23).toNat
  let mag : Nat := if e = 0 then f else (2 ^ 23 + f) * 2 ^ (e - 1)
  if x.getLsbD 31 then -(mag : Int) else (mag : Int)

/-- DB_FLOOR = -300.0 as binary32 (R5). -/
def dbFloorBits : BitVec 32 := 0xC3960000

end Sys2Proof.Machine
end

