-- ==== Sys2Proof/Machine/Reference.lean ====
section
/-! DEFINITION. The exact real-valued reference of one spectrum frame (R171 to R177) and the contract the
engine's finite-precision frame meets (R179). Propositions and reals only: no step of the machine computes
with them; statements about the engine are made in their terms. -/
namespace Sys2Proof.Machine

/-- FULL_SCALE (R5). -/
def fullScale : Nat := 32768

/-- FSP, the full-scale power reference `2 × FULL_SCALE²` = 2^31 (R5). -/
def fsp : Nat := 2 * fullScale ^ 2

/-- EPS, the real 10^-30 (R5). -/
noncomputable def eps : ℝ := 10 ^ (-30 : ℤ)

/-- DB_FLOOR, exactly -300 (R5). -/
def dbFloor : ℝ := -300

/-- Element `j` of a batch as a real. -/
def refElem (raw : List Sample) (j : Nat) : ℝ := ((raw.getD j 0).toInt : ℝ)

/-- `z[j]`, the deinterleaved complex sample (R171). -/
def refZ (raw : List Sample) (j : Nat) : ℂ := ⟨refElem raw (2 * j), refElem raw (2 * j + 1)⟩

/-- `x_b[t]`, sample `t` of window `b` (R172). -/
def refWindow (n : Nat) (raw : List Sample) (b t : Nat) : ℂ := refZ raw (b * n + t)

/-- The transform of a window at bin `k` (R173). -/
noncomputable def refDft (n : Nat) (x : Nat → ℂ) (k : Nat) : ℂ :=
  ∑ t ∈ Finset.range n, x t * Complex.exp (-2 * (Real.pi : ℂ) * Complex.I * (k : ℂ) * (t : ℂ) / (n : ℂ))

/-- `P[k]`, the squared magnitude averaged over the windows (R174). -/
noncomputable def refPower (n b : Nat) (raw : List Sample) (k : Nat) : ℝ :=
  (1 / (b : ℝ)) * ∑ w ∈ Finset.range b, Complex.normSq (refDft n (refWindow n raw w) k)

/-- `pn[k]`, the normalised power (R175). -/
noncomputable def refPn (n b : Nat) (raw : List Sample) (k : Nat) : ℝ :=
  refPower n b raw k / (n : ℝ) ^ 2 / (fsp : ℝ)

/-- `db[k]`, decibels with floor (R176). -/
noncomputable def refDb (n b : Nat) (raw : List Sample) (k : Nat) : ℝ :=
  10 * Real.logb 10 (max (refPn n b raw k) eps)

/-- The bin `k(m)` whose value the centred index `m` shows (R177, R179). -/
def centredBin (n m : Nat) : Nat := (m + n / 2) % n

/-- `ref[m]`, the centred reference (R177). -/
noncomputable def refFrame (n b : Nat) (raw : List Sample) (m : Nat) : ℝ := refDb n b raw (centredBin n m)

/-- The real value of a finite binary32 pattern. -/
noncomputable def f32Value (x : BitVec 32) : ℝ := (f32Units x : ℝ) / 2 ^ 149

/-- R179 (a): every element is a finite binary32. -/
def FrameFinite (n : Nat) (v : Nat → BitVec 32) : Prop := ∀ m < n, f32IsFinite (v m) = true

/-- R179 (b): within `tol` of the reference where the normalised power is at least `pnMin`. -/
def FrameAccurate (tol pnMin : ℝ) (n b : Nat) (raw : List Sample) (v : Nat → BitVec 32) : Prop :=
  ∀ m < n, pnMin ≤ refPn n b raw (centredBin n m) → |f32Value (v m) - refFrame n b raw m| ≤ tol

/-- R179 (c): in the floor band where the normalised power is below `pnMin`. -/
def FrameInFloorBand (tol pnMin : ℝ) (n b : Nat) (raw : List Sample) (v : Nat → BitVec 32) : Prop :=
  ∀ m < n, refPn n b raw (centredBin n m) < pnMin →
    dbFloor - tol ≤ f32Value (v m) ∧ f32Value (v m) ≤ 10 * Real.logb 10 pnMin + tol

/-- R179 (d): an all-zero batch gives exactly -300.0 everywhere. -/
def FrameExactFloor (n : Nat) (raw : List Sample) (v : Nat → BitVec 32) : Prop :=
  (∀ x ∈ raw, x = 0) → ∀ m < n, v m = dbFloorBits

/-- The numerics contract SpecNum, R179 (a) to (d). -/
def FrameConforms (tol pnMin : ℝ) (n b : Nat) (raw : List Sample) (v : Nat → BitVec 32) : Prop :=
  FrameFinite n v ∧ FrameAccurate tol pnMin n b raw v ∧ FrameInFloorBand tol pnMin n b raw v ∧
    FrameExactFloor n raw v

/-- The batches that the engine is given under a configuration INIT accepts (checks 5 to 10 of R109, R32):
2NB elements, of an even N ≥ 2 and B ≥ 1, within FFT_N_MAX and CAP_MAX. -/
structure LegalBatch (capMax fftNMax n b : Nat) (raw : List Sample) : Prop where
  two_le : 2 ≤ n
  even : n % 2 = 0
  le_max : n ≤ fftNMax
  windows : 1 ≤ b
  length : raw.length = 2 * n * b
  fits : 2 * n * b ≤ capMax

end Sys2Proof.Machine
end

