-- ==== Sys2Proof/Laws/Reference.lean ====
section
/-! SUPPORT. Facts about the numerics contract of R179 on which the satisfiability of the contract rests. -/
namespace Sys2Proof.Machine

theorem eps_pos : 0 < eps := by unfold eps; positivity
theorem eps_le_one : eps ≤ 1 := by unfold eps; norm_num

/-- The pattern 0xC3960000 is -300.0 (R179 (d)). -/
theorem f32Value_dbFloorBits : f32Value dbFloorBits = dbFloor := by
  have : f32Units dbFloorBits = -300 * 2 ^ 149 := by decide
  rw [f32Value, this, dbFloor]; norm_num

theorem dbFloorBits_finite : f32IsFinite dbFloorBits = true := by decide

/-- The legal batches have references that lie within one distance of the floor: there are only finitely many
such batches. -/
theorem exists_floor_distance (capMax fftNMax : Nat) :
    ∃ r : ℝ, 0 ≤ r ∧ ∀ n b raw m, LegalBatch capMax fftNMax n b raw → m < n →
      |dbFloor - refFrame n b raw m| ≤ r := by
  have hfin : Set.Finite (Set.Iic fftNMax ×ˢ Set.Iic capMax ×ˢ {raw : List Sample | raw.length ≤ capMax} ×ˢ
      Set.Iic fftNMax) :=
    (Set.finite_Iic _).prod ((Set.finite_Iic _).prod ((List.finite_length_le _ _).prod (Set.finite_Iic _)))
  obtain ⟨r, hr⟩ := (hfin.image fun x => |dbFloor - refFrame x.1 x.2.1 x.2.2.1 x.2.2.2|).bddAbove
  refine ⟨max r 0, le_max_right _ _, fun n b raw m h hm => le_max_of_le_left (hr ⟨(n, b, raw, m), ?_, rfl⟩)⟩
  have hb : b ≤ capMax := le_trans (Nat.le_mul_of_pos_left b (by have := h.two_le; omega)) h.fits
  exact ⟨h.le_max, hb, h.length.trans_le h.fits, hm.le.trans h.le_max⟩

end Sys2Proof.Machine
end

