-- ==== Sys2Proof/Machine/Contract.lean ====
section
/-! DEFINITION. What the engine's finite-precision arithmetic may be (R179): a named function for the frames,
of which the contract SpecNum, and only that, is given. The parameters SPEC_TOL_DB and SPEC_PN_MIN stand beside
the function, since each only has a meaning for the frames the implementation makes. -/
namespace Sys2Proof.Machine

/-- An implementation's arithmetic, for its CAP_MAX and FFT_N_MAX: the frames it makes, and the tolerance and the
threshold it meets the contract with (R6, R179). `Erased` keeps the two reals out of what is computed. -/
structure Arithmetic (capMax fftNMax : Nat) where
  /-- Element `m` of the frame of a batch at the `k`-th draw. -/
  draw (n b : Nat) (raw : List Sample) (k m : Nat) : BitVec 32
  /-- SPEC_TOL_DB. -/
  tolDb : Erased ℝ
  /-- SPEC_PN_MIN. -/
  pnMin : Erased ℝ
  tolDb_nonneg : 0 ≤ tolDb.out
  eps_le_pnMin : eps ≤ pnMin.out
  pnMin_le_one : pnMin.out ≤ 1
  /-- R179 (a) to (d), for every batch of a configuration that INIT accepts. -/
  meets (n b : Nat) (raw : List Sample) (k : Nat) (legal : LegalBatch capMax fftNMax n b raw) :
    FrameConforms tolDb.out pnMin.out n b raw (draw n b raw k)

/-- Some arithmetic meets the contract, so that assuming one is consistent: every element at the floor, with a
tolerance that admits it. Nothing rests on which one it is. -/
def Arithmetic.floor (capMax fftNMax : Nat) : Arithmetic capMax fftNMax where
  draw _ _ _ _ _ := dbFloorBits
  tolDb := ⟨fun r => (exists_floor_distance capMax fftNMax).choose = r, _, rfl⟩
  pnMin := ⟨fun r => (1 : ℝ) = r, _, rfl⟩
  tolDb_nonneg := (Erased.out_mk (exists_floor_distance capMax fftNMax).choose).symm ▸
    (exists_floor_distance capMax fftNMax).choose_spec.1
  eps_le_pnMin := (Erased.out_mk (1 : ℝ)).symm ▸ eps_le_one
  pnMin_le_one := (Erased.out_mk (1 : ℝ)).le
  meets n b raw k legal := by
    obtain ⟨nonneg, near⟩ := (exists_floor_distance capMax fftNMax).choose_spec
    have tol := Erased.out_mk (exists_floor_distance capMax fftNMax).choose
    have one := Erased.out_mk (1 : ℝ)
    refine ⟨fun _ _ => dbFloorBits_finite, fun m hm _ => ?_, fun m _ _ => ?_, fun _ _ _ => rfl⟩
    · rw [f32Value_dbFloorBits]
      exact (near n b raw m legal hm).trans_eq tol.symm
    · rw [f32Value_dbFloorBits]
      change dbFloor - (Erased.mk (exists_floor_distance capMax fftNMax).choose).out ≤ _ ∧
        _ ≤ 10 * Real.logb 10 (Erased.mk (1 : ℝ)).out + (Erased.mk (exists_floor_distance capMax fftNMax).choose).out
      rw [tol, one, Real.logb_one]
      have floor : dbFloor = -300 := rfl
      constructor <;> linarith

end Sys2Proof.Machine
end

