-- ==== Sys2Proof/Config.lean ====
section
/-! DEFINITION. What an implementation fixes (R5, R6, R179) and the free values (R10, R179). Each rests on a
constant with no body, of a shape or a type that says what the spec says of it; nothing in Lean can compute one, so a
claim holds for every implementation. -/
namespace Sys2Proof.Config

/-- What the implementation chose for CAP_MAX above its lower bound. -/
opaque capMaxFree : Nat

/-- CAP_MAX, any value with 4 ≤ CAP_MAX ≤ 2^27 (R6). -/
def capMax : Nat := min capMaxFree (2 ^ 27 - 4) + 4

/-- What the implementation chose for FFT_N_MAX above its lower bound, halved. -/
opaque fftNMaxFree : Nat

/-- FFT_N_MAX, any even value with 2 ≤ FFT_N_MAX ≤ 2^25 (R6). -/
def fftNMax : Nat := 2 * min fftNMaxFree (2 ^ 24 - 1) + 2

/-- What the implementation chose for PACK_SZ_MAX above its lower bound. -/
opaque packSzMaxFree : Nat

/-- PACK_SZ_MAX, any value with 10 ≤ PACK_SZ_MAX ≤ 2^24 - 1 (R6). -/
def packSzMax : Nat := min packSzMaxFree (2 ^ 24 - 1 - 10) + 10

/-- FREE VALUE: the implementation's arithmetic, with its SPEC_TOL_DB and SPEC_PN_MIN (R6, R179). It has no body;
the argument says only that some arithmetic exists. -/
opaque arithmeticOf [Inhabited (Machine.Arithmetic capMax fftNMax)] : Machine.Arithmetic capMax fftNMax

/-- The implementation's arithmetic: nothing is known of it but that it meets the contract of R179. -/
def arithmetic : Machine.Arithmetic capMax fftNMax := @arithmeticOf ⟨Machine.Arithmetic.floor capMax fftNMax⟩

/-- SPEC_TOL_DB, a real ≥ 0 (R6). -/
noncomputable def specTolDb : ℝ := arithmetic.tolDb.out

/-- SPEC_PN_MIN, a real with EPS ≤ SPEC_PN_MIN ≤ 1 (R6). -/
noncomputable def specPnMin : ℝ := arithmetic.pnMin.out

/-- FREE VALUE: what the `k`-th draw of an unspecified element gives (R10, R69); a narrower element takes
its low bits. -/
opaque freeElement (k : Nat) : Word

/-- FREE VALUE: element `m` of the frame that the engine's arithmetic makes of a batch at the `k`-th draw
(R179). On a legal batch the frame meets the contract, by `Machine.Arithmetic.meets`. -/
def specDraw (n b : Nat) (raw : List Sample) (k m : Nat) : BitVec 32 := arithmetic.draw n b raw k m

end Sys2Proof.Config
end

