-- ==== Sys2Proof/Syntax.lean ====
section
/-! DEFINITION. The operations of the DSB: one constructor per row of spec/opcode_table.json. -/
namespace Sys2Proof

/-- An operation the block can be asked to perform: a command (CMD64, R84), an RX event (RXD32, R87) or
a host bus transaction on a location of the block (BUS, R100 to R105). -/
inductive Instr where
  /-- NOP (R107). -/
  | nop
  /-- INIT (R108). -/
  | init
  /-- START (R110). -/
  | start
  /-- STOP (R111). -/
  | stop
  /-- DEINIT (R112). -/
  | deinit
  /-- CLR_ERR (R113). -/
  | clrErr
  /-- FIFO_PUSH (R136); `n` is the ARG field (R83). -/
  | fifoPush (n : BitVec 32)
  /-- FIFO_POP (R137); `n` is the ARG field (R83). -/
  | fifoPop (n : BitVec 32)
  /-- ENGINE_RUN (R182). -/
  | engineRun
  /-- RX_DATAGRAM (R162): the datagram's bytes; the descriptor's LEN is their number (R86). -/
  | rxDatagram (d : List Byte)
  /-- RX_TIMEOUT (R152): the descriptor's LEN field, which the block ignores (R86). -/
  | rxTimeout (len : BitVec 24)
  /-- HOST_REG_READ (R100) at a byte offset of the register window. -/
  | hostRegRead (off : BitVec 9)
  /-- HOST_REG_WRITE (R101) of `v` at a byte offset of the register window. -/
  | hostRegWrite (off : BitVec 9) (v : Word)
  /-- PUSHBUF_WRITE (R102) of element `i`. -/
  | pushbufWrite (i : BitVec 27) (v : Sample)
  /-- PUSHBUF_READ (R102) of element `i`. -/
  | pushbufRead (i : BitVec 27)
  /-- POPBUF_READ (R103) of element `i`. -/
  | popbufRead (i : BitVec 27)
  /-- SPEC_READ (R104) of element `i`. -/
  | specRead (i : BitVec 26)
  /-- FREQ_READ (R105) of element `i`. -/
  | freqRead (i : BitVec 25)
  deriving DecidableEq, Repr

end Sys2Proof
end

