-- ==== Sys2Proof/WellFormed.lean ====
section
/-! DEFINITION. Which terms of `Instr` stand for an operation the encodings of 30_encoding.md can express. -/
namespace Sys2Proof

/-- The checks on an operation's fields. A datagram's length fits the 24-bit LEN field (R86); a register
offset is a multiple of 8 (R62); a write of offset 0x000 is a command and not a register write (R81). -/
def Instr.wellFormed : Instr → Bool
  | .nop => true
  | .init => true
  | .start => true
  | .stop => true
  | .deinit => true
  | .clrErr => true
  | .fifoPush _ => true
  | .fifoPop _ => true
  | .engineRun => true
  | .rxDatagram d => decide (d.length < 2 ^ 24)
  | .rxTimeout _ => true
  | .hostRegRead off => decide (off.toNat % 8 = 0)
  | .hostRegWrite off _ => decide (off.toNat % 8 = 0) && decide (off ≠ 0)
  | .pushbufWrite _ _ => true
  | .pushbufRead _ => true
  | .popbufRead _ => true
  | .specRead _ => true
  | .freqRead _ => true

end Sys2Proof
end

