-- ==== Sys2Proof/Decode.lean ====
section
/-! DEFINITION. The three operation formats (R80 to R88), the decoder, total on every operation and
rejecting by name, the encoder, and the reading of an opcode-table word. -/
namespace Sys2Proof

/-- SIZE of a bus transaction, in bytes: 1, 2, 4 or 8 (R62, R81). -/
inductive BusSize where
  | b1
  | b2
  | b4
  | b8
  deriving DecidableEq, Repr

/-- The number of bytes a SIZE moves (R62). -/
def BusSize.bytes : BusSize → Nat
  | .b1 => 1
  | .b2 => 2
  | .b4 => 4
  | .b8 => 8

/-- A host bus transaction: DIR, ADDR, SIZE and, for a write, DATA (R81). DATA is a SIZE-byte value; the
bits of `data` above it are not on the bus. -/
inductive BusTxn where
  | read (addr : Addr) (size : BusSize)
  | write (addr : Addr) (size : BusSize) (data : Word)
  deriving DecidableEq, Repr

/-- The ADDR field of a transaction (R81). -/
def BusTxn.addr : BusTxn → Addr
  | .read a _ => a
  | .write a _ _ => a

/-- The SIZE field of a transaction (R81). -/
def BusTxn.size : BusTxn → BusSize
  | .read _ n => n
  | .write _ n _ => n

/-- What RXPORT delivers: an RXD32 descriptor and the bytes that follow it (R86). -/
structure RxArrival where
  desc : BitVec 32
  bytes : List Byte
  deriving DecidableEq, Repr

/-- An operation as it arrives: on the host bus (a CMD write is one of its transactions) or on the RX
port. The interface tells the format, never the bits (R80). -/
inductive Operation where
  | bus (t : BusTxn)
  | rx (a : RxArrival)
  deriving DecidableEq, Repr

/-- Whether an operation holds only what its interface carries: the DATA of a write is a SIZE-byte value
(R81). -/
def Operation.wellFormed : Operation → Bool
  | .bus (.read _ _) => true
  | .bus (.write _ n v) => decide (v.toNat < 256 ^ n.bytes)
  | .rx _ => true

/-- Why an arriving operation is no row of the opcode table. The first four are bus errors (R193). -/
inductive Reject where
  /-- ADDR lies in no window (R61). -/
  | unmapped
  /-- SIZE is not the element size of the window (R62). -/
  | wrongSize
  /-- ADDR is not a multiple of SIZE (R62). -/
  | misaligned
  /-- A write of POP_BUF, SPEC_OUT or FREQ (R103 to R105). -/
  | readOnlyArray
  /-- The command word's OPC is not in R84 (R85). -/
  | illegalOpcode (opc : Byte)
  /-- A reserved field of the command word is not 0 (R85). -/
  | reservedField (opc : Byte)
  /-- The RX descriptor's KIND is reserved (R87). -/
  | reservedKind
  /-- The bytes after an RX descriptor are not the number R86 gives it: no RX event of the spec. -/
  | rxFraming
  deriving DecidableEq, Repr

/-! ### Commands (R82 to R85) -/

/-- The opcodes of R84. -/
inductive Opcode where
  | nop
  | init
  | start
  | stop
  | deinit
  | clrErr
  | fifoPush
  | fifoPop
  | engineRun
  deriving DecidableEq, Repr

/-- The OPC byte of an opcode (R84). -/
def Opcode.byte : Opcode → Byte
  | .nop => 0x00
  | .init => 0x01
  | .start => 0x02
  | .stop => 0x03
  | .deinit => 0x04
  | .clrErr => 0x05
  | .fifoPush => 0x10
  | .fifoPop => 0x11
  | .engineRun => 0x20

/-- The opcode an OPC byte names, if R84 has it. -/
def opcodeOf (opc : Byte) : Option Opcode :=
  match opc.toNat with
  | 0x00 => some .nop
  | 0x01 => some .init
  | 0x02 => some .start
  | 0x03 => some .stop
  | 0x04 => some .deinit
  | 0x05 => some .clrErr
  | 0x10 => some .fifoPush
  | 0x11 => some .fifoPop
  | 0x20 => some .engineRun
  | _ => none

/-- Whether the command reads ARG (R83). -/
def Opcode.hasOperand : Opcode → Bool
  | .fifoPush => true
  | .fifoPop => true
  | .nop => false
  | .init => false
  | .start => false
  | .stop => false
  | .deinit => false
  | .clrErr => false
  | .engineRun => false

/-- Field OPC of a command word, bits [7:0] (R82). -/
def cmdOpc (w : Word) : Byte := w.extractLsb' 0 8

/-- Field RSV0 of a command word, bits [15:8] (R82). -/
def cmdRsv0 (w : Word) : Byte := w.extractLsb' 8 8

/-- Field ARG of a command word, bits [47:16] (R82). -/
def cmdArg (w : Word) : BitVec 32 := w.extractLsb' 16 32

/-- Field RSV1 of a command word, bits [63:48] (R82). -/
def cmdRsv1 (w : Word) : BitVec 16 := w.extractLsb' 48 16

/-- The checks on a command word in the order of R106 and R192: the opcode first, then the reserved
fields. The answer is the opcode and its operand. -/
def checkCmd (w : Word) : Except Reject (Opcode × BitVec 32) :=
  match opcodeOf (cmdOpc w) with
  | none => .error (.illegalOpcode (cmdOpc w))
  | some o =>
    if cmdRsv0 w ≠ 0 ∨ cmdRsv1 w ≠ 0 then .error (.reservedField (cmdOpc w))
    else if o.hasOperand = false ∧ cmdArg w ≠ 0 then .error (.reservedField (cmdOpc w))
    else .ok (o, cmdArg w)

/-- The instruction of an opcode with its operand. -/
def Opcode.instr (o : Opcode) (n : BitVec 32) : Instr :=
  match o with
  | .nop => .nop
  | .init => .init
  | .start => .start
  | .stop => .stop
  | .deinit => .deinit
  | .clrErr => .clrErr
  | .fifoPush => .fifoPush n
  | .fifoPop => .fifoPop n
  | .engineRun => .engineRun

/-- A CMD64 word read as a command (R82 to R85). -/
def decodeCmd (w : Word) : Except Reject Instr :=
  match checkCmd w with
  | .error e => .error e
  | .ok (o, n) => .ok (o.instr n)

/-! ### Bus transactions (R61, R62, R81) -/

/-- The windows of the host bus (R61). -/
inductive Window where
  | regs
  | pushBuf
  | popBuf
  | specOut
  | freq
  deriving DecidableEq, Repr

/-- The window an address lies in (R61); the tail of an array window is told apart by the element index,
which the access checks (R63). -/
def windowOf (a : Addr) : Option Window :=
  match (a.extractLsb' 28 4).toNat with
  | 0 => if a.toNat < 0x200 then some .regs else none
  | 1 => some .pushBuf
  | 2 => some .popBuf
  | 3 => some .specOut
  | 4 => some .freq
  | _ => none

/-- The base address of a window (R61). -/
def Window.base : Window → Nat
  | .regs => 0x00000000
  | .pushBuf => 0x10000000
  | .popBuf => 0x20000000
  | .specOut => 0x30000000
  | .freq => 0x40000000

/-- The element size of a window (R61). -/
def Window.elemSize : Window → BusSize
  | .regs => .b8
  | .pushBuf => .b2
  | .popBuf => .b2
  | .specOut => .b4
  | .freq => .b8

/-- A host bus transaction as an instruction, or the bus error it is by its address, size, alignment or
direction alone (R61, R62, R81, R102 to R105). A write of ADDR 0, SIZE 8 is a command (R81). -/
def decodeBus (t : BusTxn) : Except Reject Instr :=
  match windowOf t.addr with
  | none => .error .unmapped
  | some w =>
    if t.size ≠ w.elemSize then .error .wrongSize
    else if t.addr.toNat % w.elemSize.bytes ≠ 0 then .error .misaligned
    else
      match w, t with
      | .regs, .read a _ => .ok (.hostRegRead (a.extractLsb' 0 9))
      | .regs, .write a _ v => if a = 0 then decodeCmd v else .ok (.hostRegWrite (a.extractLsb' 0 9) v)
      | .pushBuf, .read a _ => .ok (.pushbufRead (a.extractLsb' 1 27))
      | .pushBuf, .write a _ v => .ok (.pushbufWrite (a.extractLsb' 1 27) (v.extractLsb' 0 16))
      | .popBuf, .read a _ => .ok (.popbufRead (a.extractLsb' 1 27))
      | .popBuf, .write _ _ _ => .error .readOnlyArray
      | .specOut, .read a _ => .ok (.specRead (a.extractLsb' 2 26))
      | .specOut, .write _ _ _ => .error .readOnlyArray
      | .freq, .read a _ => .ok (.freqRead (a.extractLsb' 3 25))
      | .freq, .write _ _ _ => .error .readOnlyArray

/-! ### RX events (R86, R87) -/

/-- Field KIND of an RX descriptor, bits [31:24] (R86). -/
def rxKind (desc : BitVec 32) : Byte := desc.extractLsb' 24 8

/-- Field LEN of an RX descriptor, bits [23:0] (R86). -/
def rxLen (desc : BitVec 32) : BitVec 24 := desc.extractLsb' 0 24

/-- An RX event as an instruction (R86, R87). A datagram is followed by exactly LEN bytes, a timeout by
none; a reserved KIND is rejected whatever follows it. -/
def decodeRx (a : RxArrival) : Except Reject Instr :=
  match (rxKind a.desc).toNat with
  | 0x00 => if a.bytes.length = (rxLen a.desc).toNat then .ok (.rxDatagram a.bytes) else .error .rxFraming
  | 0x01 => if a.bytes = [] then .ok (.rxTimeout (rxLen a.desc)) else .error .rxFraming
  | _ => .error .reservedKind

/-- The decoder, total on every operation: the interface tells the format (R80). -/
def decode : Operation → Except Reject Instr
  | .bus t => decodeBus t
  | .rx a => decodeRx a

/-! ### The encoder -/

/-- The CMD64 word `{RSV1, ARG, RSV0, OPC}` with its reserved fields 0 (R82). -/
def cmdWord (o : Opcode) (n : BitVec 32) : Word := 0#16 ++ n ++ 0#8 ++ o.byte

/-- The host write of a command word to CMD: BUS W, ADDR 0x0000_0000, SIZE 8 (R81). -/
def cmdWrite (o : Opcode) (n : BitVec 32) : Operation := .bus (.write 0 .b8 (cmdWord o n))

/-- The operation that carries a well-formed instruction (R61, R81, R82, R86). -/
def encode : Instr → Operation
  | .nop => cmdWrite .nop 0
  | .init => cmdWrite .init 0
  | .start => cmdWrite .start 0
  | .stop => cmdWrite .stop 0
  | .deinit => cmdWrite .deinit 0
  | .clrErr => cmdWrite .clrErr 0
  | .fifoPush n => cmdWrite .fifoPush n
  | .fifoPop n => cmdWrite .fifoPop n
  | .engineRun => cmdWrite .engineRun 0
  | .rxDatagram d => .rx ⟨0x00#8 ++ BitVec.ofNat 24 d.length, d⟩
  | .rxTimeout len => .rx ⟨0x01#8 ++ len, []⟩
  | .hostRegRead off => .bus (.read (0#23 ++ off) .b8)
  | .hostRegWrite off v => .bus (.write (0#23 ++ off) .b8 v)
  | .pushbufWrite i v => .bus (.write (0x1#4 ++ i ++ 0#1) .b2 (0#48 ++ v))
  | .pushbufRead i => .bus (.read (0x1#4 ++ i ++ 0#1) .b2)
  | .popbufRead i => .bus (.read (0x2#4 ++ i ++ 0#1) .b2)
  | .specRead i => .bus (.read (0x3#4 ++ i ++ 0#2) .b4)
  | .freqRead i => .bus (.read (0x4#4 ++ i ++ 0#3) .b8)

/-! ### Words of the opcode table -/

/-- The operation that a word of spec/opcode_table.json stands for, with every bit above `nbits` zero. A
64-bit word is the DATA of a CMD write. A 32-bit word is an RX descriptor or a bus ADDR, and the table
gives both formats, and both directions of a bus access, the same bits: DESIGN CHOICE (notes/assumptions/3),
a nonzero aligned offset of the register window is a register read; any other word whose top byte is 0x00
or 0x01 is an RX descriptor, followed by LEN zero bytes for a datagram; the rest are bus reads of the
element size of their window. -/
def tableOperation (nbits w : Nat) : Option Operation :=
  if nbits = 64 then some (.bus (.write 0 .b8 (BitVec.ofNat 64 w)))
  else if nbits = 32 then
    let a := BitVec.ofNat 32 w
    if a.toNat ≠ 0 ∧ a.toNat < 0x200 ∧ a.toNat % 8 = 0 then some (.bus (.read a .b8))
    else
      match (rxKind a).toNat with
      | 0x00 => some (.rx ⟨a, List.replicate (rxLen a).toNat 0⟩)
      | 0x01 => some (.rx ⟨a, []⟩)
      | _ =>
        match windowOf a with
        | some win => some (.bus (.read a win.elemSize))
        | none => some (.bus (.read a .b8))
  else none

/-- The instruction the decoder reads from a word numbered as the opcode table numbers its bits. -/
def decodeTableWord (nbits w : Nat) : Option Instr :=
  match tableOperation nbits w with
  | none => none
  | some op =>
    match decode op with
    | .ok i => some i
    | .error _ => none

end Sys2Proof
end

