-- ==== Sys2Proof/Machine/State.lean ====
section
/-! DEFINITION. The state of the DSB (R20 to R56), the reasons a step can stop, and the state after reset
(R210, R211). -/
namespace Sys2Proof.Machine

/-- MODE (R21): the value 3 never occurs, so it has no constructor. -/
inductive Mode where
  | idle
  | ready
  | run
  deriving DecidableEq, Repr

/-- The command status codes (R191): the only values CMD_STATUS.CODE takes. -/
inductive Status where
  | ok
  | illegalOpcode
  | reservedField
  | illegalState
  | configInvalid
  | pushTooLarge
  | insufficientData
  deriving DecidableEq, Repr

/-- The nine configuration registers (R23 to R31), each 64 bits as written. -/
structure CfgRegs where
  packSz : Word
  headerSz : Word
  fftN : Word
  fftBatch : Word
  capMult : Word
  sampleRate : Word
  centerFreq : Word
  listenPort : Word
  rxTimeoutMs : Word
  deriving DecidableEq, Repr

/-- The derived registers FIFO_CAPACITY (C), BATCH_RAW (NRAW) and PAYLOAD_ELEMS (PELEM) (R32). -/
structure DerivedRegs where
  cap : Nat
  nraw : Nat
  pelem : Nat
  deriving DecidableEq, Repr

/-- The Circular Sample Buffer (R33 to R36): STORE as (index, element) pairs, strictly rising, an index
not listed being unspecified; WPTR; RPTR; AVAIL. -/
structure Csb where
  store : List (Nat × Sample)
  wptr : Nat
  rptr : Nat
  avail : Nat
  deriving DecidableEq, Repr

/-- The sequence state SEQ_PREV and SEQ_VALID (R38, R39). -/
structure SeqState where
  prev : Word
  valid : Bool
  deriving DecidableEq, Repr

/-- The event counters (R40 to R45), each a u64. -/
structure Counters where
  gapEvents : Word
  lostEst : Word
  ovfEvents : Word
  ovfSamples : Word
  malformed : Word
  frames : Word
  deriving DecidableEq, Repr

/-- CMD_STATUS (its fields OPC and CODE) and RESULT (R51, R52). -/
structure CmdRegs where
  opc : Byte
  code : Status
  result : Word
  deriving DecidableEq, Repr

/-- ERR (R53): the sticky bits BUS [0], CMD [1] and CFG [2]. -/
structure ErrBits where
  bus : Bool
  cmd : Bool
  cfg : Bool
  deriving DecidableEq, Repr

/-- The bus's answer to HOST: whether it is an error response, and the data of a read (0 on an error,
R193, and for a write). -/
structure BusResponse where
  error : Bool
  data : Word
  deriving DecidableEq, Repr

/-- Whose action SEQ performs next (R4, R210). -/
inductive Source where
  | host
  | rxport
  | reset
  deriving DecidableEq, Repr

/-- The bytes of the bus arrays as (address, byte) pairs; the canonical form is `Memory.wf`. -/
abbrev Memory := List Host.Cell

/-- The whole state. The first nine fields are the block's (R20); `mem` holds the bytes of the four bus
arrays PUSH_BUF, POP_BUF, SPEC_OUT and FREQ (R46 to R49, R61) as (address, byte) pairs, strictly rising, an
address not listed being unspecified. The last five are the model's own (R56; notes/assumptions/2, 4, 5):
how many free values have been drawn; the bus's answer to the last HOST transaction; the transactions HOST
and the events RXPORT have yet to issue, each in its own order; and the order in which SEQ takes them. -/
structure State where
  mode : Mode
  cfg : CfgRegs
  derived : DerivedRegs
  csb : Csb
  seq : SeqState
  counters : Counters
  mem : Memory
  cmd : CmdRegs
  err : ErrBits
  draws : Nat
  response : Option BusResponse
  hostStream : List BusTxn
  rxStream : List RxArrival
  order : List Source
  deriving DecidableEq, Repr

/-- Faults: there are none. The DSB has no trap and nothing stops it (R190, R198): a refused bus
transaction and a failed command are next states. Nothing raises a fault, which is safe. -/
inductive Fault where
  deriving DecidableEq, Repr

/-- Refusals. -/
inductive Refusal where
  /-- An instruction without a meaning, by its mnemonic; raised by a refused arm of `exec`, of which there
  is none. Safe. -/
  | notModelled (mnemonic : String)
  /-- RXPORT delivered a descriptor whose bytes are not the number R86 gives it, which is no RX event of
  the spec; raised by `step` (notes/assumptions/6). Safe. -/
  | rxFraming
  deriving DecidableEq, Repr

/-- How a command's rule ends: normally with a result and the state it leaves, or by `raise`, having
changed nothing (R12, R106). -/
inductive CmdEnd where
  | ok (result : Nat) (s : State)
  | raise (code : Status) (info : Nat)
  deriving DecidableEq, Repr

/-! ### Reset values (R210, R211) -/

/-- Every configuration register 0 (R23 to R31). -/
def CfgRegs.zero : CfgRegs := ⟨0, 0, 0, 0, 0, 0, 0, 0, 0⟩

/-- C, NRAW and PELEM 0 (R32). -/
def DerivedRegs.zero : DerivedRegs := ⟨0, 0, 0⟩

/-- An empty buffer: every element of STORE unspecified, cursors and count 0 (R33 to R36). -/
def Csb.empty : Csb := ⟨[], 0, 0, 0⟩

/-- No previous sequence number (R38, R39). -/
def SeqState.zero : SeqState := ⟨0, false⟩

/-- Every counter 0 (R40 to R45). -/
def Counters.zero : Counters := ⟨0, 0, 0, 0, 0, 0⟩

/-- The machine right after reset (R211), nothing yet asked of it: no draw made, no bus transaction
answered and no stream placed (notes/assumptions/2, 4, 5). -/
def State.reset : State where
  mode := .idle
  cfg := .zero
  derived := .zero
  csb := .empty
  seq := .zero
  counters := .zero
  mem := []
  cmd := ⟨0, .ok, 0⟩
  err := ⟨false, false, false⟩
  draws := 0
  response := none
  hostStream := []
  rxStream := []
  order := []

end Sys2Proof.Machine
end

