-- ==== Sys2Proof/Machine/Flags.lean ====
section
/-! DEFINITION. Counters, error bits and status codes: the saturating count (R8), each event's count
(R40 to R45), the ERR bits (R53), the CMD_STATUS word (R51) and the gap detector (R157). -/
namespace Sys2Proof.Machine

/-- `sat64(c + n)` (R8): a u64 counter that stays at 2^64 - 1 instead of wrapping. -/
def satAdd (c : Word) (n : Nat) : Word := BitVec.ofNat 64 (min (c.toNat + n) (2 ^ 64 - 1))

/-- One gap event of delta `gap` (R40, R41, R157). -/
def Counters.addGap (c : Counters) (gap : Nat) : Counters :=
  { c with gapEvents := satAdd c.gapEvents 1, lostEst := satAdd c.lostEst gap }

/-- One overflowing push that overwrote `lost` unread elements (R42, R43, R131). -/
def Counters.addOverflow (c : Counters) (lost : Nat) : Counters :=
  { c with ovfEvents := satAdd c.ovfEvents 1, ovfSamples := satAdd c.ovfSamples lost }

/-- One malformed datagram (R44, R154, R155). -/
def Counters.addMalformed (c : Counters) : Counters := { c with malformed := satAdd c.malformed 1 }

/-- One spectrum frame (R45, R178). -/
def Counters.addFrame (c : Counters) : Counters := { c with frames := satAdd c.frames 1 }

/-- GapDetect (R157): an accepted datagram's sequence number against the previous one, as exact unsigned
integers. A delta of 1, 0 or less counts nothing. -/
def gapDetect (q : SeqState) (cur : Word) (c : Counters) : Counters :=
  if q.valid = true ∧ cur.toNat > q.prev.toNat + 1 then c.addGap (cur.toNat - q.prev.toNat) else c

/-- The code of a status (R191). -/
def Status.toByte : Status → Byte
  | .ok => 0
  | .illegalOpcode => 1
  | .reservedField => 2
  | .illegalState => 3
  | .configInvalid => 4
  | .pushTooLarge => 5
  | .insufficientData => 6

/-- CMD_STATUS as read: [7:0] CODE, [15:8] OPC, the rest 0 (R51). -/
def CmdRegs.statusWord (c : CmdRegs) : Word := 0#48 ++ c.opc ++ c.code.toByte

/-- ERR as read: [0] BUS, [1] CMD, [2] CFG, the rest 0 (R53). -/
def ErrBits.toWord (e : ErrBits) : Word :=
  0#61 ++ BitVec.ofBool e.cfg ++ BitVec.ofBool e.cmd ++ BitVec.ofBool e.bus

/-- Every ERR bit clear (R113). -/
def ErrBits.clear : ErrBits := ⟨false, false, false⟩

/-- ERR after a bus error (R193). -/
def ErrBits.withBus (e : ErrBits) : ErrBits := { e with bus := true }

/-- ERR after a command that ended with `code` (R106): CMD is set by every code but OK, CFG by
CONFIG_INVALID. -/
def ErrBits.afterCommand (e : ErrBits) (code : Status) : ErrBits :=
  { e with cmd := e.cmd || decide (code ≠ .ok), cfg := e.cfg || decide (code = .configInvalid) }

/-- MODE as read (R21). -/
def Mode.toWord : Mode → Word
  | .idle => 0
  | .ready => 1
  | .run => 2

end Sys2Proof.Machine
end

