-- ==== Sys2Proof/Machine/Ops.lean ====
section
/-! DEFINITION. The named operations over memory, draws, the bus's answer and a command's recording. The
DSB has no trap (R190, R198): `busfault` and `recordStatus` are the ways an error is reported, shared by
every operation. -/
namespace Sys2Proof.Machine

/-! ### Sparse arrays: (index, value) pairs with strictly rising indices -/

/-- The value listed at an index; `none` where the element is unspecified (R10). -/
def Cells.lookup {α : Type} : List (Nat × α) → Nat → Option α
  | [], _ => none
  | (k, v) :: t, a => if k = a then some v else Cells.lookup t a

/-- The list with the value at one index set. -/
def Cells.insert {α : Type} : List (Nat × α) → Nat → α → List (Nat × α)
  | [], a, v => [(a, v)]
  | (k, w) :: t, a, v =>
    if a < k then (a, v) :: (k, w) :: t
    else if a = k then (a, v) :: t
    else (k, w) :: Cells.insert t a v

/-- The list with every index in [lo, hi) made unspecified. -/
def Cells.eraseRange {α : Type} (l : List (Nat × α)) (lo hi : Nat) : List (Nat × α) :=
  l.filter fun c => decide (c.1 < lo) || decide (hi ≤ c.1)

/-- The canonical form: indices strictly rising. An unlisted index reads as no value, so no entry can equal
what an unlisted index reads as. -/
def Cells.wf {α : Type} : List (Nat × α) → Bool
  | [] => true
  | [_] => true
  | a :: b :: t => decide (a.1 < b.1) && Cells.wf (b :: t)

/-! ### Elements of the bus arrays, byte by byte, little-endian (R64) -/

/-- The canonical form of the memory. -/
def Memory.wf (m : Memory) : Bool := Cells.wf m

/-- The byte at a bus address; `none` where it is unspecified. -/
def Memory.byte (m : Memory) (a : Nat) : Option Byte := Cells.lookup m a

/-- The `n`-byte element at address `a`; unspecified where a byte of it is. -/
def Memory.load (m : Memory) (a : Nat) : Nat → Option Nat
  | 0 => some 0
  | n + 1 =>
    match m.byte a, Memory.load m (a + 1) n with
    | some b, some r => some (b.toNat + 256 * r)
    | _, _ => none

/-- The memory with the `n`-byte element at address `a` set to `v mod 256^n`. -/
def Memory.store (m : Memory) (a : Nat) : Nat → Nat → Memory
  | 0, _ => m
  | n + 1, v => Memory.store (Cells.insert m a (BitVec.ofNat 8 v)) (a + 1) n (v / 256)

/-- The memory with consecutive `n`-byte elements from address `a` set to the listed values. -/
def Memory.storeElems (m : Memory) (a n : Nat) : List Nat → Memory
  | [] => m
  | v :: vs => Memory.storeElems (m.store a n v) (a + n) n vs

/-! ### Reads that may draw -/

/-- The value of the `n`-byte element at `a`, a fresh draw where it is unspecified (R63, R69). -/
def readElement (a n : Nat) (s : State) : Word × State :=
  match s.mem.load a n with
  | some v => (BitVec.ofNat 64 v, s)
  | none => (BitVec.ofNat 64 ((Config.freeElement s.draws).toNat % 256 ^ n), { s with draws := s.draws + 1 })

/-- `cnt` two-byte elements from address `a` on, each a fresh draw where it is unspecified. -/
def readSamples : Nat → Nat → State → List Sample × State
  | 0, _, s => ([], s)
  | cnt + 1, a, s =>
    let r := readElement a 2 s
    let rest := readSamples cnt (a + 2) r.2
    (r.1.setWidth 16 :: rest.1, rest.2)

/-! ### The bus's answer -/

/-- A performed read answers with its data (R100). -/
def respondRead (v : Word) (s : State) : State := { s with response := some ⟨false, v⟩ }

/-- A performed write. -/
def respondWrite (s : State) : State := { s with response := some ⟨false, 0⟩ }

/-- `busfault()` (R193): ERR.BUS is set, HOST gets an error response with data 0, and nothing else
changes. -/
def busfault (s : State) : State :=
  { s with err := s.err.withBus, response := some ⟨true, 0⟩ }

/-! ### Recording a command (R106) -/

/-- A command's end recorded: CMD_STATUS, RESULT and ERR (R106). The CMD write itself was performed,
whatever the code. -/
def recordStatus (opc : Byte) (code : Status) (res : Nat) (s : State) : State :=
  { s with
    cmd := ⟨opc, code, BitVec.ofNat 64 res⟩
    err := s.err.afterCommand code
    response := some ⟨false, 0⟩ }

/-- A command with a legal word (R106): refused with ILLEGAL_STATE outside its modes, otherwise run by its
rule. A rule that raises has changed nothing (R12). -/
def runCommand (opc : Byte) (legal : Mode → Bool) (rule : State → CmdEnd) (s : State) : State :=
  if legal s.mode then
    match rule s with
    | .ok res t => recordStatus opc .ok res t
    | .raise code info => recordStatus opc code info s
  else recordStatus opc .illegalState 0 s

/-- A command legal in every mode (R84). -/
def anyMode (_ : Mode) : Bool := true

/-- A command legal in one mode only (R84). -/
def onlyMode (m : Mode) (x : Mode) : Bool := decide (x = m)

/-! ### What INIT, DEINIT and reset share (R108, R112, R210) -/

/-- The buffer emptied, the sequence state and every counter cleared, SPEC_OUT and FREQ made
unspecified. -/
def clearRun (s : State) : State :=
  { s with
    csb := .empty
    seq := .zero
    counters := .zero
    mem := Cells.eraseRange s.mem 0x30000000 0x50000000 }

/-- Hardware reset as one action (R210): the block's state at its reset values. What HOST and RXPORT have
yet to issue is not the block's and stays (R56). -/
def hardwareReset (s : State) : State :=
  { State.reset with
    draws := s.draws
    response := s.response
    hostStream := s.hostStream
    rxStream := s.rxStream
    order := s.order }

end Sys2Proof.Machine
end

