-- ==== Sys2Proof/Machine/Operands.lean ====
section
/-! DEFINITION. What an operation's operands select: the register map (R22), the elements of the bus arrays
(R61, R63), and the sequence number and samples of a datagram (R65, R66). -/
namespace Sys2Proof.Machine

/-! ### The register window (R22) -/

/-- The configuration registers, RW-IDLE (R23 to R31). -/
inductive CfgReg where
  | packSz
  | headerSz
  | fftN
  | fftBatch
  | capMult
  | sampleRate
  | centerFreq
  | listenPort
  | rxTimeoutMs
  deriving DecidableEq, Repr

/-- The registers of R22. CMD is write-only, a configuration register RW-IDLE, every other read-only. -/
inductive Reg where
  | cmd
  | cmdStatus
  | result
  | mode
  | err
  | cfg (c : CfgReg)
  | fifoCapacity
  | fifoAvail
  | fifoWptr
  | fifoRptr
  | seqPrev
  | seqValid
  | gapEvents
  | lostEst
  | ovfEvents
  | ovfSamples
  | malformedCount
  | frameCount
  | batchRaw
  | payloadElems
  deriving DecidableEq, Repr

/-- The register at an offset of the register window (R22); `none` for a reserved offset (R54) and for an
offset that is no multiple of 8. -/
def regAt (off : Nat) : Option Reg :=
  match off with
  | 0x000 => some .cmd
  | 0x008 => some .cmdStatus
  | 0x010 => some .result
  | 0x018 => some .mode
  | 0x020 => some .err
  | 0x040 => some (.cfg .packSz)
  | 0x048 => some (.cfg .headerSz)
  | 0x050 => some (.cfg .fftN)
  | 0x058 => some (.cfg .fftBatch)
  | 0x060 => some (.cfg .capMult)
  | 0x068 => some (.cfg .sampleRate)
  | 0x070 => some (.cfg .centerFreq)
  | 0x078 => some (.cfg .listenPort)
  | 0x080 => some (.cfg .rxTimeoutMs)
  | 0x0A0 => some .fifoCapacity
  | 0x0A8 => some .fifoAvail
  | 0x0B0 => some .fifoWptr
  | 0x0B8 => some .fifoRptr
  | 0x0C0 => some .seqPrev
  | 0x0C8 => some .seqValid
  | 0x0D0 => some .gapEvents
  | 0x0D8 => some .lostEst
  | 0x0E0 => some .ovfEvents
  | 0x0E8 => some .ovfSamples
  | 0x0F0 => some .malformedCount
  | 0x0F8 => some .frameCount
  | 0x100 => some .batchRaw
  | 0x108 => some .payloadElems
  | _ => none

/-- The stored value of a configuration register. -/
def CfgReg.read (c : CfgReg) (r : CfgRegs) : Word :=
  match c with
  | .packSz => r.packSz
  | .headerSz => r.headerSz
  | .fftN => r.fftN
  | .fftBatch => r.fftBatch
  | .capMult => r.capMult
  | .sampleRate => r.sampleRate
  | .centerFreq => r.centerFreq
  | .listenPort => r.listenPort
  | .rxTimeoutMs => r.rxTimeoutMs

/-- The configuration registers with one of them set, all 64 bits as written (R101). -/
def CfgReg.write (c : CfgReg) (v : Word) (r : CfgRegs) : CfgRegs :=
  match c with
  | .packSz => { r with packSz := v }
  | .headerSz => { r with headerSz := v }
  | .fftN => { r with fftN := v }
  | .fftBatch => { r with fftBatch := v }
  | .capMult => { r with capMult := v }
  | .sampleRate => { r with sampleRate := v }
  | .centerFreq => { r with centerFreq := v }
  | .listenPort => { r with listenPort := v }
  | .rxTimeoutMs => { r with rxTimeoutMs := v }

/-- The 64-bit value a read of a register returns, unused bits 0 (R100); CMD reads 0 (R50). -/
def Reg.read (r : Reg) (s : State) : Word :=
  match r with
  | .cmd => 0
  | .cmdStatus => s.cmd.statusWord
  | .result => s.cmd.result
  | .mode => s.mode.toWord
  | .err => s.err.toWord
  | .cfg c => c.read s.cfg
  | .fifoCapacity => BitVec.ofNat 64 s.derived.cap
  | .fifoAvail => BitVec.ofNat 64 s.csb.avail
  | .fifoWptr => BitVec.ofNat 64 s.csb.wptr
  | .fifoRptr => BitVec.ofNat 64 s.csb.rptr
  | .seqPrev => s.seq.prev
  | .seqValid => 0#63 ++ BitVec.ofBool s.seq.valid
  | .gapEvents => s.counters.gapEvents
  | .lostEst => s.counters.lostEst
  | .ovfEvents => s.counters.ovfEvents
  | .ovfSamples => s.counters.ovfSamples
  | .malformedCount => s.counters.malformed
  | .frameCount => s.counters.frames
  | .batchRaw => BitVec.ofNat 64 s.derived.nraw
  | .payloadElems => BitVec.ofNat 64 s.derived.pelem

/-! ### The bus arrays (R61, R63) -/

/-- The number of elements of a window (R61). -/
def windowLen : Window → Nat
  | .regs => 64
  | .pushBuf => Config.capMax
  | .popBuf => Config.capMax
  | .specOut => Config.fftNMax
  | .freq => Config.fftNMax

/-- The bus address of element `i` of a window (R61). -/
def elemAddr (w : Window) (i : Nat) : Nat := w.base + w.elemSize.bytes * i

/-- A host read of element `i` of a bus array: a bus error when the index is out of range (R63), the
element or a draw otherwise. -/
def readArray (w : Window) (i : Nat) (s : State) : State :=
  if i < windowLen w then
    let r := readElement (elemAddr w i) w.elemSize.bytes s
    respondRead r.1 r.2
  else busfault s

/-- A host write of element `i` of a bus array: a bus error when the index is out of range (R63). -/
def writeArray (w : Window) (i v : Nat) (s : State) : State :=
  if i < windowLen w then
    respondWrite { s with mem := s.mem.store (elemAddr w i) w.elemSize.bytes v }
  else busfault s

/-! ### Fields of a datagram (R65, R66) -/

/-- The value of a little-endian byte string. -/
def bytesLE : List Byte → Nat
  | [] => 0
  | b :: t => b.toNat + 256 * bytesLE t

/-- `ParseSeq(d)`: the first 8 bytes, little-endian (R65). -/
def parseSeq (d : List Byte) : Word := BitVec.ofNat 64 (bytesLE (d.take 8))

/-- The samples of a payload: each two bytes `lo, hi` are the s16 `{hi, lo}` (R66, R159). -/
def samplesOf : List Byte → List Sample
  | lo :: hi :: t => (hi ++ lo) :: samplesOf t
  | _ => []

end Sys2Proof.Machine
end

