-- ==== Sys2Proof/Machine/Fifo.lean ====
section
/-! DEFINITION. The Circular Sample Buffer: the primitives FifoPush and FifoPop (R131, R132) and the host
commands FIFO_PUSH and FIFO_POP (R136, R137). -/
namespace Sys2Proof.Machine

/-- The copy loop of FifoPush: elements to STORE from position `w` on, modulo the capacity `c`. -/
def storeSamples (c : Nat) : List (Nat × Sample) → Nat → List Sample → List (Nat × Sample)
  | st, _, [] => st
  | st, w, x :: xs => storeSamples c (Cells.insert st (w % c) x) (w + 1) xs

/-- FifoPush (R131), for `xs` no longer than the capacity. An overflow moves the read cursor to the new
write cursor, so the oldest unread elements are lost, and counts them. -/
def fifoPush (xs : List Sample) (s : State) : State :=
  let c := s.derived.cap
  let n := xs.length
  let st := storeSamples c s.csb.store s.csb.wptr xs
  let w := (s.csb.wptr + n) % c
  if s.csb.avail + n > c then
    { s with
      csb := ⟨st, w, w, c⟩
      counters := s.counters.addOverflow (s.csb.avail + n - c) }
  else { s with csb := ⟨st, w, s.csb.rptr, s.csb.avail + n⟩ }

/-- The copy loop of FifoPop: `cnt` elements of STORE from position `r` on, modulo the capacity `c`. An
element nothing has written since INIT would be a draw; no run reads one (R33). -/
def loadSamples (c : Nat) (st : List (Nat × Sample)) : Nat → Nat → Nat → List Sample × Nat
  | 0, _, k => ([], k)
  | cnt + 1, r, k =>
    match Cells.lookup st (r % c) with
    | some x =>
      let rest := loadSamples c st cnt (r + 1) k
      (x :: rest.1, rest.2)
    | none =>
      let rest := loadSamples c st cnt (r + 1) (k + 1)
      ((Config.freeElement k).setWidth 16 :: rest.1, rest.2)

/-- FifoPop (R132): the oldest `min n AVAIL` elements. -/
def fifoPop (n : Nat) (s : State) : List Sample × State :=
  let m := min n s.csb.avail
  let out := loadSamples s.derived.cap s.csb.store m s.csb.rptr s.draws
  (out.1,
    { s with
      csb := { s.csb with rptr := (s.csb.rptr + m) % s.derived.cap, avail := s.csb.avail - m }
      draws := out.2 })

/-- The rule of FIFO_PUSH (R136). -/
def ruleFifoPush (n : Nat) (s : State) : CmdEnd :=
  if n > s.derived.cap then .raise .pushTooLarge s.derived.cap
  else
    let r := readSamples n (elemAddr .pushBuf 0) s
    .ok n (fifoPush r.1 r.2)

/-- The rule of FIFO_POP (R137). -/
def ruleFifoPop (n : Nat) (s : State) : CmdEnd :=
  let r := fifoPop n s
  .ok r.1.length
    { r.2 with mem := r.2.mem.storeElems (elemAddr .popBuf 0) 2 (r.1.map BitVec.toNat) }

/-- FIFO_PUSH (R136), legal in READY only. -/
def execFifoPush (n : BitVec 32) (s : State) : Host.Outcome State Fault Refusal :=
  .next (runCommand 0x10 (onlyMode .ready) (ruleFifoPush n.toNat) s)

/-- FIFO_POP (R137), legal in READY only. -/
def execFifoPop (n : BitVec 32) (s : State) : Host.Outcome State Fault Refusal :=
  .next (runCommand 0x11 (onlyMode .ready) (ruleFifoPop n.toNat) s)

end Sys2Proof.Machine
end

