-- ==== Sys2Proof/Machine/Engine.lean ====
section
/-! DEFINITION. The Power-Spectrum Engine: the frame (R178, R179), the frequency-bin vector (R181) and the
command ENGINE_RUN (R182). -/
namespace Sys2Proof.Machine

/-- SpecNum (R179): the frame of a batch at the `k`-th draw, a free value of which the contract (a) to (d) is
known for every legal batch (`specNum_conforms`). For any other list of elements too it is finite, and exactly at the
floor when they are all zero; on a legal batch neither of these changes what the arithmetic draws. -/
def specNum (n b : Nat) (raw : List Sample) (k m : Nat) : BitVec 32 :=
  if raw.all (fun x => x == 0) then dbFloorBits else f32Finite (Config.specDraw n b raw k m)

/-- SpectrumCompute (R178): one frame into SPEC_OUT[0 .. N-1], and its count. -/
def spectrumCompute (raw : List Sample) (s : State) : State :=
  let n := s.cfg.fftN.toNat
  let v := specNum n s.cfg.fftBatch.toNat raw s.draws
  { s with
    mem := s.mem.storeElems (elemAddr .specOut 0) 4 ((List.range n).map fun m => (v m).toNat)
    counters := s.counters.addFrame
    draws := s.draws + 1 }

/-- FREQ[m] (R181): `f64(f64((m - N/2) × d) + fc)` with `d = f64(fs / N)`. -/
def freqBin (fs fc : Word) (n m : Nat) : Word :=
  f64Add (f64MulInt ((m : Int) - (n / 2 : Nat)) (f64DivNat fs n)) fc

/-- BuildFreq (R181): FREQ[0 .. N-1] from the configuration. -/
def buildFreq (s : State) : State :=
  let n := s.cfg.fftN.toNat
  { s with
    mem := s.mem.storeElems (elemAddr .freq 0) 8
      ((List.range n).map fun m => (freqBin s.cfg.sampleRate s.cfg.centerFreq n m).toNat) }

/-- The rule of ENGINE_RUN (R182). -/
def ruleEngineRun (s : State) : CmdEnd :=
  if s.csb.avail < s.derived.nraw then .raise .insufficientData s.csb.avail
  else
    let r := fifoPop s.derived.nraw s
    .ok s.derived.nraw (spectrumCompute r.1 r.2)

/-- ENGINE_RUN (R182), legal in READY only. -/
def execEngineRun (s : State) : Host.Outcome State Fault Refusal :=
  .next (runCommand 0x20 (onlyMode .ready) ruleEngineRun s)

end Sys2Proof.Machine
end

