-- ==== Sys2Proof/Machine/Control.lean ====
section
/-! DEFINITION. The control commands NOP, INIT, START, STOP, DEINIT and CLR_ERR (R107 to R113) and INIT's
configuration checks (R109). -/
namespace Sys2Proof.Machine

/-- The checks of INIT in the table's order (R109), each as whether it holds. Arithmetic is exact. -/
def initChecks (r : CfgRegs) : List Bool :=
  let hdr := r.headerSz.toNat
  let pack := r.packSz.toNat
  let n := r.fftN.toNat
  let b := r.fftBatch.toNat
  let mult := r.capMult.toNat
  [ decide (hdr = 8),
    decide (hdr < pack),
    decide (pack ≤ Config.packSzMax),
    decide (((pack : Int) - hdr) % 2 = 0),
    decide (2 ≤ n) && decide (n % 2 = 0),
    decide (n ≤ Config.fftNMax),
    decide (1 ≤ b),
    decide (1 ≤ mult),
    decide (n * mult ≤ Config.capMax),
    decide (2 * n * b ≤ n * mult),
    decide (((pack : Int) - hdr) / 2 ≤ (n * mult : Nat)),
    f64IsFinite r.sampleRate && !f64Sign r.sampleRate && decide (r.sampleRate.extractLsb' 0 63 ≠ 0),
    f64IsFinite r.centerFreq ]

/-- The number, counting from `k`, of the first check that does not hold; 0 when every one does. -/
def firstFalse (k : Nat) : List Bool → Nat
  | [] => 0
  | c :: cs => if c then firstFalse (k + 1) cs else k

/-- FirstFailingCheck (R109): the number of the first check that fails, 0 when every one holds. -/
def firstFailingCheck (r : CfgRegs) : Nat := firstFalse 1 (initChecks r)

/-- C, NRAW and PELEM as INIT derives them (R32, R108). -/
def derivedOf (r : CfgRegs) : DerivedRegs where
  cap := r.fftN.toNat * r.capMult.toNat
  nraw := 2 * r.fftN.toNat * r.fftBatch.toNat
  pelem := (r.packSz.toNat - r.headerSz.toNat) / 2

/-- The rule of NOP (R107). -/
def ruleNop (s : State) : CmdEnd := .ok 0 s

/-- The rule of INIT (R108). -/
def ruleInit (s : State) : CmdEnd :=
  let k := firstFailingCheck s.cfg
  if k ≠ 0 then .raise .configInvalid k
  else .ok 0 { buildFreq (clearRun { s with derived := derivedOf s.cfg }) with mode := .ready }

/-- The rule of START (R110). -/
def ruleStart (s : State) : CmdEnd := .ok 0 { s with mode := .run }

/-- The rule of STOP (R111). -/
def ruleStop (s : State) : CmdEnd := .ok 0 { s with mode := .ready }

/-- The rule of DEINIT (R112). -/
def ruleDeinit (s : State) : CmdEnd := .ok 0 { clearRun { s with derived := .zero } with mode := .idle }

/-- The rule of CLR_ERR (R113). -/
def ruleClrErr (s : State) : CmdEnd := .ok 0 { s with err := .clear }

/-- NOP (R107), legal in every mode. -/
def execNop (s : State) : Host.Outcome State Fault Refusal :=
  .next (runCommand 0x00 anyMode ruleNop s)

/-- INIT (R108), legal in IDLE only. -/
def execInit (s : State) : Host.Outcome State Fault Refusal :=
  .next (runCommand 0x01 (onlyMode .idle) ruleInit s)

/-- START (R110), legal in READY only. -/
def execStart (s : State) : Host.Outcome State Fault Refusal :=
  .next (runCommand 0x02 (onlyMode .ready) ruleStart s)

/-- STOP (R111), legal in RUN only. -/
def execStop (s : State) : Host.Outcome State Fault Refusal :=
  .next (runCommand 0x03 (onlyMode .run) ruleStop s)

/-- DEINIT (R112), legal in every mode. -/
def execDeinit (s : State) : Host.Outcome State Fault Refusal :=
  .next (runCommand 0x04 anyMode ruleDeinit s)

/-- CLR_ERR (R113), legal in every mode. -/
def execClrErr (s : State) : Host.Outcome State Fault Refusal :=
  .next (runCommand 0x05 anyMode ruleClrErr s)

end Sys2Proof.Machine
end

