-- ==== Sys2Proof/Machine/HostAccess.lean ====
section
/-! DEFINITION. The host's bus transactions (R100 to R105), the write of CMD (R106), and what the block does
with an operation that is no row of the opcode table (R85, R151, R193). -/
namespace Sys2Proof.Machine

/-- A legal opcode with its operand, run by its rule (R106). -/
def runOpcode (o : Opcode) (n : BitVec 32) (s : State) : Host.Outcome State Fault Refusal :=
  match o with
  | .nop => execNop s
  | .init => execInit s
  | .start => execStart s
  | .stop => execStop s
  | .deinit => execDeinit s
  | .clrErr => execClrErr s
  | .fifoPush => execFifoPush n s
  | .fifoPop => execFifoPop n s
  | .engineRun => execEngineRun s

/-- What the block does with an operation the decoder rejects: a bus error (R193), a command that fails
with ILLEGAL_OPCODE or RESERVED_FIELD (R85, R106), a dropped RX event (R151). Bytes that are no RX event
(R86) are refused. -/
def performReject (r : Reject) (s : State) : Host.Outcome State Fault Refusal :=
  match r with
  | .unmapped => .next (busfault s)
  | .wrongSize => .next (busfault s)
  | .misaligned => .next (busfault s)
  | .readOnlyArray => .next (busfault s)
  | .illegalOpcode opc => .next (recordStatus opc .illegalOpcode 0 s)
  | .reservedField opc => .next (recordStatus opc .reservedField 0 s)
  | .reservedKind => .next s
  | .rxFraming => .refused .rxFraming

/-- Exec(w): what a write of `w` to CMD does (R106). -/
def execCommandWord (w : Word) (s : State) : Host.Outcome State Fault Refusal :=
  match checkCmd w with
  | .error r => performReject r s
  | .ok (o, n) => runOpcode o n s

/-- HOST_REG_READ (R100). -/
def execHostRegRead (off : BitVec 9) (s : State) : Host.Outcome State Fault Refusal :=
  match regAt off.toNat with
  | none => .next (busfault s)
  | some r => .next (respondRead (r.read s) s)

/-- A write of the register at an offset (R101): CMD executes a command, a configuration register is
written in IDLE only, every other register is read-only. -/
def writeReg (r : Reg) (v : Word) (s : State) : Host.Outcome State Fault Refusal :=
  match r with
  | .cmd => execCommandWord v s
  | .cfg c =>
    if s.mode = .idle then .next (respondWrite { s with cfg := c.write v s.cfg })
    else .next (busfault s)
  | _ => .next (busfault s)

/-- HOST_REG_WRITE (R101). -/
def execHostRegWrite (off : BitVec 9) (v : Word) (s : State) : Host.Outcome State Fault Refusal :=
  match regAt off.toNat with
  | none => .next (busfault s)
  | some r => writeReg r v s

/-- PUSHBUF_WRITE (R102). -/
def execPushbufWrite (i : BitVec 27) (v : Sample) (s : State) : Host.Outcome State Fault Refusal :=
  .next (writeArray .pushBuf i.toNat v.toNat s)

/-- PUSHBUF_READ (R102). -/
def execPushbufRead (i : BitVec 27) (s : State) : Host.Outcome State Fault Refusal :=
  .next (readArray .pushBuf i.toNat s)

/-- POPBUF_READ (R103). -/
def execPopbufRead (i : BitVec 27) (s : State) : Host.Outcome State Fault Refusal :=
  .next (readArray .popBuf i.toNat s)

/-- SPEC_READ (R104). -/
def execSpecRead (i : BitVec 26) (s : State) : Host.Outcome State Fault Refusal :=
  .next (readArray .specOut i.toNat s)

/-- FREQ_READ (R105). -/
def execFreqRead (i : BitVec 25) (s : State) : Host.Outcome State Fault Refusal :=
  .next (readArray .freq i.toNat s)

end Sys2Proof.Machine
end

