-- ==== Sys2Proof/Machine/Ingest.lean ====
section
/-! DEFINITION. The packet parser, gap detector and ingestion loop: the RX events (R150 to R162). -/
namespace Sys2Proof.Machine

/-- `Le`, the bytes of a datagram the block reads (R153). -/
def effectiveLen (d : List Byte) (s : State) : Nat := min d.length s.cfg.packSz.toNat

/-- Whether a datagram is discarded: shorter than the header, or an odd payload (R154, R155). -/
def isMalformed (d : List Byte) (s : State) : Bool :=
  decide (effectiveLen d s < s.cfg.headerSz.toNat) ||
    decide ((effectiveLen d s - s.cfg.headerSz.toNat) % 2 ≠ 0)

/-- The payload samples of an accepted datagram (R159). -/
def payload (d : List Byte) (s : State) : List Sample := samplesOf ((d.take (effectiveLen d s)).drop 8)

/-- The trigger (R161): a frame from exactly NRAW elements when AVAIL equals NRAW. -/
def trigger (s : State) : State :=
  if s.csb.avail = s.derived.nraw then
    let r := fifoPop s.derived.nraw s
    spectrumCompute r.1 r.2
  else s

/-- An accepted datagram (R156 to R161): gap detection, the new previous number, the push, the trigger. -/
def acceptDatagram (d : List Byte) (s : State) : State :=
  let cur := parseSeq d
  trigger (fifoPush (payload d s) { s with counters := gapDetect s.seq cur s.counters, seq := ⟨cur, true⟩ })

/-- One iteration of the ingestion loop (R162). -/
def ingest (d : List Byte) (s : State) : State :=
  if s.mode ≠ .run then s
  else if isMalformed d s then { s with counters := s.counters.addMalformed }
  else acceptDatagram d s

/-- RX_DATAGRAM (R162). -/
def execRxDatagram (d : List Byte) (s : State) : Host.Outcome State Fault Refusal := .next (ingest d s)

/-- RX_TIMEOUT (R152): no state changes, in any mode. -/
def execRxTimeout (s : State) : Host.Outcome State Fault Refusal := .next s

end Sys2Proof.Machine
end

