-- ==== Sys2Proof/Machine/Dispatch.lean ====
section
/-! DEFINITION. One arm per instruction. -/
namespace Sys2Proof.Machine

def exec (i : Instr) (s : State) : Host.Outcome State Fault Refusal :=
  match i with
  | .nop => Sys2Proof.Machine.execNop s
  | .init => Sys2Proof.Machine.execInit s
  | .start => Sys2Proof.Machine.execStart s
  | .stop => Sys2Proof.Machine.execStop s
  | .deinit => Sys2Proof.Machine.execDeinit s
  | .clrErr => Sys2Proof.Machine.execClrErr s
  | .fifoPush n => Sys2Proof.Machine.execFifoPush n s
  | .fifoPop n => Sys2Proof.Machine.execFifoPop n s
  | .engineRun => Sys2Proof.Machine.execEngineRun s
  | .rxDatagram d => Sys2Proof.Machine.execRxDatagram d s
  | .rxTimeout _ => Sys2Proof.Machine.execRxTimeout s
  | .hostRegRead off => Sys2Proof.Machine.execHostRegRead off s
  | .hostRegWrite off v => Sys2Proof.Machine.execHostRegWrite off v s
  | .pushbufWrite k v => Sys2Proof.Machine.execPushbufWrite k v s
  | .pushbufRead k => Sys2Proof.Machine.execPushbufRead k s
  | .popbufRead k => Sys2Proof.Machine.execPopbufRead k s
  | .specRead k => Sys2Proof.Machine.execSpecRead k s
  | .freqRead k => Sys2Proof.Machine.execFreqRead k s

end Sys2Proof.Machine
end

