-- ==== Sys2Proof/Machine/Fetch.lean ====
section
/-! DEFINITION. Which action SEQ performs next (R4), and the performance of one operation. -/
namespace Sys2Proof.Machine

/-- What SEQ takes up next: nothing (no agent is to move); nothing from the agent whose turn it is, which
has nothing to issue; a hardware reset; or an operation. Each carries the state with its turn, and its
operation, taken off the streams. -/
inductive Fetched where
  | none
  | skip (s : State)
  | reset (s : State)
  | op (o : Operation) (s : State)
  deriving DecidableEq, Repr

/-- SEQ's next action: the first turn of `order`, and the first operation of that agent's stream. Each
stream keeps its own order, and `order` is the interleaving (R4, R70). -/
def fetch (s : State) : Fetched :=
  match s.order with
  | [] => .none
  | .reset :: rest => .reset { s with order := rest }
  | .host :: rest =>
    match s.hostStream with
    | [] => .skip { s with order := rest }
    | t :: ts => .op (.bus t) { s with order := rest, hostStream := ts }
  | .rxport :: rest =>
    match s.rxStream with
    | [] => .skip { s with order := rest }
    | a :: as => .op (.rx a) { s with order := rest, rxStream := as }

/-- One operation as one atomic action (R68): the instruction it decodes to, or what the block does with
one that is no instruction. -/
def perform (o : Operation) (s : State) : Host.Outcome State Fault Refusal :=
  match decode o with
  | .ok i => exec i s
  | .error r => performReject r s

/-- The state with an operation placed as the very next action of SEQ. -/
def placeNext (o : Operation) (s : State) : State :=
  match o with
  | .bus t => { s with order := .host :: s.order, hostStream := t :: s.hostStream }
  | .rx a => { s with order := .rxport :: s.order, rxStream := a :: s.rxStream }

end Sys2Proof.Machine
end

