-- ==== Sys2Proof/Machine/Step.lean ====
section
/-! DEFINITION. One action of SEQ, and the placing of an opcode-table word as its next operation. -/
namespace Sys2Proof.Machine

/-- One step: the next atomic action of the total order (R4). With no agent to move, nothing changes
(R206). -/
def step (s : State) : Host.Outcome State Fault Refusal :=
  match fetch s with
  | .none => .next s
  | .skip t => .next t
  | .reset t => .next (hardwareReset t)
  | .op o t => perform o t

/-- The state in which the operation of an opcode-table word is the next one SEQ performs; HOST issues a
command or a bus transaction, RXPORT an RX event. -/
def State.withFetchWord (s : State) (nbits w : Nat) : State :=
  match tableOperation nbits w with
  | none => s
  | some o => placeNext o s

end Sys2Proof.Machine
end

