-- ==== Sys2Proof/Safety.lean ====
section
/-! DEFINITION. The terms that claims about the machine use: what an array element or the queue holds, the
invariants of R33 to R37 and R46 to R49, the range of a frame (R180), the checks of R109 and the bus errors of R193 as
the rules list them. -/
namespace Sys2Proof.Machine

/-! ### What the arrays and the buffer hold -/

/-- Element `i` of a bus array; `none` where it is unspecified (R10). -/
def State.element (s : State) (w : Window) (i : Nat) : Option Nat :=
  s.mem.load (elemAddr w i) w.elemSize.bytes

/-- The queue content Q of the CSB, oldest first (R130). -/
def State.queue (s : State) : List (Option Sample) :=
  (List.range s.csb.avail).map fun k => Cells.lookup s.csb.store ((s.csb.rptr + k) % s.derived.cap)

/-- The last `c` elements of a list; all of it when it has no more. -/
def lastElems {α : Type} (c : Nat) (l : List α) : List α := l.drop (l.length - c)

/-- The bus's answer to a performed read of `v`; a performed write answers with data 0. -/
def answer (v : Word) : Option BusResponse := some ⟨false, v⟩

/-- The bus's error response (R193). -/
def errorAnswer : Option BusResponse := some ⟨true, 0⟩

/-! ### Datagrams -/

/-- Sample `j` of a datagram's payload, `{d[9 + 2j], d[8 + 2j]}` (R159). -/
def wireSample (d : List Byte) (j : Nat) : Sample := d.getD (9 + 2 * j) 0 ++ d.getD (8 + 2 * j) 0

/-- The samples of a datagram of effective length `le` (R159). -/
def wireSamples (d : List Byte) (le : Nat) : List Sample := (List.range ((le - 8) / 2)).map (wireSample d)

/-- The sequence number of a datagram, `Σ d[k] × 256^k` over its first 8 bytes (R65, R156). -/
def wireSeq (d : List Byte) : Nat := ∑ k ∈ Finset.range 8, (d.getD k 0).toNat * 256 ^ k

/-- Datagrams delivered one after the other with no other action between them. -/
def deliver : List (List Byte) → State → Host.Outcome State Fault Refusal
  | [], s => .next s
  | d :: ds, s =>
    match exec (.rxDatagram d) s with
    | .next t => deliver ds t
    | .fault e => .fault e
    | .refused e => .refused e

/-! ### Invariants -/

/-- The cursors of the CSB for a capacity `c` (R37). -/
def Csb.cursorsOk (b : Csb) (c : Nat) : Prop :=
  b.avail ≤ c ∧ b.wptr < c ∧ b.rptr < c ∧ b.wptr = (b.rptr + b.avail) % c

/-- Every unread element has been written since INIT (R33). -/
def Csb.unreadWritten (b : Csb) (c : Nat) : Prop :=
  ∀ k < b.avail, (Cells.lookup b.store ((b.rptr + k) % c)).isSome = true

/-- Outside IDLE the configuration passes INIT's checks, the derived registers are those of R32, and the
buffer is as R33 and R37 say; in IDLE all of them, the sequence state and the counters are 0. -/
structure State.CsbInv (s : State) : Prop where
  idle : s.mode = .idle →
    s.derived = .zero ∧ s.csb = .empty ∧ s.seq = .zero ∧ s.counters = .zero
  checked : s.mode ≠ .idle → firstFailingCheck s.cfg = 0
  derived : s.mode ≠ .idle → s.derived = derivedOf s.cfg
  cursors : s.mode ≠ .idle → s.csb.cursorsOk s.derived.cap
  written : s.mode ≠ .idle → s.csb.unreadWritten s.derived.cap
  canonical : Cells.wf s.csb.store = true
  inRange : ∀ x ∈ s.csb.store, x.1 < s.derived.cap

/-- Every listed byte of the memory belongs to an element of a bus array in range (R61, R63), all of whose
bytes are listed: an element is specified or unspecified as a whole. -/
def Memory.wholeElements (m : Memory) : Prop :=
  ∀ x ∈ m, ∃ w i, w ≠ Window.regs ∧ i < windowLen w ∧ elemAddr w i ≤ x.1 ∧
    x.1 < elemAddr w i + w.elemSize.bytes ∧ (m.load (elemAddr w i) w.elemSize.bytes).isSome = true

/-- The memory is canonical and holds whole elements; SPEC_OUT[i] is specified exactly when i < N outside
IDLE once a frame exists (R46), FREQ[i] exactly when i < N outside IDLE (R47). -/
structure State.MemInv (s : State) : Prop where
  canonical : Memory.wf s.mem = true
  whole : s.mem.wholeElements
  spec : ∀ i < Config.fftNMax, (s.element .specOut i).isSome = true ↔
    s.mode ≠ .idle ∧ s.counters.frames ≠ 0 ∧ i < s.cfg.fftN.toNat
  freq : ∀ i < Config.fftNMax, (s.element .freq i).isSome = true ↔
    s.mode ≠ .idle ∧ i < s.cfg.fftN.toNat

/-- The invariant of every reachable state. -/
def State.Inv (s : State) : Prop := s.CsbInv ∧ s.MemInv

/-- A value an element of a frame can have: a finite binary32 from DB_FLOOR - SPEC_TOL_DB to SPEC_TOL_DB (R179 (a),
R180). -/
def FrameValue (v : BitVec 32) : Prop :=
  f32IsFinite v = true ∧ dbFloor - Config.specTolDb ≤ f32Value v ∧ f32Value v ≤ Config.specTolDb

/-- Every specified element of SPEC_OUT is a value a frame can have (R46, R180). -/
def State.SpecInRange (s : State) : Prop :=
  ∀ i < Config.fftNMax, ∀ v, s.element .specOut i = some v → FrameValue (BitVec.ofNat 32 v)

/-- RXPORT's events are framed as R86 says: the bytes after a descriptor are LEN for a datagram, none for a
timeout. -/
def rxFramed (a : RxArrival) : Prop :=
  (rxKind a.desc = 0x00 → a.bytes.length = (rxLen a.desc).toNat) ∧ (rxKind a.desc = 0x01 → a.bytes = [])

/-! ### The checks of INIT, one by one (R109) -/

/-- What check `k` requires, 1 to 13, in the table's own words. -/
def InitCheck (r : CfgRegs) (k : Nat) : Prop :=
  match k with
  | 1 => r.headerSz = 8
  | 2 => r.headerSz.toNat < r.packSz.toNat
  | 3 => r.packSz.toNat ≤ Config.packSzMax
  | 4 => ((r.packSz.toNat : Int) - r.headerSz.toNat) % 2 = 0
  | 5 => 2 ≤ r.fftN.toNat ∧ r.fftN.toNat % 2 = 0
  | 6 => r.fftN.toNat ≤ Config.fftNMax
  | 7 => 1 ≤ r.fftBatch.toNat
  | 8 => 1 ≤ r.capMult.toNat
  | 9 => r.fftN.toNat * r.capMult.toNat ≤ Config.capMax
  | 10 => 2 * r.fftN.toNat * r.fftBatch.toNat ≤ r.fftN.toNat * r.capMult.toNat
  | 11 => ((r.packSz.toNat : Int) - r.headerSz.toNat) / 2 ≤ (r.fftN.toNat * r.capMult.toNat : Nat)
  | 12 => r.sampleRate.extractLsb' 52 11 ≠ 0x7FF ∧ r.sampleRate.getLsbD 63 = false ∧
      r.sampleRate.extractLsb' 0 63 ≠ 0
  | 13 => r.centerFreq.extractLsb' 52 11 ≠ 0x7FF
  | _ => True

/-! ### Bus errors, one by one (R193) -/

/-- The offsets of the registers that R22 lists. -/
def registerOffsets : List Nat :=
  [0x000, 0x008, 0x010, 0x018, 0x020, 0x040, 0x048, 0x050, 0x058, 0x060, 0x068, 0x070, 0x078, 0x080,
    0x0A0, 0x0A8, 0x0B0, 0x0B8, 0x0C0, 0x0C8, 0x0D0, 0x0D8, 0x0E0, 0x0E8, 0x0F0, 0x0F8, 0x100, 0x108]

/-- The offsets of the configuration registers, RW-IDLE (R22). -/
def configOffsets : List Nat := [0x040, 0x048, 0x050, 0x058, 0x060, 0x068, 0x070, 0x078, 0x080]

/-- Whether the address lies below 0x200 or in an array window (R61). -/
def mapped (a : Nat) : Prop := a < 0x200 ∨ (0x10000000 ≤ a ∧ a < 0x50000000)

/-- The element size at a mapped address (R61). -/
def sizeAt (a : Nat) : Nat :=
  if a < 0x10000000 then 8
  else if a < 0x30000000 then 2
  else if a < 0x40000000 then 4
  else 8

/-- The first address beyond the elements of the array window of `a` (R61, R63). -/
def endOfArray (a : Nat) : Nat :=
  if a < 0x20000000 then 0x10000000 + 2 * Config.capMax
  else if a < 0x30000000 then 0x20000000 + 2 * Config.capMax
  else if a < 0x40000000 then 0x30000000 + 4 * Config.fftNMax
  else 0x40000000 + 8 * Config.fftNMax

/-- The conditions under which a host transaction is a bus error, as R193 lists them. -/
def BusError (s : State) (t : BusTxn) : Prop :=
  ¬ mapped t.addr.toNat ∨
  t.size.bytes ≠ sizeAt t.addr.toNat ∨
  t.addr.toNat % t.size.bytes ≠ 0 ∨
  (0x10000000 ≤ t.addr.toNat ∧ endOfArray t.addr.toNat ≤ t.addr.toNat) ∨
  (t.addr.toNat < 0x200 ∧ t.addr.toNat ∉ registerOffsets) ∨
  (∃ a n v, t = .write a n v ∧
    ((a.toNat < 0x200 ∧ a.toNat ≠ 0 ∧ a.toNat ∉ configOffsets) ∨ 0x20000000 ≤ a.toNat)) ∨
  (∃ a n v, t = .write a n v ∧ a.toNat ∈ configOffsets ∧ s.mode ≠ .idle)

/-- The state with the registers for RXPORT at other values (R30, R31). -/
def State.withPorts (s : State) (port timeout : Word) : State :=
  { s with cfg := { s.cfg with listenPort := port, rxTimeoutMs := timeout } }

/-! ### Kinds of instruction -/

/-- The instructions that are commands (R84). -/
def IsCommand : Instr → Prop
  | .nop => True
  | .init => True
  | .start => True
  | .stop => True
  | .deinit => True
  | .clrErr => True
  | .fifoPush _ => True
  | .fifoPop _ => True
  | .engineRun => True
  | .rxDatagram _ => False
  | .rxTimeout _ => False
  | .hostRegRead _ => False
  | .hostRegWrite _ _ => False
  | .pushbufWrite _ _ => False
  | .pushbufRead _ => False
  | .popbufRead _ => False
  | .specRead _ => False
  | .freqRead _ => False

/-- The host reads (R100 to R105). -/
def IsRead : Instr → Prop
  | .hostRegRead _ => True
  | .pushbufRead _ => True
  | .popbufRead _ => True
  | .specRead _ => True
  | .freqRead _ => True
  | .nop => False
  | .init => False
  | .start => False
  | .stop => False
  | .deinit => False
  | .clrErr => False
  | .fifoPush _ => False
  | .fifoPop _ => False
  | .engineRun => False
  | .rxDatagram _ => False
  | .rxTimeout _ => False
  | .hostRegWrite _ _ => False
  | .pushbufWrite _ _ => False

end Sys2Proof.Machine
end

