-- ==== Sys2Proof/Certificates/Slice0/Obligations.lean ====
section
/-! DEFINITION. The statements for the provers, one `def Obligations.<Name> : Prop` each, from the numbered
rules of spec/. -/
open Sys2Proof Sys2Proof.Machine

/-! ## Encoding -/

/-- Decoding what the encoder writes gives the instruction back, for every well-formed instruction. -/
def Obligations.DecodeOfEncode : Prop :=
  ∀ i : Instr, i.wellFormed = true → decode (encode i) = .ok i

/-- Each operation has one meaning: an operation that decodes to an instruction is that instruction's
encoding, and the instruction is well-formed. -/
def Obligations.EncodeOfDecode : Prop :=
  ∀ (o : Operation) (i : Instr), o.wellFormed = true → decode o = .ok i →
    encode i = o ∧ i.wellFormed = true

/-- Words written out from the encodings of R82, R86 and R61 decode to the operations they stand for. -/
def Obligations.WrittenWordsDecode : Prop :=
  decode (.bus (.write 0 .b8 0x0000000000100010)) = .ok (.fifoPush 16) ∧
  decode (.bus (.write 0 .b8 0x0000FFFFFFFF0011)) = .ok (.fifoPop 0xFFFFFFFF) ∧
  decode (.bus (.write 0 .b8 0x0000000000000020)) = .ok .engineRun ∧
  decode (.rx ⟨0x00000002, [0xAB, 0xCD]⟩) = .ok (.rxDatagram [0xAB, 0xCD]) ∧
  decode (.rx ⟨0x01FFFFFF, []⟩) = .ok (.rxTimeout 0xFFFFFF) ∧
  decode (.bus (.read 0x000000F8 .b8)) = .ok (.hostRegRead 0x0F8) ∧
  decode (.bus (.write 0x10000006 .b2 0xFFFF)) = .ok (.pushbufWrite 3 0xFFFF) ∧
  decode (.bus (.read 0x40000010 .b8)) = .ok (.freqRead 2)

/-- R85: a CMD write whose OPC is not in R84 fails with ILLEGAL_OPCODE whatever its other bits; one whose OPC
is in R84 but which does not match that row's fully legal word fails with RESERVED_FIELD. Neither changes any
state but CMD_STATUS, RESULT and ERR.CMD (the write's answer is the bus's). -/
def Obligations.IllegalCommandWordsFail : Prop :=
  ∀ (w : Word) (s : State),
    (cmdOpc w ∉ [0x00#8, 0x01#8, 0x02#8, 0x03#8, 0x04#8, 0x05#8, 0x10#8, 0x11#8, 0x20#8] →
      perform (.bus (.write 0 .b8 w)) s =
        .next { s with
          cmd := ⟨cmdOpc w, .illegalOpcode, 0⟩, err := { s.err with cmd := true }, response := answer 0 }) ∧
    (cmdOpc w ∈ [0x00#8, 0x01#8, 0x02#8, 0x03#8, 0x04#8, 0x05#8, 0x20#8] → w ≠ (cmdOpc w).setWidth 64 →
      perform (.bus (.write 0 .b8 w)) s =
        .next { s with
          cmd := ⟨cmdOpc w, .reservedField, 0⟩, err := { s.err with cmd := true }, response := answer 0 }) ∧
    (cmdOpc w ∈ [0x10#8, 0x11#8] → w &&& 0xFFFF00000000FFFF ≠ (cmdOpc w).setWidth 64 →
      perform (.bus (.write 0 .b8 w)) s =
        .next { s with
          cmd := ⟨cmdOpc w, .reservedField, 0⟩, err := { s.err with cmd := true }, response := answer 0 })

/-! ## Control commands -/

/-- R107: NOP, in every mode, changes nothing beyond the recording; its word with any other bit set fails
with RESERVED_FIELD. -/
def Obligations.NopOnlyRecords : Prop :=
  decode (.bus (.write 0 .b8 0)) = .ok .nop ∧
  (∀ s : State, exec .nop s = .next { s with cmd := ⟨0x00, .ok, 0⟩, response := answer 0 }) ∧
  (∀ (w : Word) (s : State), cmdOpc w = 0x00 → w ≠ 0 →
    perform (.bus (.write 0 .b8 w)) s =
      .next { s with
        cmd := ⟨0x00, .reservedField, 0⟩, err := { s.err with cmd := true }, response := answer 0 })

/-- R109: the number INIT reports is that of the first check, in the table's order, that does not hold, and 0
when every check holds. -/
def Obligations.FirstFailingCheckIsFirst : Prop :=
  ∀ r : CfgRegs,
    (firstFailingCheck r = 0 ↔ ∀ k, 1 ≤ k → k ≤ 13 → InitCheck r k) ∧
    (∀ k, 1 ≤ k → k ≤ 13 →
      (firstFailingCheck r = k ↔ ¬ InitCheck r k ∧ ∀ j, 1 ≤ j → j < k → InitCheck r j))

/-- R108: INIT in IDLE with every check passing constructs the buffer, clears the sequence state and the
counters, makes SPEC_OUT unspecified, builds FREQ and enters READY; with a failing check it fails with
CONFIG_INVALID and that check's number; in READY and RUN with ILLEGAL_STATE. It touches neither PUSH_BUF, POP_BUF
and the configuration registers, nor, when it succeeds, ERR. -/
def Obligations.InitConstructsBuffer : Prop :=
  decode (.bus (.write 0 .b8 0x01)) = .ok .init ∧
  (∀ s : State, s.mode = .idle → firstFailingCheck s.cfg = 0 →
    ∃ m : Memory,
      exec .init s = .next { s with
        mode := .ready
        derived := ⟨s.cfg.fftN.toNat * s.cfg.capMult.toNat, 2 * s.cfg.fftN.toNat * s.cfg.fftBatch.toNat,
          (s.cfg.packSz.toNat - s.cfg.headerSz.toNat) / 2⟩
        csb := ⟨[], 0, 0, 0⟩
        seq := ⟨0, false⟩
        counters := ⟨0, 0, 0, 0, 0, 0⟩
        mem := m
        cmd := ⟨0x01, .ok, 0⟩
        response := answer 0 } ∧
      (∀ i < Config.fftNMax, m.load (0x30000000 + 4 * i) 4 = none) ∧
      (∀ i < s.cfg.fftN.toNat, m.load (0x40000000 + 8 * i) 8 =
        some (freqBin s.cfg.sampleRate s.cfg.centerFreq s.cfg.fftN.toNat i).toNat) ∧
      (∀ i < Config.fftNMax, s.cfg.fftN.toNat ≤ i → m.load (0x40000000 + 8 * i) 8 = none) ∧
      (∀ a, a < 0x30000000 ∨ 0x50000000 ≤ a → m.byte a = s.mem.byte a)) ∧
  (∀ s : State, s.mode = .idle → firstFailingCheck s.cfg ≠ 0 →
    exec .init s = .next { s with
      cmd := ⟨0x01, .configInvalid, BitVec.ofNat 64 (firstFailingCheck s.cfg)⟩
      err := { s.err with cmd := true, cfg := true }
      response := answer 0 }) ∧
  (∀ s : State, s.mode ≠ .idle →
    exec .init s = .next { s with
      cmd := ⟨0x01, .illegalState, 0⟩, err := { s.err with cmd := true }, response := answer 0 })

/-- R110: START in READY enters RUN and clears nothing; elsewhere it fails with ILLEGAL_STATE. -/
def Obligations.StartEntersRun : Prop :=
  decode (.bus (.write 0 .b8 0x02)) = .ok .start ∧
  (∀ s : State, s.mode = .ready →
    exec .start s = .next { s with mode := .run, cmd := ⟨0x02, .ok, 0⟩, response := answer 0 }) ∧
  (∀ s : State, s.mode ≠ .ready →
    exec .start s = .next { s with
      cmd := ⟨0x02, .illegalState, 0⟩, err := { s.err with cmd := true }, response := answer 0 })

/-- R111: STOP in RUN enters READY and keeps everything else; elsewhere it fails with ILLEGAL_STATE. A datagram
delivered after it is dropped. -/
def Obligations.StopEntersReady : Prop :=
  decode (.bus (.write 0 .b8 0x03)) = .ok .stop ∧
  (∀ s : State, s.mode = .run →
    exec .stop s = .next { s with mode := .ready, cmd := ⟨0x03, .ok, 0⟩, response := answer 0 }) ∧
  (∀ s : State, s.mode ≠ .run →
    exec .stop s = .next { s with
      cmd := ⟨0x03, .illegalState, 0⟩, err := { s.err with cmd := true }, response := answer 0 }) ∧
  (∀ (s t : State) (d : List Byte), s.mode = .run → exec .stop s = .next t →
    exec (.rxDatagram d) t = .next t)

/-- R112: DEINIT, in every mode, tears the buffer down and returns to IDLE; it keeps the configuration
registers, PUSH_BUF, POP_BUF and ERR. Its word with another bit set fails with RESERVED_FIELD. In IDLE, of a state
that meets the invariant, it changes nothing but CMD_STATUS and RESULT. -/
def Obligations.DeinitReturnsToIdle : Prop :=
  decode (.bus (.write 0 .b8 0x04)) = .ok .deinit ∧
  (∀ s : State, ∃ m : Memory,
    exec .deinit s = .next { s with
      mode := .idle
      derived := ⟨0, 0, 0⟩
      csb := ⟨[], 0, 0, 0⟩
      seq := ⟨0, false⟩
      counters := ⟨0, 0, 0, 0, 0, 0⟩
      mem := m
      cmd := ⟨0x04, .ok, 0⟩
      response := answer 0 } ∧
    (∀ a, 0x30000000 ≤ a → a < 0x50000000 → m.byte a = none) ∧
    (∀ a, a < 0x30000000 ∨ 0x50000000 ≤ a → m.byte a = s.mem.byte a)) ∧
  (∀ (w : Word) (s : State), cmdOpc w = 0x04 → w ≠ 0x04 →
    perform (.bus (.write 0 .b8 w)) s =
      .next { s with
        cmd := ⟨0x04, .reservedField, 0⟩, err := { s.err with cmd := true }, response := answer 0 }) ∧
  (∀ s : State, s.Inv → s.mode = .idle →
    exec .deinit s = .next { s with cmd := ⟨0x04, .ok, 0⟩, response := answer 0 })

/-- R113: CLR_ERR, in every mode, clears ERR and no counter; its word with another bit set fails with
RESERVED_FIELD, and then ERR is not cleared and ERR.CMD is set. -/
def Obligations.ClrErrClearsErr : Prop :=
  decode (.bus (.write 0 .b8 0x05)) = .ok .clrErr ∧
  (∀ s : State, exec .clrErr s =
    .next { s with err := ⟨false, false, false⟩, cmd := ⟨0x05, .ok, 0⟩, response := answer 0 }) ∧
  (∀ (w : Word) (s : State), cmdOpc w = 0x05 → w ≠ 0x05 →
    perform (.bus (.write 0 .b8 w)) s =
      .next { s with
        cmd := ⟨0x05, .reservedField, 0⟩, err := { s.err with cmd := true }, response := answer 0 })

/-! ## The Circular Sample Buffer -/

/-- R131: FifoPush of at most C elements writes them from the write cursor on, modulo C, and nothing else of
STORE; it advances the cursor; when they exceed the free space it moves the read cursor to the new write cursor,
fills the buffer and counts the overflow, and otherwise adds to AVAIL. -/
def Obligations.FifoPushEffect : Prop :=
  ∀ (s : State) (xs : List Sample), xs.length ≤ s.derived.cap →
    (∃ st : List (Nat × Sample),
      fifoPush xs s =
        (if s.csb.avail + xs.length > s.derived.cap then
          { s with
            csb := ⟨st, (s.csb.wptr + xs.length) % s.derived.cap, (s.csb.wptr + xs.length) % s.derived.cap,
              s.derived.cap⟩
            counters := { s.counters with
              ovfEvents := satAdd s.counters.ovfEvents 1
              ovfSamples := satAdd s.counters.ovfSamples (s.csb.avail + xs.length - s.derived.cap) } }
        else
          { s with
            csb := ⟨st, (s.csb.wptr + xs.length) % s.derived.cap, s.csb.rptr, s.csb.avail + xs.length⟩ }) ∧
      (∀ k x, xs[k]? = some x → Cells.lookup st ((s.csb.wptr + k) % s.derived.cap) = some x) ∧
      (∀ p, (∀ k < xs.length, p ≠ (s.csb.wptr + k) % s.derived.cap) →
        Cells.lookup st p = Cells.lookup s.csb.store p))

/-- R132: FifoPop returns the oldest `min n AVAIL` elements (each as STORE holds it, where it has been
written), advances the read cursor by their number, takes it from AVAIL, and leaves STORE alone. -/
def Obligations.FifoPopEffect : Prop :=
  ∀ (s : State) (n : Nat), ∃ (out : List Sample) (d : Nat),
    fifoPop n s = (out, { s with
      csb := { s.csb with
        rptr := (s.csb.rptr + min n s.csb.avail) % s.derived.cap, avail := s.csb.avail - min n s.csb.avail }
      draws := d }) ∧
    out.length = min n s.csb.avail ∧
    (∀ k < min n s.csb.avail, ∀ x,
      Cells.lookup s.csb.store ((s.csb.rptr + k) % s.derived.cap) = some x → out[k]? = some x) ∧
    (s.csb.unreadWritten s.derived.cap → d = s.draws)

/-- R135: the CSB is a bounded queue that drops its oldest elements. The queue after a push is the queue
before it followed by the pushed elements when they fit, and otherwise the last C elements of that; a pop returns the
first `min n AVAIL` elements of the queue and leaves the rest. -/
def Obligations.QueueDropsOldest : Prop :=
  (∀ (s : State) (xs : List Sample), s.csb.cursorsOk s.derived.cap → xs.length ≤ s.derived.cap →
    (fifoPush xs s).queue =
      if s.csb.avail + xs.length ≤ s.derived.cap then s.queue ++ xs.map some
      else lastElems s.derived.cap (s.queue ++ xs.map some)) ∧
  (∀ (s : State) (n : Nat), s.csb.cursorsOk s.derived.cap → s.csb.unreadWritten s.derived.cap →
    (fifoPop n s).1.map some = s.queue.take (min n s.queue.length) ∧
    (fifoPop n s).2.queue = s.queue.drop (min n s.queue.length))

/-- R136: FIFO_PUSH in READY with n ≤ C pushes the first n elements of PUSH_BUF (a draw for each that is
unspecified) and answers n; with n > C it fails with PUSH_TOO_LARGE and answers C; in IDLE and RUN it fails with
ILLEGAL_STATE; with a reserved bit set its word fails with RESERVED_FIELD. PUSH_BUF is not modified. -/
def Obligations.FifoPushCommand : Prop :=
  (∀ n : BitVec 32, decode (.bus (.write 0 .b8 (0#16 ++ n ++ 0x0010#16))) = .ok (.fifoPush n)) ∧
  (∀ (s : State) (n : BitVec 32), s.mode = .ready → n.toNat ≤ s.derived.cap →
    ∃ (xs : List Sample) (d : Nat),
      xs.length = n.toNat ∧
      (∀ k < n.toNat, ∀ v, s.mem.load (0x10000000 + 2 * k) 2 = some v → xs[k]? = some (BitVec.ofNat 16 v)) ∧
      ((∀ k < n.toNat, (s.mem.load (0x10000000 + 2 * k) 2).isSome = true) → d = s.draws) ∧
      exec (.fifoPush n) s = .next { fifoPush xs { s with draws := d } with
        cmd := ⟨0x10, .ok, n.setWidth 64⟩, response := answer 0 }) ∧
  (∀ (s : State) (n : BitVec 32), s.mode = .ready → s.derived.cap < n.toNat →
    exec (.fifoPush n) s = .next { s with
      cmd := ⟨0x10, .pushTooLarge, BitVec.ofNat 64 s.derived.cap⟩
      err := { s.err with cmd := true }
      response := answer 0 }) ∧
  (∀ (s : State) (n : BitVec 32), s.mode ≠ .ready →
    exec (.fifoPush n) s = .next { s with
      cmd := ⟨0x10, .illegalState, 0⟩, err := { s.err with cmd := true }, response := answer 0 }) ∧
  (∀ (w : Word) (s : State), cmdOpc w = 0x10 → cmdRsv0 w ≠ 0 ∨ cmdRsv1 w ≠ 0 →
    perform (.bus (.write 0 .b8 w)) s = .next { s with
      cmd := ⟨0x10, .reservedField, 0⟩, err := { s.err with cmd := true }, response := answer 0 })

/-- R137: FIFO_POP in READY pops `m = min n AVAIL` elements into POP_BUF[0 .. m-1] and answers m; POP_BUF[m ..]
and all other memory keep their values; no count is too large; in IDLE and RUN it fails with ILLEGAL_STATE; with a
reserved bit set its word fails with RESERVED_FIELD. -/
def Obligations.FifoPopCommand : Prop :=
  (∀ n : BitVec 32, decode (.bus (.write 0 .b8 (0#16 ++ n ++ 0x0011#16))) = .ok (.fifoPop n)) ∧
  (∀ (s : State) (n : BitVec 32), s.mode = .ready →
    ∃ (out : List Sample) (d : Nat) (m : Memory),
      out.length = min n.toNat s.csb.avail ∧
      (∀ k < min n.toNat s.csb.avail, ∀ x,
        Cells.lookup s.csb.store ((s.csb.rptr + k) % s.derived.cap) = some x → out[k]? = some x) ∧
      exec (.fifoPop n) s = .next { s with
        csb := { s.csb with
          rptr := (s.csb.rptr + min n.toNat s.csb.avail) % s.derived.cap
          avail := s.csb.avail - min n.toNat s.csb.avail }
        draws := d
        mem := m
        cmd := ⟨0x11, .ok, BitVec.ofNat 64 (min n.toNat s.csb.avail)⟩
        response := answer 0 } ∧
      (∀ k x, out[k]? = some x → m.load (0x20000000 + 2 * k) 2 = some x.toNat) ∧
      (∀ a, a < 0x20000000 ∨ 0x20000000 + 2 * min n.toNat s.csb.avail ≤ a → m.byte a = s.mem.byte a)) ∧
  (∀ (s : State) (n : BitVec 32), s.mode ≠ .ready →
    exec (.fifoPop n) s = .next { s with
      cmd := ⟨0x11, .illegalState, 0⟩, err := { s.err with cmd := true }, response := answer 0 }) ∧
  (∀ (w : Word) (s : State), cmdOpc w = 0x11 → cmdRsv0 w ≠ 0 ∨ cmdRsv1 w ≠ 0 →
    perform (.bus (.write 0 .b8 w)) s = .next { s with
      cmd := ⟨0x11, .reservedField, 0⟩, err := { s.err with cmd := true }, response := answer 0 })

/-! ## The Power-Spectrum Engine -/

/-- R178: SpectrumCompute writes the frame of its batch to SPEC_OUT[0 .. N-1], at the next draw, adds one to
FRAME_COUNT, and changes no other byte of memory and no other state. -/
def Obligations.SpectrumComputeEffect : Prop :=
  ∀ (s : State) (raw : List Sample), ∃ m : Memory,
    spectrumCompute raw s = { s with
      mem := m
      counters := { s.counters with frames := satAdd s.counters.frames 1 }
      draws := s.draws + 1 } ∧
    (∀ k < s.cfg.fftN.toNat, m.load (0x30000000 + 4 * k) 4 =
      some (specNum s.cfg.fftN.toNat s.cfg.fftBatch.toNat raw s.draws k).toNat) ∧
    (∀ a, a < 0x30000000 ∨ 0x30000000 + 4 * s.cfg.fftN.toNat ≤ a → m.byte a = s.mem.byte a)

/-- R182: ENGINE_RUN in READY with AVAIL ≥ NRAW pops the oldest NRAW elements, computes one frame from them
and answers NRAW, leaving AVAIL - NRAW elements; with fewer it fails with INSUFFICIENT_DATA and answers AVAIL, with
nothing popped; in IDLE and RUN it fails with ILLEGAL_STATE; with a bit outside OPC set its word fails with
RESERVED_FIELD. -/
def Obligations.EngineRunCommand : Prop :=
  decode (.bus (.write 0 .b8 0x20)) = .ok .engineRun ∧
  (∀ s : State, s.mode = .ready → s.derived.nraw ≤ s.csb.avail →
    ∃ (raw : List Sample) (d : Nat),
      raw.length = s.derived.nraw ∧
      (∀ k < s.derived.nraw, ∀ x,
        Cells.lookup s.csb.store ((s.csb.rptr + k) % s.derived.cap) = some x → raw[k]? = some x) ∧
      exec .engineRun s = .next { spectrumCompute raw { s with
          csb := { s.csb with
            rptr := (s.csb.rptr + s.derived.nraw) % s.derived.cap, avail := s.csb.avail - s.derived.nraw }
          draws := d } with
        cmd := ⟨0x20, .ok, BitVec.ofNat 64 s.derived.nraw⟩, response := answer 0 }) ∧
  (∀ s : State, s.mode = .ready → s.csb.avail < s.derived.nraw →
    exec .engineRun s = .next { s with
      cmd := ⟨0x20, .insufficientData, BitVec.ofNat 64 s.csb.avail⟩
      err := { s.err with cmd := true }
      response := answer 0 }) ∧
  (∀ s : State, s.mode ≠ .ready →
    exec .engineRun s = .next { s with
      cmd := ⟨0x20, .illegalState, 0⟩, err := { s.err with cmd := true }, response := answer 0 }) ∧
  (∀ (w : Word) (s : State), cmdOpc w = 0x20 → w ≠ 0x20 →
    perform (.bus (.write 0 .b8 w)) s = .next { s with
      cmd := ⟨0x20, .reservedField, 0⟩, err := { s.err with cmd := true }, response := answer 0 })

/-- Whatever the engine's arithmetic, every element of a frame is a finite binary32, and a frame of an all-zero list
is exactly -300.0 everywhere. On a batch of NRAW elements, outside IDLE and in a state that meets the buffer's invariant,
this is R179 (a) and (d). On any other list or state, which no run gives the engine, R179 says nothing and it is the
model's choice (notes/assumptions/9). -/
def Obligations.FrameFiniteAndExactFloor : Prop :=
  ∀ (s : State) (raw : List Sample) (k : Nat), k < s.cfg.fftN.toNat →
    ∃ v : BitVec 32, (spectrumCompute raw s).element .specOut k = some v.toNat ∧
      f32IsFinite v = true ∧ ((∀ x ∈ raw, x = 0) → v = 0xC3960000)

/-- R179: outside IDLE, in every state that meets the buffer's invariant, the frame that SPEC_OUT holds after a
batch of NRAW elements meets the numerics contract SpecNum with the implementation's SPEC_TOL_DB and SPEC_PN_MIN:
finite, within the tolerance of the exact reference at and above the threshold, in the floor band below it, and exactly
at the floor for an all-zero batch (notes/assumptions/7). -/
def Obligations.FrameMeetsContract : Prop :=
  ∀ (s : State) (raw : List Sample), s.CsbInv → s.mode ≠ .idle → raw.length = s.derived.nraw →
    FrameConforms Config.specTolDb Config.specPnMin s.cfg.fftN.toNat s.cfg.fftBatch.toNat raw
      (fun k => BitVec.ofNat 32 (((spectrumCompute raw s).element .specOut k).getD 0))

/-- R180: the reference lies between DB_FLOOR and 0 dB; it is 0 dB exactly at the DC bin of a batch whose samples
are all (-32768, -32768); and so every element of a frame lies from DB_FLOOR - SPEC_TOL_DB to SPEC_TOL_DB. -/
def Obligations.ReferenceRange : Prop :=
  (∀ (n b : Nat) (raw : List Sample) (m : Nat), 0 < n → 0 < b →
    dbFloor ≤ refFrame n b raw m ∧ refFrame n b raw m ≤ 0) ∧
  (∀ (n b : Nat) (raw : List Sample) (m : Nat), 2 ≤ n → n % 2 = 0 → 0 < b → m < n →
    (refFrame n b raw m = 0 ↔ m = n / 2 ∧ ∀ j < n * b, refZ raw j = ⟨-32768, -32768⟩)) ∧
  (∀ (s : State) (raw : List Sample) (k : Nat), s.CsbInv → s.mode ≠ .idle → raw.length = s.derived.nraw →
    k < s.cfg.fftN.toNat →
    ∃ v : BitVec 32, (spectrumCompute raw s).element .specOut k = some v.toNat ∧ FrameValue v)

/-- R183: a batch of identical windows has the reference of the single window. -/
def Obligations.IdenticalWindowsAverage : Prop :=
  ∀ (n b : Nat) (raw : List Sample) (m : Nat), 0 < b →
    (∀ w < b, ∀ t < n, refWindow n raw w t = refWindow n raw 0 t) →
    refFrame n b raw m = refFrame n 1 raw m

/-- R184: a batch whose samples all have one complex value `c` has all its energy in the DC bin, at the
centre; every other bin is at the floor. -/
def Obligations.ConstantBatchIsDc : Prop :=
  ∀ (n b : Nat) (raw : List Sample) (c : ℂ), 0 < b → 2 ≤ n → n % 2 = 0 →
    (∀ j < n * b, refZ raw j = c) →
    refFrame n b raw (n / 2) = 10 * Real.logb 10 (max (Complex.normSq c / (fsp : ℝ)) eps) ∧
    ∀ m < n, m ≠ n / 2 → refFrame n b raw m = dbFloor

/-- R185: a pure tone at bin `k0` in every window leaves only the centred index `(k0 + N/2) mod N` above the
floor, at the level of its amplitude. -/
def Obligations.PureToneHasOnePeak : Prop :=
  ∀ (n b : Nat) (raw : List Sample) (a : ℂ) (k0 : Nat), 0 < b → 2 ≤ n → n % 2 = 0 → k0 < n →
    (∀ w < b, ∀ t < n, refWindow n raw w t =
      a * Complex.exp (2 * (Real.pi : ℂ) * Complex.I * (k0 : ℂ) * (t : ℂ) / (n : ℂ))) →
    refFrame n b raw ((k0 + n / 2) % n) = 10 * Real.logb 10 (max (Complex.normSq a / (fsp : ℝ)) eps) ∧
    ∀ m < n, m ≠ (k0 + n / 2) % n → refFrame n b raw m = dbFloor

/-! ## The frequency-bin vector -/

/-- R8's `f64` for BuildFreq: an exact ratio below the overflow threshold rounds to a finite pattern of its
sign whose value no finite pattern is nearer to, with an even fraction when another is as near; one at or above the
threshold rounds to the infinity. -/
def Obligations.F64RoundsToNearestEven : Prop :=
  ∀ (neg : Bool) (num den : Nat), 0 < den →
    (num < den * ((2 ^ 54 - 1) * 2 ^ 2044) →
      f64IsFinite (f64Round neg num den) = true ∧ f64Sign (f64Round neg num den) = neg ∧
      (∀ z : Word, f64IsFinite z = true →
        |((den * f64Mag (f64Round neg num den) : Nat) : Int) - num| ≤ |((den * f64Mag z : Nat) : Int) - num|) ∧
      (∀ z : Word, f64IsFinite z = true → f64Mag z ≠ f64Mag (f64Round neg num den) →
        |((den * f64Mag (f64Round neg num den) : Nat) : Int) - num| = |((den * f64Mag z : Nat) : Int) - num| →
        f64Frac (f64Round neg num den) % 2 = 0)) ∧
    (den * ((2 ^ 54 - 1) * 2 ^ 2044) ≤ num → f64Round neg num den = f64Inf neg)

/-- R181: with a finite sample rate > 0 and a finite centre frequency, the centre bin FREQ[N/2] is the centre
frequency exactly, but that a centre frequency of -0.0 gives +0.0. -/
def Obligations.FreqCentreIsCenterFreq : Prop :=
  ∀ (fs fc : Word) (n : Nat), 2 ≤ n → n % 2 = 0 →
    f64IsFinite fs = true → f64Sign fs = false → f64Mag fs ≠ 0 → f64IsFinite fc = true →
    freqBin fs fc n (n / 2) = if fc = f64Zero true then f64Zero false else fc

/-- R181: with a finite sample rate > 0 and a finite centre frequency, no element of FREQ is a NaN. -/
def Obligations.FreqNeverNaN : Prop :=
  ∀ (fs fc : Word) (n m : Nat), 2 ≤ n → n % 2 = 0 → m < n →
    f64IsFinite fs = true → f64Sign fs = false → f64Mag fs ≠ 0 → f64IsFinite fc = true →
    f64IsNaN (freqBin fs fc n m) = false

/-! ## Packet parser, gap detector and ingestion loop -/

/-- R150: a datagram in IDLE or READY changes no state, and a timeout changes no state in any mode. -/
def Obligations.DatagramOutsideRunDropped : Prop :=
  (∀ (d : List Byte) (s : State), s.mode ≠ .run → exec (.rxDatagram d) s = .next s) ∧
  (∀ (len : BitVec 24) (s : State), exec (.rxTimeout len) s = .next s)

/-- R151: an RX descriptor with a reserved KIND is dropped in every mode and changes no state. -/
def Obligations.ReservedKindDropped : Prop :=
  ∀ (a : RxArrival) (s : State), 0x02 ≤ (rxKind a.desc).toNat → perform (.rx a) s = .next s

/-- R152: a descriptor with KIND 0x01 and no bytes is a timeout whatever its LEN, and it changes nothing, in
every mode. -/
def Obligations.TimeoutChangesNothing : Prop :=
  ∀ (desc : BitVec 32) (s : State), desc &&& 0xFF000000 = 0x01000000 →
    decode (.rx ⟨desc, []⟩) = .ok (.rxTimeout (rxLen desc)) ∧ exec (.rxTimeout (rxLen desc)) s = .next s

/-- R153: the block reads at most CFG_PACK_SZ bytes of a datagram; the rest are ignored. -/
def Obligations.DatagramTruncated : Prop :=
  ∀ (d : List Byte) (s : State), s.CsbInv →
    exec (.rxDatagram d) s = exec (.rxDatagram (d.take s.cfg.packSz.toNat)) s

/-- R154, R155: in RUN, a datagram that is shorter than CFG_HEADER_SZ after truncation, or whose payload is an
odd number of bytes, adds one to MALFORMED_COUNT and changes nothing else. -/
def Obligations.MalformedDatagramCounted : Prop :=
  ∀ (d : List Byte) (s : State), s.mode = .run →
    (min d.length s.cfg.packSz.toNat < s.cfg.headerSz.toNat ∨
      (s.cfg.headerSz.toNat ≤ min d.length s.cfg.packSz.toNat ∧
        (min d.length s.cfg.packSz.toNat - s.cfg.headerSz.toNat) % 2 ≠ 0)) →
    exec (.rxDatagram d) s =
      .next { s with counters := { s.counters with malformed := satAdd s.counters.malformed 1 } }

/-- R157: a gap is a sequence number more than one above the previous one, when there is one, as exact
integers; it adds one to GAP_EVENTS and the whole delta to LOST_EST. Any other delta counts nothing. -/
def Obligations.GapDetection : Prop :=
  ∀ (q : SeqState) (cur : Word) (c : Counters),
    (q.valid = true → q.prev.toNat + 1 < cur.toNat →
      gapDetect q cur c = { c with
        gapEvents := satAdd c.gapEvents 1, lostEst := satAdd c.lostEst (cur.toNat - q.prev.toNat) }) ∧
    (q.valid = false ∨ cur.toNat ≤ q.prev.toNat + 1 → gapDetect q cur c = c)

/-- R162 with R156 to R161: an accepted datagram in RUN, of a state that meets the invariant, updates the
gap counters and the sequence state and pushes its samples, wherever the cursors are; unless AVAIL then equals NRAW
nothing else changes, and when it does the whole queue becomes one frame. -/
def Obligations.DatagramAccepted : Prop :=
  ∀ (d : List Byte) (s : State), s.CsbInv → s.mode = .run →
    8 ≤ min d.length s.cfg.packSz.toNat → (min d.length s.cfg.packSz.toNat - 8) % 2 = 0 →
    let xs := wireSamples d (min d.length s.cfg.packSz.toNat)
    let cur := BitVec.ofNat 64 (wireSeq d)
    let s1 : State := { s with seq := ⟨cur, true⟩, counters := gapDetect s.seq cur s.counters }
    (min (s.csb.avail + xs.length) s.derived.cap ≠ s.derived.nraw →
      exec (.rxDatagram d) s = .next (fifoPush xs s1)) ∧
    (min (s.csb.avail + xs.length) s.derived.cap = s.derived.nraw →
      ∃ raw : List Sample,
        raw.map some = lastElems s.derived.cap (s.queue ++ xs.map some) ∧
        raw.length = s.derived.nraw ∧
        exec (.rxDatagram d) s = .next (spectrumCompute raw { fifoPush xs s1 with
          csb := { (fifoPush xs s1).csb with
            rptr := ((fifoPush xs s1).csb.rptr + s.derived.nraw) % s.derived.cap, avail := 0 } }))

/-- R163: from an empty buffer in RUN, NRAW / PELEM full-size datagrams, one after the other, compute one frame,
at the last of them, from their payloads in arrival order; AVAIL runs 0, PELEM, 2 × PELEM, … and back to 0, and the
buffer never overflows. The block is then in RUN with an empty buffer again, as configured and as the invariant
says, so that the next NRAW / PELEM datagrams compute the next frame. -/
def Obligations.FrameCadence : Prop :=
  ∀ (s : State) (ds : List (List Byte)), s.CsbInv → s.mode = .run → s.csb.avail = 0 →
    s.derived.nraw % s.derived.pelem = 0 → ds.length = s.derived.nraw / s.derived.pelem →
    (∀ d ∈ ds, d.length = s.cfg.packSz.toNat) →
    (∀ j < ds.length, ∃ t, deliver (ds.take j) s = .next t ∧
      t.csb.avail = j * s.derived.pelem ∧ t.counters.frames = s.counters.frames ∧ t.mem = s.mem ∧
      t.counters.ovfEvents = s.counters.ovfEvents) ∧
    ∃ t, deliver ds s = .next t ∧ t.CsbInv ∧ t.mode = .run ∧ t.cfg = s.cfg ∧ t.derived = s.derived ∧
      t.csb.avail = 0 ∧ t.counters.frames = satAdd s.counters.frames 1 ∧ t.counters.ovfEvents = s.counters.ovfEvents ∧
      t.draws = s.draws + 1 ∧
      ∀ k < s.cfg.fftN.toNat, t.element .specOut k =
        some (specNum s.cfg.fftN.toNat s.cfg.fftBatch.toNat
          (ds.map (fun d => wireSamples d s.cfg.packSz.toNat)).flatten s.draws k).toNat

/-- R216: once AVAIL exceeds NRAW in RUN, with the cursors as R37 says, it stays above NRAW, and no frame is
computed, as long as the block stays in RUN. -/
def Obligations.TriggerStall : Prop :=
  ∀ s t : State, s.csb.cursorsOk s.derived.cap → s.mode = .run → s.derived.nraw < s.csb.avail →
    step s = .next t → t.mode = .run →
    t.derived.nraw < t.csb.avail ∧ t.counters.frames = s.counters.frames

/-- R215: in RUN, an action after which FRAME_COUNT, not saturated, is what it was, has left every element of
SPEC_OUT as it was; so equal reads of FRAME_COUNT around the reads of a frame show it whole. -/
def Obligations.EqualFrameCountWholeFrame : Prop :=
  ∀ s t : State, s.mode = .run → t.mode = .run → step s = .next t →
    s.counters.frames.toNat < 2 ^ 64 - 1 → t.counters.frames = s.counters.frames →
    ∀ k < Config.fftNMax, t.element .specOut k = s.element .specOut k

/-! ## Host accesses -/

/-- R100: a read of a register of the window answers its value and changes nothing else; a read of a reserved
offset, of a size other than 8 or of an unaligned offset is a bus error. -/
def Obligations.RegisterReads : Prop :=
  (∀ s : State,
    let reads := fun (off : BitVec 9) (v : Word) => exec (.hostRegRead off) s = .next { s with response := answer v }
    reads 0x000 0 ∧
    reads 0x008 (BitVec.ofNat 64 (s.cmd.opc.toNat * 256 + s.cmd.code.toByte.toNat)) ∧
    reads 0x010 s.cmd.result ∧
    reads 0x018 (match s.mode with | .idle => 0 | .ready => 1 | .run => 2) ∧
    reads 0x020 (BitVec.ofNat 64 (s.err.bus.toNat + 2 * s.err.cmd.toNat + 4 * s.err.cfg.toNat)) ∧
    reads 0x040 s.cfg.packSz ∧ reads 0x048 s.cfg.headerSz ∧ reads 0x050 s.cfg.fftN ∧
    reads 0x058 s.cfg.fftBatch ∧ reads 0x060 s.cfg.capMult ∧ reads 0x068 s.cfg.sampleRate ∧
    reads 0x070 s.cfg.centerFreq ∧ reads 0x078 s.cfg.listenPort ∧ reads 0x080 s.cfg.rxTimeoutMs ∧
    reads 0x0A0 (BitVec.ofNat 64 s.derived.cap) ∧ reads 0x0A8 (BitVec.ofNat 64 s.csb.avail) ∧
    reads 0x0B0 (BitVec.ofNat 64 s.csb.wptr) ∧ reads 0x0B8 (BitVec.ofNat 64 s.csb.rptr) ∧
    reads 0x0C0 s.seq.prev ∧ reads 0x0C8 (BitVec.ofNat 64 s.seq.valid.toNat) ∧
    reads 0x0D0 s.counters.gapEvents ∧ reads 0x0D8 s.counters.lostEst ∧
    reads 0x0E0 s.counters.ovfEvents ∧ reads 0x0E8 s.counters.ovfSamples ∧
    reads 0x0F0 s.counters.malformed ∧ reads 0x0F8 s.counters.frames ∧
    reads 0x100 (BitVec.ofNat 64 s.derived.nraw) ∧ reads 0x108 (BitVec.ofNat 64 s.derived.pelem)) ∧
  (∀ (s : State) (off : BitVec 9), off.toNat ∉ registerOffsets →
    exec (.hostRegRead off) s =
      .next { s with err := { s.err with bus := true }, response := errorAnswer }) ∧
  (∀ (s : State) (a : Addr) (n : BusSize), a.toNat < 0x200 → n ≠ .b8 ∨ a.toNat % 8 ≠ 0 →
    perform (.bus (.read a n)) s =
      .next { s with err := { s.err with bus := true }, response := errorAnswer })

/-- R101: a write of CMD executes the word; a write of a configuration register in IDLE stores all 64 bits, and
elsewhere is a bus error; a write of a read-only register, of a reserved offset, of a size other than 8 or of an
unaligned offset is a bus error. -/
def Obligations.RegisterWrites : Prop :=
  (∀ (s : State) (w : Word), exec (.hostRegWrite 0x000 w) s = perform (.bus (.write 0 .b8 w)) s ∧
    ∀ i, decodeCmd w = .ok i → exec (.hostRegWrite 0x000 w) s = exec i s) ∧
  (∀ (s : State) (v : Word), s.mode = .idle →
    let stores := fun (off : BitVec 9) (r : CfgRegs) =>
      exec (.hostRegWrite off v) s = .next { s with cfg := r, response := answer 0 }
    stores 0x040 { s.cfg with packSz := v } ∧ stores 0x048 { s.cfg with headerSz := v } ∧
    stores 0x050 { s.cfg with fftN := v } ∧ stores 0x058 { s.cfg with fftBatch := v } ∧
    stores 0x060 { s.cfg with capMult := v } ∧ stores 0x068 { s.cfg with sampleRate := v } ∧
    stores 0x070 { s.cfg with centerFreq := v } ∧ stores 0x078 { s.cfg with listenPort := v } ∧
    stores 0x080 { s.cfg with rxTimeoutMs := v }) ∧
  (∀ (s : State) (off : BitVec 9) (v : Word),
    (off.toNat ∈ configOffsets ∧ s.mode ≠ .idle) ∨ (off.toNat ≠ 0 ∧ off.toNat ∉ configOffsets) →
    exec (.hostRegWrite off v) s =
      .next { s with err := { s.err with bus := true }, response := errorAnswer }) ∧
  (∀ (s : State) (a : Addr) (n : BusSize) (v : Word), a.toNat < 0x200 → n ≠ .b8 ∨ a.toNat % 8 ≠ 0 →
    perform (.bus (.write a n v)) s =
      .next { s with err := { s.err with bus := true }, response := errorAnswer })

/-- R102: in every mode, a write of PUSH_BUF[i] stores the sample at its two bytes and nowhere else, and a read
answers the element, or a draw where it is unspecified; an index out of range, a size other than 2 or an odd address is
a bus error. -/
def Obligations.PushBufAccess : Prop :=
  (∀ (s : State) (i : BitVec 27) (v : Sample), i.toNat < Config.capMax →
    ∃ m : Memory, exec (.pushbufWrite i v) s = .next { s with mem := m, response := answer 0 } ∧
      m.load (0x10000000 + 2 * i.toNat) 2 = some v.toNat ∧
      ∀ a, a < 0x10000000 + 2 * i.toNat ∨ 0x10000000 + 2 * i.toNat + 2 ≤ a → m.byte a = s.mem.byte a) ∧
  (∀ (s : State) (i : BitVec 27), i.toNat < Config.capMax →
    (∀ v, s.mem.load (0x10000000 + 2 * i.toNat) 2 = some v →
      exec (.pushbufRead i) s = .next { s with response := answer (BitVec.ofNat 64 v) }) ∧
    (s.mem.load (0x10000000 + 2 * i.toNat) 2 = none → ∃ v : Sample,
      exec (.pushbufRead i) s = .next { s with response := answer (v.setWidth 64), draws := s.draws + 1 })) ∧
  (∀ (s : State) (i : BitVec 27) (v : Sample), Config.capMax ≤ i.toNat →
    exec (.pushbufWrite i v) s =
      .next { s with err := { s.err with bus := true }, response := errorAnswer } ∧
    exec (.pushbufRead i) s =
      .next { s with err := { s.err with bus := true }, response := errorAnswer }) ∧
  (∀ (s : State) (a : Addr) (n : BusSize) (v : Word), 0x10000000 ≤ a.toNat → a.toNat < 0x20000000 →
    n ≠ .b2 ∨ a.toNat % 2 ≠ 0 →
    perform (.bus (.read a n)) s =
      .next { s with err := { s.err with bus := true }, response := errorAnswer } ∧
    perform (.bus (.write a n v)) s =
      .next { s with err := { s.err with bus := true }, response := errorAnswer })

/-- R103: a read of POP_BUF[i] answers the element, or a draw where it is unspecified, and changes nothing else;
any write, an index out of range, a size other than 2 or an odd address is a bus error. -/
def Obligations.PopBufReads : Prop :=
  (∀ (s : State) (i : BitVec 27), i.toNat < Config.capMax →
    (∀ v, s.mem.load (0x20000000 + 2 * i.toNat) 2 = some v →
      exec (.popbufRead i) s = .next { s with response := answer (BitVec.ofNat 64 v) }) ∧
    (s.mem.load (0x20000000 + 2 * i.toNat) 2 = none → ∃ v : Sample,
      exec (.popbufRead i) s = .next { s with response := answer (v.setWidth 64), draws := s.draws + 1 })) ∧
  (∀ (s : State) (i : BitVec 27), Config.capMax ≤ i.toNat →
    exec (.popbufRead i) s =
      .next { s with err := { s.err with bus := true }, response := errorAnswer }) ∧
  (∀ (s : State) (a : Addr) (n : BusSize) (v : Word), 0x20000000 ≤ a.toNat → a.toNat < 0x30000000 →
    (n ≠ .b2 ∨ a.toNat % 2 ≠ 0 → perform (.bus (.read a n)) s =
      .next { s with err := { s.err with bus := true }, response := errorAnswer }) ∧
    perform (.bus (.write a n v)) s =
      .next { s with err := { s.err with bus := true }, response := errorAnswer })

/-- R104: a read of SPEC_OUT[i] answers its binary32 pattern, or a draw where it is unspecified, and changes
nothing else; any write, an index out of range, a size other than 4 or an unaligned address is a bus error. -/
def Obligations.SpecOutReads : Prop :=
  (∀ (s : State) (i : BitVec 26), i.toNat < Config.fftNMax →
    (∀ v, s.mem.load (0x30000000 + 4 * i.toNat) 4 = some v →
      exec (.specRead i) s = .next { s with response := answer (BitVec.ofNat 64 v) }) ∧
    (s.mem.load (0x30000000 + 4 * i.toNat) 4 = none → ∃ v : BitVec 32,
      exec (.specRead i) s = .next { s with response := answer (v.setWidth 64), draws := s.draws + 1 })) ∧
  (∀ (s : State) (i : BitVec 26), Config.fftNMax ≤ i.toNat →
    exec (.specRead i) s =
      .next { s with err := { s.err with bus := true }, response := errorAnswer }) ∧
  (∀ (s : State) (a : Addr) (n : BusSize) (v : Word), 0x30000000 ≤ a.toNat → a.toNat < 0x40000000 →
    (n ≠ .b4 ∨ a.toNat % 4 ≠ 0 → perform (.bus (.read a n)) s =
      .next { s with err := { s.err with bus := true }, response := errorAnswer }) ∧
    perform (.bus (.write a n v)) s =
      .next { s with err := { s.err with bus := true }, response := errorAnswer })

/-- R105: a read of FREQ[i] answers its binary64 pattern, or a draw where it is unspecified, and changes nothing
else; any write, an index out of range, a size other than 8 or an unaligned address is a bus error. -/
def Obligations.FreqReads : Prop :=
  (∀ (s : State) (i : BitVec 25), i.toNat < Config.fftNMax →
    (∀ v, s.mem.load (0x40000000 + 8 * i.toNat) 8 = some v →
      exec (.freqRead i) s = .next { s with response := answer (BitVec.ofNat 64 v) }) ∧
    (s.mem.load (0x40000000 + 8 * i.toNat) 8 = none → ∃ v : Word,
      exec (.freqRead i) s = .next { s with response := answer v, draws := s.draws + 1 })) ∧
  (∀ (s : State) (i : BitVec 25), Config.fftNMax ≤ i.toNat →
    exec (.freqRead i) s =
      .next { s with err := { s.err with bus := true }, response := errorAnswer }) ∧
  (∀ (s : State) (a : Addr) (n : BusSize) (v : Word), 0x40000000 ≤ a.toNat → a.toNat < 0x50000000 →
    (n ≠ .b8 ∨ a.toNat % 8 ≠ 0 → perform (.bus (.read a n)) s =
      .next { s with err := { s.err with bus := true }, response := errorAnswer }) ∧
    perform (.bus (.write a n v)) s =
      .next { s with err := { s.err with bus := true }, response := errorAnswer })

/-- R193: a host transaction that meets a condition of R193 sets ERR.BUS, answers with an error and data 0, and
leaves every other state element unchanged; one that meets none is performed. -/
def Obligations.BusErrorsRefused : Prop :=
  ∀ (t : BusTxn) (s : State),
    (BusError s t → perform (.bus t) s =
      .next { s with err := { s.err with bus := true }, response := errorAnswer }) ∧
    (¬ BusError s t → ∃ u v, perform (.bus t) s = .next u ∧ u.response = answer v)

/-- R69: a host read changes no state of the block, but that a bus error read sets ERR.BUS. -/
def Obligations.ReadsHaveNoSideEffects : Prop :=
  ∀ (i : Instr) (s t : State), IsRead i → exec i s = .next t →
    (t = { s with response := t.response, draws := t.draws } ∧ t.response ≠ errorAnswer) ∨
    t = { s with err := { s.err with bus := true }, response := errorAnswer }

/-! ## Whole-machine rules -/

/-- R114: the mode transitions. No other well-formed instruction changes MODE, and hardware reset enters
IDLE. -/
def Obligations.ModeTransitions : Prop :=
  (∀ (i : Instr) (s t : State), i.wellFormed = true → exec i s = .next t →
    t.mode = match i with
      | .init => if s.mode = .idle ∧ firstFailingCheck s.cfg = 0 then .ready else s.mode
      | .start => if s.mode = .ready then .run else s.mode
      | .stop => if s.mode = .run then .ready else s.mode
      | .deinit => .idle
      | _ => s.mode) ∧
  (∀ s : State, (hardwareReset s).mode = .idle)

/-- R22, R101: outside IDLE no instruction changes a configuration register, and in IDLE only a register write
does. -/
def Obligations.ConfigurationFrozen : Prop :=
  ∀ (i : Instr) (s t : State), exec i s = .next t → s.mode ≠ .idle ∨ (∀ off v, i ≠ .hostRegWrite off v) →
    t.cfg = s.cfg

/-- R191: a command that ends with a code other than OK changes no state except CMD_STATUS, RESULT and ERR. -/
def Obligations.FailedCommandChangesNothing : Prop :=
  ∀ (i : Instr) (s t : State), IsCommand i → exec i s = .next t → t.cmd.code ≠ .ok →
    t = { s with cmd := t.cmd, err := t.err, response := t.response } ∧ t.err.cmd = true ∧
      t.err.bus = s.err.bus

/-- R53: a bit of ERR once set stays set until CLR_ERR or reset. -/
def Obligations.ErrBitsSticky : Prop :=
  ∀ (i : Instr) (s t : State), i.wellFormed = true → i ≠ .clrErr → exec i s = .next t →
    (s.err.bus = true → t.err.bus = true) ∧ (s.err.cmd = true → t.err.cmd = true) ∧
    (s.err.cfg = true → t.err.cfg = true)

/-- R202: the counters count up: only INIT, DEINIT and reset lower one. -/
def Obligations.CountersNeverFall : Prop :=
  ∀ (i : Instr) (s t : State), i.wellFormed = true → i ≠ .init → i ≠ .deinit → exec i s = .next t →
    s.counters.gapEvents ≤ t.counters.gapEvents ∧ s.counters.lostEst ≤ t.counters.lostEst ∧
    s.counters.ovfEvents ≤ t.counters.ovfEvents ∧ s.counters.ovfSamples ≤ t.counters.ovfSamples ∧
    s.counters.malformed ≤ t.counters.malformed ∧ s.counters.frames ≤ t.counters.frames

/-- R30, R31: CFG_LISTEN_PORT and CFG_RX_TIMEOUT_MS have no effect inside the block: an instruction that does
not read or write them does the same whatever they hold. -/
def Obligations.RxportRegistersHaveNoEffect : Prop :=
  ∀ (i : Instr) (s t : State) (port timeout : Word), i.wellFormed = true →
    i ≠ .hostRegRead 0x078 → i ≠ .hostRegRead 0x080 →
    (∀ v, i ≠ .hostRegWrite 0x078 v) → (∀ v, i ≠ .hostRegWrite 0x080 v) →
    exec i s = .next t → exec i (s.withPorts port timeout) = .next (t.withPorts port timeout)

/-- R46 to R49: PUSH_BUF changes only by a host write of it, POP_BUF only by FIFO_POP, SPEC_OUT only by a
datagram, ENGINE_RUN, INIT and DEINIT, FREQ only by INIT and DEINIT. -/
def Obligations.ArraysHaveOneWriter : Prop :=
  ∀ (i : Instr) (s t : State), i.wellFormed = true → s.CsbInv → exec i s = .next t →
    ((∀ k v, i ≠ .pushbufWrite k v) → ∀ a, 0x10000000 ≤ a → a < 0x20000000 → t.mem.byte a = s.mem.byte a) ∧
    ((∀ n, i ≠ .fifoPop n) → ∀ a, 0x20000000 ≤ a → a < 0x30000000 → t.mem.byte a = s.mem.byte a) ∧
    ((∀ d, i ≠ .rxDatagram d) → i ≠ .engineRun → i ≠ .init → i ≠ .deinit →
      ∀ a, 0x30000000 ≤ a → a < 0x40000000 → t.mem.byte a = s.mem.byte a) ∧
    (i ≠ .init → i ≠ .deinit → ∀ a, 0x40000000 ≤ a → a < 0x50000000 → t.mem.byte a = s.mem.byte a)

/-! ## Steps, reset and invariants -/

/-- A step runs the decoded instruction: with the turn of an agent at the head of `order`, and an operation of
that agent that decodes to a well-formed instruction, the step takes the turn and the operation off the streams and
is the instruction's meaning there. In particular an operation placed next is the one the step performs. -/
def Obligations.StepRunsDecodedInstruction : Prop :=
  (∀ (s : State) (i : Instr) (rest : List Source) (t : BusTxn) (ts : List BusTxn),
    s.order = .host :: rest → s.hostStream = t :: ts → decode (.bus t) = .ok i → i.wellFormed = true →
    step s = exec i { s with order := rest, hostStream := ts }) ∧
  (∀ (s : State) (i : Instr) (rest : List Source) (a : RxArrival) (as : List RxArrival),
    s.order = .rxport :: rest → s.rxStream = a :: as → decode (.rx a) = .ok i → i.wellFormed = true →
    step s = exec i { s with order := rest, rxStream := as }) ∧
  (∀ (s : State) (i : Instr) (o : Operation), decode o = .ok i → i.wellFormed = true →
    step (placeNext o s) = exec i s)

/-- No action stops the block: with the events of RXPORT framed as R86 says, every step answers a next state. -/
def Obligations.StepAlwaysCompletes : Prop :=
  ∀ s : State, (∀ a ∈ s.rxStream, rxFramed a) → ∃ t, step s = .next t

/-- R4: SEQ performs each agent's operations in the agent's own order: a step takes one turn, and the first
operation of the agent whose turn it is, and nothing else off the streams. -/
def Obligations.StreamsKeepTheirOrder : Prop :=
  ∀ s t : State, step s = .next t →
    t.order = s.order.tail ∧
    t.hostStream = (if s.order.head? = some .host then s.hostStream.tail else s.hostStream) ∧
    t.rxStream = (if s.order.head? = some .rxport then s.rxStream.tail else s.rxStream)

/-- R210: hardware reset is one action, in any state: every element of the block's state is at its reset value
afterwards, and what HOST and RXPORT have yet to issue stays. -/
def Obligations.HardwareResetAction : Prop :=
  ∀ (s : State) (rest : List Source), s.order = .reset :: rest →
    ∃ t, step s = .next t ∧
      t.mode = .idle ∧ t.cfg = ⟨0, 0, 0, 0, 0, 0, 0, 0, 0⟩ ∧ t.derived = ⟨0, 0, 0⟩ ∧
      t.csb = ⟨[], 0, 0, 0⟩ ∧ t.seq = ⟨0, false⟩ ∧ t.counters = ⟨0, 0, 0, 0, 0, 0⟩ ∧
      (∀ a, t.mem.byte a = none) ∧ t.cmd = ⟨0, .ok, 0⟩ ∧ t.err = ⟨false, false, false⟩ ∧
      t.hostStream = s.hostStream ∧ t.rxStream = s.rxStream ∧ t.order = rest

/-- R211: right after reset the block is in IDLE, every register of the window reads 0, and every element of the
four arrays is unspecified. -/
def Obligations.ResetValues : Prop :=
  State.reset.mode = .idle ∧
  (∀ off : BitVec 9, off.toNat ∈ registerOffsets →
    exec (.hostRegRead off) State.reset = .next { State.reset with response := answer 0 }) ∧
  (∀ (w : Window) (i : Nat), w ≠ .regs → State.reset.element w i = none) ∧
  State.reset.csb.store = []

/-- The invariants hold right after reset. -/
def Obligations.ResetMeetsInvariant : Prop := State.reset.Inv ∧ State.reset.SpecInRange

/-- R33, R37: every step keeps the buffer's invariant: cursors in range and in relation, every unread element
written, the derived registers those of the checked configuration; and in IDLE all of it at zero. -/
def Obligations.StepKeepsCsbInvariant : Prop :=
  ∀ s t : State, s.CsbInv → step s = .next t → t.CsbInv

/-- R46 to R49, R61 to R63, R180: every step keeps the memory's invariant: canonical, elements in range and
specified as a whole, SPEC_OUT specified exactly below N once a frame exists, FREQ exactly below N outside IDLE; and it
keeps every specified element of SPEC_OUT a value a frame can have. -/
def Obligations.StepKeepsInvariant : Prop :=
  (∀ s t : State, s.Inv → step s = .next t → t.Inv) ∧
  (∀ s t : State, s.CsbInv → s.SpecInRange → step s = .next t → t.SpecInRange)
end

