-- ==== Sys2Proof/Laws/Cells.lean ====
section
/-! SUPPORT. The sparse arrays: what a lookup sees after an insertion or an erasure, and that both keep the
canonical form. -/
namespace Sys2Proof.Machine

variable {α : Type}

@[simp] theorem Cells.lookup_nil (a : Nat) : Cells.lookup ([] : List (Nat × α)) a = none := rfl

theorem Cells.lookup_cons (c : Nat × α) (t : List (Nat × α)) (a : Nat) :
    Cells.lookup (c :: t) a = if c.1 = a then some c.2 else Cells.lookup t a := rfl

/-- Everything a lookup can see after an insertion. -/
theorem Cells.lookup_insert (l : List (Nat × α)) (a b : Nat) (v : α) :
    Cells.lookup (Cells.insert l a v) b = if a = b then some v else Cells.lookup l b := by
  induction l with
  | nil => simp [Cells.insert, Cells.lookup]
  | cons c t ih =>
    simp only [Cells.insert]
    split
    · rfl
    · split
      · simp only [Cells.lookup]
        split <;> simp_all
      · simp only [Cells.lookup]
        split <;> simp_all

@[simp] theorem Cells.lookup_insert_self (l : List (Nat × α)) (a : Nat) (v : α) :
    Cells.lookup (Cells.insert l a v) a = some v := by simp [Cells.lookup_insert]

theorem Cells.lookup_insert_ne (l : List (Nat × α)) {a b : Nat} (v : α) (h : a ≠ b) :
    Cells.lookup (Cells.insert l a v) b = Cells.lookup l b := by simp [Cells.lookup_insert, h]

/-- Everything a lookup can see after an erasure. -/
theorem Cells.lookup_eraseRange (l : List (Nat × α)) (lo hi a : Nat) :
    Cells.lookup (Cells.eraseRange l lo hi) a = if lo ≤ a ∧ a < hi then none else Cells.lookup l a := by
  induction l with
  | nil => simp [Cells.eraseRange]
  | cons c t ih =>
    simp only [Cells.eraseRange] at ih
    simp only [Cells.eraseRange, List.filter_cons, Cells.lookup_cons]
    by_cases hc : c.1 < lo ∨ hi ≤ c.1
    · have : (decide (c.1 < lo) || decide (hi ≤ c.1)) = true := by simpa using hc
      simp only [this, if_true, Cells.lookup_cons, ih]
      by_cases h : c.1 = a
      · subst h; simp [show ¬(lo ≤ c.1 ∧ c.1 < hi) by omega]
      · simp [h]
    · have : (decide (c.1 < lo) || decide (hi ≤ c.1)) = false := by simpa using hc
      simp only [this, Bool.false_eq_true, if_false, ih]
      by_cases h : c.1 = a
      · subst h; simp [show lo ≤ c.1 ∧ c.1 < hi by omega]
      · simp [h]

theorem Cells.mem_insert {l : List (Nat × α)} {a : Nat} {v : α} {x : Nat × α}
    (h : x ∈ Cells.insert l a v) : x = (a, v) ∨ x ∈ l := by
  induction l with
  | nil => simpa [Cells.insert] using h
  | cons c t ih =>
    simp only [Cells.insert] at h
    split at h
    · simpa using h
    · split at h
      · rcases List.mem_cons.1 h with h | h <;> simp [h]
      · rcases List.mem_cons.1 h with h | h
        · simp [h]
        · rcases ih h with h | h <;> simp [h]

theorem Cells.mem_eraseRange {l : List (Nat × α)} {lo hi : Nat} {x : Nat × α} :
    x ∈ Cells.eraseRange l lo hi ↔ x ∈ l ∧ (x.1 < lo ∨ hi ≤ x.1) := by
  simp [Cells.eraseRange]

/-- The canonical form as a pairwise fact. -/
theorem Cells.wf_iff_pairwise (l : List (Nat × α)) :
    Cells.wf l = true ↔ l.Pairwise (fun a b => a.1 < b.1) := by
  induction l with
  | nil => simp [Cells.wf]
  | cons a t ih =>
    cases t with
    | nil => simp [Cells.wf]
    | cons b t =>
      simp only [Cells.wf, Bool.and_eq_true, decide_eq_true_eq, ih]
      constructor
      · rintro ⟨hab, hp⟩
        refine List.pairwise_cons.2 ⟨fun c hc => ?_, hp⟩
        rcases List.mem_cons.1 hc with rfl | hc
        · exact hab
        · exact hab.trans ((List.pairwise_cons.1 hp).1 c hc)
      · intro hp
        exact ⟨(List.pairwise_cons.1 hp).1 b (by simp), (List.pairwise_cons.1 hp).2⟩

theorem Cells.insert_pairwise {l : List (Nat × α)} (a : Nat) (v : α)
    (h : l.Pairwise (fun a b => a.1 < b.1)) :
    (Cells.insert l a v).Pairwise (fun a b => a.1 < b.1) := by
  induction l with
  | nil => simp [Cells.insert]
  | cons c t ih =>
    obtain ⟨hc, ht⟩ := List.pairwise_cons.1 h
    simp only [Cells.insert]
    split
    · rename_i hac
      refine List.pairwise_cons.2 ⟨fun x hx => ?_, h⟩
      rcases List.mem_cons.1 hx with rfl | hx
      · exact hac
      · exact lt_trans hac (hc x hx)
    · split
      · rename_i hac
        refine List.pairwise_cons.2 ⟨fun x hx => ?_, ht⟩
        have := hc x hx
        simp only [hac] at *
        exact this
      · refine List.pairwise_cons.2 ⟨fun x hx => ?_, ih ht⟩
        rcases Cells.mem_insert hx with rfl | hx
        · change c.1 < a
          omega
        · exact hc x hx

/-- Insertion keeps the canonical form. -/
theorem Cells.wf_insert {l : List (Nat × α)} (a : Nat) (v : α) (h : Cells.wf l = true) :
    Cells.wf (Cells.insert l a v) = true :=
  (Cells.wf_iff_pairwise _).2 (Cells.insert_pairwise a v ((Cells.wf_iff_pairwise _).1 h))

/-- Erasure keeps the canonical form. -/
theorem Cells.wf_eraseRange {l : List (Nat × α)} (lo hi : Nat) (h : Cells.wf l = true) :
    Cells.wf (Cells.eraseRange l lo hi) = true :=
  (Cells.wf_iff_pairwise _).2 (((Cells.wf_iff_pairwise _).1 h).filter _)

/-- In a canonical list an entry is what a lookup of its index sees. -/
theorem Cells.mem_iff_lookup {l : List (Nat × α)} (h : Cells.wf l = true) (a : Nat) (v : α) :
    (a, v) ∈ l ↔ Cells.lookup l a = some v := by
  rw [Cells.wf_iff_pairwise] at h
  induction l with
  | nil => simp
  | cons c t ih =>
    obtain ⟨hc, ht⟩ := List.pairwise_cons.1 h
    rw [Cells.lookup_cons, List.mem_cons, ih ht]
    by_cases hca : c.1 = a
    · subst hca
      simp only [if_true]
      constructor
      · rintro (heq | hl)
        · rw [← heq]
        · have := hc _ ((ih ht).2 hl)
          exact absurd this (lt_irrefl _)
      · intro hv
        left
        exact Prod.ext rfl (Option.some.inj hv).symm
    · simp only [hca, if_false]
      constructor
      · rintro (heq | hl)
        · exact absurd (congrArg Prod.fst heq).symm hca
        · exact hl
      · exact Or.inr

theorem Cells.lookup_isSome_of_mem {l : List (Nat × α)} {x : Nat × α} (h : x ∈ l) :
    (Cells.lookup l x.1).isSome = true := by
  induction l with
  | nil => simp at h
  | cons c t ih =>
    rw [Cells.lookup_cons]
    split
    · rfl
    · rename_i hne
      rcases List.mem_cons.1 h with rfl | h
      · exact absurd rfl hne
      · exact ih h

theorem Cells.mem_of_lookup {l : List (Nat × α)} {a : Nat} {v : α} (h : Cells.lookup l a = some v) :
    (a, v) ∈ l := by
  induction l with
  | nil => simp at h
  | cons c t ih =>
    rw [Cells.lookup_cons] at h
    split at h
    · rename_i hc
      subst hc
      rw [← Option.some.inj h]
      simp
    · exact List.mem_cons_of_mem _ (ih h)

end Sys2Proof.Machine
end

