-- ==== Sys2Proof/Laws/Config.lean ====
section
/-! SUPPORT. The ranges of the implementation's parameters (R6). -/
namespace Sys2Proof.Config

theorem capMax_ge : 4 ≤ capMax := by unfold capMax; omega
theorem capMax_le : capMax ≤ 2 ^ 27 := by unfold capMax; omega
theorem fftNMax_ge : 2 ≤ fftNMax := by unfold fftNMax; omega
theorem fftNMax_le : fftNMax ≤ 2 ^ 25 := by unfold fftNMax; omega
theorem fftNMax_even : fftNMax % 2 = 0 := by unfold fftNMax; omega
theorem packSzMax_ge : 10 ≤ packSzMax := by unfold packSzMax; omega
theorem packSzMax_le : packSzMax ≤ 2 ^ 24 - 1 := by unfold packSzMax; omega
theorem specTolDb_nonneg : 0 ≤ specTolDb := arithmetic.tolDb_nonneg
theorem eps_le_specPnMin : Machine.eps ≤ specPnMin := arithmetic.eps_le_pnMin
theorem specPnMin_le : specPnMin ≤ 1 := arithmetic.pnMin_le_one
theorem specPnMin_pos : 0 < specPnMin := Machine.eps_pos.trans_le eps_le_specPnMin

end Sys2Proof.Config
end

