-- ==== Sys2Proof/Laws/Decode.lean ====
section
/-! SUPPORT. What the decoder answers, said once: the window of an address as a range, a bus transaction that
is refused by its address, size or alignment, and one that is not. -/
namespace Sys2Proof

/-- The window by the top four bits of an address, as ranges. -/
theorem windowOf_aux (k a : Nat) (h : a / 2 ^ 28 = k) :
    (match k with
      | 0 => if a < 0x200 then some Window.regs else none
      | 1 => some .pushBuf
      | 2 => some .popBuf
      | 3 => some .specOut
      | 4 => some .freq
      | _ => none) =
    if a < 0x200 then some .regs
    else if a < 0x10000000 then none
    else if a < 0x20000000 then some .pushBuf
    else if a < 0x30000000 then some .popBuf
    else if a < 0x40000000 then some .specOut
    else if a < 0x50000000 then some .freq
    else none := by
  rcases k with _ | _ | _ | _ | _ | k
  · by_cases h1 : a < 0x200
    · simp only [if_pos h1]
    · simp only [if_neg h1]; rw [if_pos (by omega)]
  · simp only []; rw [if_neg (by omega), if_neg (by omega), if_pos (by omega)]
  · simp only []; rw [if_neg (by omega), if_neg (by omega), if_neg (by omega), if_pos (by omega)]
  · simp only []; rw [if_neg (by omega), if_neg (by omega), if_neg (by omega), if_neg (by omega), if_pos (by omega)]
  · simp only []; rw [if_neg (by omega), if_neg (by omega), if_neg (by omega), if_neg (by omega), if_neg (by omega), if_pos (by omega)]
  · simp only []
    rw [if_neg (by omega), if_neg (by omega), if_neg (by omega), if_neg (by omega), if_neg (by omega), if_neg (by omega)]

/-- The window of an address, as the ranges of R61. -/
theorem windowOf_eq (a : Addr) :
    windowOf a =
      if a.toNat < 0x200 then some .regs
      else if a.toNat < 0x10000000 then none
      else if a.toNat < 0x20000000 then some .pushBuf
      else if a.toNat < 0x30000000 then some .popBuf
      else if a.toNat < 0x40000000 then some .specOut
      else if a.toNat < 0x50000000 then some .freq
      else none :=
  windowOf_aux _ _ (by
    have := a.isLt
    rw [BitVec.extractLsb'_toNat, Nat.shiftRight_eq_div_pow]
    omega)

/-- A transaction outside every window. -/
theorem decodeBus_unmapped {t : BusTxn} (h : windowOf t.addr = none) :
    decodeBus t = .error .unmapped := by
  unfold decodeBus; rw [h]

/-- A transaction whose size is not the window's element size. -/
theorem decodeBus_wrongSize {t : BusTxn} {w : Window} (h : windowOf t.addr = some w)
    (hs : t.size ≠ w.elemSize) : decodeBus t = .error .wrongSize := by
  unfold decodeBus; rw [h]; simp only [if_pos hs]

/-- A transaction at an address that is no multiple of the element size. -/
theorem decodeBus_misaligned {t : BusTxn} {w : Window} (h : windowOf t.addr = some w)
    (hs : t.size = w.elemSize) (ha : t.addr.toNat % w.elemSize.bytes ≠ 0) :
    decodeBus t = .error .misaligned := by
  unfold decodeBus; rw [h]; simp only [hs, ne_eq, not_true_eq_false, if_false]; rw [if_pos ha]

/-- An aligned read of a window's element size. -/
theorem decodeBus_read {a : Addr} {w : Window} (h : windowOf a = some w)
    (ha : a.toNat % w.elemSize.bytes = 0) :
    decodeBus (.read a w.elemSize) = .ok (match w with
      | .regs => .hostRegRead (a.extractLsb' 0 9)
      | .pushBuf => .pushbufRead (a.extractLsb' 1 27)
      | .popBuf => .popbufRead (a.extractLsb' 1 27)
      | .specOut => .specRead (a.extractLsb' 2 26)
      | .freq => .freqRead (a.extractLsb' 3 25)) := by
  unfold decodeBus
  simp only [BusTxn.addr, BusTxn.size, h, ne_eq, not_true_eq_false, if_false, ha]
  cases w <;> rfl

/-- An aligned write of a window's element size. -/
theorem decodeBus_write {a : Addr} {w : Window} {v : Word} (h : windowOf a = some w)
    (ha : a.toNat % w.elemSize.bytes = 0) :
    decodeBus (.write a w.elemSize v) = (match w with
      | .regs => if a = 0 then decodeCmd v else .ok (.hostRegWrite (a.extractLsb' 0 9) v)
      | .pushBuf => .ok (.pushbufWrite (a.extractLsb' 1 27) (v.extractLsb' 0 16))
      | .popBuf => .error .readOnlyArray
      | .specOut => .error .readOnlyArray
      | .freq => .error .readOnlyArray) := by
  unfold decodeBus
  simp only [BusTxn.addr, BusTxn.size, h, ne_eq, not_true_eq_false, if_false, ha]
  cases w <;> rfl

/-! ### The fields of an encoded command word (R82) -/

@[simp] theorem cmdOpc_cmdWord (o : Opcode) (n : BitVec 32) : cmdOpc (cmdWord o n) = o.byte := by
  rw [cmdOpc, cmdWord]
  exact BitVec.extractLsb'_append_eq_right

@[simp] theorem cmdRsv0_cmdWord (o : Opcode) (n : BitVec 32) : cmdRsv0 (cmdWord o n) = 0 := by
  unfold cmdRsv0 cmdWord
  ext k hk
  rw [BitVec.getElem_extractLsb']
  simp only [BitVec.getLsbD_append]
  simp
  omega

@[simp] theorem cmdRsv1_cmdWord (o : Opcode) (n : BitVec 32) : cmdRsv1 (cmdWord o n) = 0 := by
  unfold cmdRsv1 cmdWord
  ext k hk
  rw [BitVec.getElem_extractLsb']
  simp only [BitVec.getLsbD_append]
  rw [if_neg (by omega), if_neg (by omega), if_neg (by omega)]
  simp

@[simp] theorem cmdArg_cmdWord (o : Opcode) (n : BitVec 32) : cmdArg (cmdWord o n) = n := by
  unfold cmdArg cmdWord
  ext k hk
  rw [BitVec.getElem_extractLsb']
  simp only [BitVec.getLsbD_append]
  rw [if_neg (by omega), if_neg (by omega), if_pos (by omega)]
  rw [BitVec.getLsbD_eq_getElem (by omega)]
  congr 1
  omega

@[simp] theorem opcodeOf_byte (o : Opcode) : opcodeOf o.byte = some o := by cases o <;> rfl

/-- Exactly the bytes of R84 name an opcode. -/
theorem opcodeOf_eq_none : ∀ b : Byte,
    opcodeOf b = none ↔ b ∉ [0x00#8, 0x01#8, 0x02#8, 0x03#8, 0x04#8, 0x05#8, 0x10#8, 0x11#8, 0x20#8] := by
  decide

/-- A legal word passes every check (R106). -/
theorem checkCmd_cmdWord (o : Opcode) (n : BitVec 32) (h : o.hasOperand = true ∨ n = 0) :
    checkCmd (cmdWord o n) = .ok (o, n) := by
  simp only [checkCmd, cmdOpc_cmdWord, cmdRsv0_cmdWord, cmdRsv1_cmdWord, cmdArg_cmdWord, opcodeOf_byte]
  rcases h with h | h <;> simp [h]

/-! ### Words as their fields -/

/-- A command word is its four fields (R82). -/
theorem cmdWord_fields (w : Word) : w = cmdRsv1 w ++ cmdArg w ++ cmdRsv0 w ++ cmdOpc w := by
  apply BitVec.eq_of_getLsbD_eq
  intro j hj
  simp only [cmdRsv1, cmdArg, cmdRsv0, cmdOpc, BitVec.getLsbD_append, BitVec.getLsbD_extractLsb']
  by_cases h1 : j < 8
  · simp [h1]
  by_cases h2 : j < 16
  · have : j - 8 < 8 := by omega
    simp [h1, this, show 8 + (j - 8) = j by omega]
  by_cases h3 : j < 48
  · have a : ¬ j - 8 < 8 := by omega
    have b : j - 8 - 8 < 32 := by omega
    simp [h1, a, b, show 16 + (j - 8 - 8) = j by omega]
  · have a : ¬ j - 8 < 8 := by omega
    have b : ¬ j - 8 - 8 < 32 := by omega
    have c : j - 8 - 8 - 32 < 16 := by omega
    simp [h1, a, b, c, show 48 + (j - 8 - 8 - 32) = j by omega]

/-- An RX descriptor is its two fields (R86). -/
theorem rxDesc_fields (d : BitVec 32) : d = rxKind d ++ rxLen d := by
  apply BitVec.eq_of_getLsbD_eq
  intro j hj
  simp only [rxKind, rxLen, BitVec.getLsbD_append, BitVec.getLsbD_extractLsb']
  by_cases h1 : j < 24
  · simp [h1]
  · have a : j - 24 < 8 := by omega
    simp [h1, a, show 24 + (j - 24) = j by omega]

/-- The byte that names an opcode is its byte (R84). -/
theorem opcodeOf_eq_some : ∀ (b : Byte) (o : Opcode), opcodeOf b = some o → b = o.byte := by
  intro b o h
  revert b
  cases o <;> decide +kernel

/-- A word passes every check exactly when it is an opcode's word with a legal operand (R85, R106). -/
theorem checkCmd_eq_ok (w : Word) (o : Opcode) (n : BitVec 32) :
    checkCmd w = .ok (o, n) ↔ w = cmdWord o n ∧ (o.hasOperand = true ∨ n = 0) := by
  constructor
  · intro h
    unfold checkCmd at h
    split at h
    · cases h
    · rename_i o' ho
      split at h
      · cases h
      split at h
      · cases h
      rename_i h1 h2
      simp only [Except.ok.injEq, Prod.mk.injEq] at h
      obtain ⟨rfl, rfl⟩ := h
      simp only [not_or, ne_eq, not_not] at h1
      refine ⟨?_, ?_⟩
      · rw [cmdWord, ← opcodeOf_eq_some _ _ ho]
        conv_lhs => rw [cmdWord_fields w, h1.1, h1.2]
        rfl
      · cases hx : o'.hasOperand with
        | true => exact .inl rfl
        | false => simp only [hx, true_and, not_not] at h2; exact .inr h2
  · rintro ⟨rfl, h⟩
    exact checkCmd_cmdWord o n h

end Sys2Proof
end

