-- ==== Sys2Proof/Laws/Memory.lean ====
section
/-! SUPPORT. The memory of the bus arrays: what a byte or an element reads after a store, and that every
memory operation keeps the canonical form. -/
namespace Sys2Proof.Machine

/-- Byte `k` of a value, little-endian (R64). -/
theorem byteOf_succ (v k : Nat) :
    BitVec.ofNat 8 (v / 256 / 256 ^ k) = BitVec.ofNat 8 (v / 256 ^ (k + 1)) := by
  rw [Nat.div_div_eq_div_mul, pow_succ, Nat.mul_comm]

/-- Everything a byte can read after an element is stored. -/
theorem Memory.byte_store (m : Memory) (a n v b : Nat) :
    (m.store a n v).byte b =
      if a ≤ b ∧ b < a + n then some (BitVec.ofNat 8 (v / 256 ^ (b - a))) else m.byte b := by
  induction n generalizing m a v with
  | zero => simp [Memory.store]
  | succ n ih =>
    rw [Memory.store, ih]
    by_cases h1 : a + 1 ≤ b ∧ b < a + 1 + n
    · rw [if_pos h1, if_pos (by omega)]
      obtain ⟨k, rfl⟩ : ∃ k, b = a + 1 + k := ⟨b - (a + 1), by omega⟩
      rw [show a + 1 + k - (a + 1) = k by omega, show a + 1 + k - a = k + 1 by omega, byteOf_succ]
    · rw [if_neg h1]
      by_cases h2 : a = b
      · subst h2
        rw [if_pos (by omega)]
        simp [Memory.byte]
      · rw [if_neg (by omega)]
        simp [Memory.byte, Cells.lookup_insert, h2]

theorem Memory.byte_store_outside (m : Memory) {a n b : Nat} (v : Nat) (h : b < a ∨ a + n ≤ b) :
    (m.store a n v).byte b = m.byte b := by
  rw [Memory.byte_store, if_neg (by omega)]

/-- An element is a function of its bytes. -/
theorem Memory.load_congr {m m' : Memory} {a n : Nat}
    (h : ∀ b, a ≤ b → b < a + n → m.byte b = m'.byte b) : m.load a n = m'.load a n := by
  induction n generalizing a with
  | zero => rfl
  | succ n ih =>
    rw [Memory.load, Memory.load, h a (by omega) (by omega),
      ih (fun b h1 h2 => h b (by omega) (by omega))]

/-- An element is specified when all its bytes are. -/
theorem Memory.load_isSome_iff (m : Memory) (a n : Nat) :
    (m.load a n).isSome = true ↔ ∀ b, a ≤ b → b < a + n → (m.byte b).isSome = true := by
  induction n generalizing a with
  | zero => simp [Memory.load]; omega
  | succ n ih =>
    rw [Memory.load]
    constructor
    · intro h b h1 h2
      cases hb : m.byte a with
      | none => simp [hb] at h
      | some x =>
        cases hl : m.load (a + 1) n with
        | none => simp [hb, hl] at h
        | some y =>
          by_cases hab : b = a
          · simp [hab, hb]
          · exact (ih (a + 1)).1 (by simp [hl]) b (by omega) (by omega)
    · intro h
      obtain ⟨x, hx⟩ := Option.isSome_iff_exists.1 (h a (by omega) (by omega))
      obtain ⟨y, hy⟩ := Option.isSome_iff_exists.1
        ((ih (a + 1)).2 (fun b h1 h2 => h b (by omega) (by omega)))
      simp [hx, hy]

theorem Memory.load_store_outside (m : Memory) {a n b k : Nat} (v : Nat) (h : b + k ≤ a ∨ a + n ≤ b) :
    (m.store a n v).load b k = m.load b k :=
  Memory.load_congr fun c h1 h2 => m.byte_store_outside v (by omega)

/-- Read after write: an element holds what was stored into it. -/
theorem Memory.load_store_self (m : Memory) (a n v : Nat) :
    (m.store a n v).load a n = some (v % 256 ^ n) := by
  induction n generalizing m a v with
  | zero => simp [Memory.load, Nat.mod_one]
  | succ n ih =>
    rw [Memory.load, Memory.byte_store, if_pos (by omega), Memory.store, ih]
    have h : v % 256 ^ (n + 1) = v % 256 + 256 * (v / 256 % 256 ^ n) := by
      rw [pow_succ, Nat.mul_comm, Nat.mod_mul]
    simp [h]

/-- Storing an element keeps the canonical form. -/
theorem Memory.wf_store {m : Memory} (a n v : Nat) (h : m.wf = true) : (m.store a n v).wf = true := by
  induction n generalizing m a v with
  | zero => exact h
  | succ n ih => exact ih (a + 1) (v / 256) (Cells.wf_insert _ _ h)

theorem Memory.byte_storeElems_outside (m : Memory) {a n b : Nat} (vs : List Nat)
    (h : b < a ∨ a + n * vs.length ≤ b) : (m.storeElems a n vs).byte b = m.byte b := by
  induction vs generalizing m a with
  | nil => rfl
  | cons v vs ih =>
    rw [List.length_cons, Nat.mul_succ] at h
    rw [Memory.storeElems, ih _ (by omega), m.byte_store_outside v (by omega)]

theorem Memory.load_storeElems_outside (m : Memory) {a n b k : Nat} (vs : List Nat)
    (h : b + k ≤ a ∨ a + n * vs.length ≤ b) : (m.storeElems a n vs).load b k = m.load b k :=
  Memory.load_congr fun c h1 h2 => m.byte_storeElems_outside vs (by omega)

/-- Read after write of consecutive elements: each holds its value. -/
theorem Memory.load_storeElems (m : Memory) (a n : Nat) (vs : List Nat) {j : Nat} (h : j < vs.length) :
    (m.storeElems a n vs).load (a + n * j) n = some (vs[j] % 256 ^ n) := by
  induction vs generalizing m a j with
  | nil => simp at h
  | cons v vs ih =>
    rw [Memory.storeElems]
    cases j with
    | zero =>
      rw [Nat.mul_zero, Nat.add_zero, Memory.load_storeElems_outside _ _ (by omega),
        Memory.load_store_self]
      rfl
    | succ j =>
      rw [Nat.mul_succ, show a + (n * j + n) = a + n + n * j by omega,
        ih _ _ (by simpa using h)]
      rfl

/-- Storing consecutive elements keeps the canonical form. -/
theorem Memory.wf_storeElems {m : Memory} (a n : Nat) (vs : List Nat) (h : m.wf = true) :
    (m.storeElems a n vs).wf = true := by
  induction vs generalizing m a with
  | nil => exact h
  | cons v vs ih => exact ih _ (Memory.wf_store a n v h)

theorem Memory.byte_eraseRange (m : Memory) (lo hi b : Nat) :
    Memory.byte (Cells.eraseRange m lo hi) b = if lo ≤ b ∧ b < hi then none else m.byte b :=
  Cells.lookup_eraseRange m lo hi b

theorem Memory.load_eraseRange_outside (m : Memory) {lo hi a n : Nat} (h : a + n ≤ lo ∨ hi ≤ a) :
    Memory.load (Cells.eraseRange m lo hi) a n = m.load a n :=
  Memory.load_congr fun b h1 h2 => by rw [Memory.byte_eraseRange, if_neg (by omega)]

theorem Memory.load_eraseRange_inside (m : Memory) {lo hi a n : Nat} (h1 : lo ≤ a) (h2 : a < hi)
    (hn : 0 < n) : Memory.load (Cells.eraseRange m lo hi) a n = none := by
  obtain ⟨k, rfl⟩ : ∃ k, n = k + 1 := ⟨n - 1, by omega⟩
  rw [Memory.load, Memory.byte_eraseRange, if_pos ⟨h1, h2⟩]

/-- Making a range unspecified keeps the canonical form. -/
theorem Memory.wf_eraseRange {m : Memory} (lo hi : Nat) (h : m.wf = true) :
    Memory.wf (Cells.eraseRange m lo hi) = true := Cells.wf_eraseRange lo hi h

end Sys2Proof.Machine
end

