-- ==== Sys2Proof/Laws/State.lean ====
section
/-! SUPPORT. One lemma per field per named update of the state, each true by `rfl`, so that no proof unfolds
a record update. -/
namespace Sys2Proof.Machine

/-! ### The bus's answer -/

@[simp] theorem respondRead_mode (v : Word) (s : State) : (respondRead v s).mode = s.mode := rfl
@[simp] theorem respondRead_cfg (v : Word) (s : State) : (respondRead v s).cfg = s.cfg := rfl
@[simp] theorem respondRead_derived (v : Word) (s : State) : (respondRead v s).derived = s.derived := rfl
@[simp] theorem respondRead_csb (v : Word) (s : State) : (respondRead v s).csb = s.csb := rfl
@[simp] theorem respondRead_seq (v : Word) (s : State) : (respondRead v s).seq = s.seq := rfl
@[simp] theorem respondRead_counters (v : Word) (s : State) : (respondRead v s).counters = s.counters := rfl
@[simp] theorem respondRead_mem (v : Word) (s : State) : (respondRead v s).mem = s.mem := rfl
@[simp] theorem respondRead_cmd (v : Word) (s : State) : (respondRead v s).cmd = s.cmd := rfl
@[simp] theorem respondRead_err (v : Word) (s : State) : (respondRead v s).err = s.err := rfl
@[simp] theorem respondRead_draws (v : Word) (s : State) : (respondRead v s).draws = s.draws := rfl
@[simp] theorem respondRead_response (v : Word) (s : State) : (respondRead v s).response = some ⟨false, v⟩ := rfl
@[simp] theorem respondRead_hostStream (v : Word) (s : State) : (respondRead v s).hostStream = s.hostStream := rfl
@[simp] theorem respondRead_rxStream (v : Word) (s : State) : (respondRead v s).rxStream = s.rxStream := rfl
@[simp] theorem respondRead_order (v : Word) (s : State) : (respondRead v s).order = s.order := rfl

@[simp] theorem respondWrite_mode (s : State) : (respondWrite s).mode = s.mode := rfl
@[simp] theorem respondWrite_cfg (s : State) : (respondWrite s).cfg = s.cfg := rfl
@[simp] theorem respondWrite_derived (s : State) : (respondWrite s).derived = s.derived := rfl
@[simp] theorem respondWrite_csb (s : State) : (respondWrite s).csb = s.csb := rfl
@[simp] theorem respondWrite_seq (s : State) : (respondWrite s).seq = s.seq := rfl
@[simp] theorem respondWrite_counters (s : State) : (respondWrite s).counters = s.counters := rfl
@[simp] theorem respondWrite_mem (s : State) : (respondWrite s).mem = s.mem := rfl
@[simp] theorem respondWrite_cmd (s : State) : (respondWrite s).cmd = s.cmd := rfl
@[simp] theorem respondWrite_err (s : State) : (respondWrite s).err = s.err := rfl
@[simp] theorem respondWrite_draws (s : State) : (respondWrite s).draws = s.draws := rfl
@[simp] theorem respondWrite_response (s : State) : (respondWrite s).response = some ⟨false, 0⟩ := rfl
@[simp] theorem respondWrite_hostStream (s : State) : (respondWrite s).hostStream = s.hostStream := rfl
@[simp] theorem respondWrite_rxStream (s : State) : (respondWrite s).rxStream = s.rxStream := rfl
@[simp] theorem respondWrite_order (s : State) : (respondWrite s).order = s.order := rfl

@[simp] theorem busfault_mode (s : State) : (busfault s).mode = s.mode := rfl
@[simp] theorem busfault_cfg (s : State) : (busfault s).cfg = s.cfg := rfl
@[simp] theorem busfault_derived (s : State) : (busfault s).derived = s.derived := rfl
@[simp] theorem busfault_csb (s : State) : (busfault s).csb = s.csb := rfl
@[simp] theorem busfault_seq (s : State) : (busfault s).seq = s.seq := rfl
@[simp] theorem busfault_counters (s : State) : (busfault s).counters = s.counters := rfl
@[simp] theorem busfault_mem (s : State) : (busfault s).mem = s.mem := rfl
@[simp] theorem busfault_cmd (s : State) : (busfault s).cmd = s.cmd := rfl
@[simp] theorem busfault_err (s : State) : (busfault s).err = s.err.withBus := rfl
@[simp] theorem busfault_draws (s : State) : (busfault s).draws = s.draws := rfl
@[simp] theorem busfault_response (s : State) : (busfault s).response = some ⟨true, 0⟩ := rfl
@[simp] theorem busfault_hostStream (s : State) : (busfault s).hostStream = s.hostStream := rfl
@[simp] theorem busfault_rxStream (s : State) : (busfault s).rxStream = s.rxStream := rfl
@[simp] theorem busfault_order (s : State) : (busfault s).order = s.order := rfl

/-! ### Recording a command -/

@[simp] theorem recordStatus_mode (opc : Byte) (code : Status) (res : Nat) (s : State) : (recordStatus opc code res s).mode = s.mode := rfl
@[simp] theorem recordStatus_cfg (opc : Byte) (code : Status) (res : Nat) (s : State) : (recordStatus opc code res s).cfg = s.cfg := rfl
@[simp] theorem recordStatus_derived (opc : Byte) (code : Status) (res : Nat) (s : State) : (recordStatus opc code res s).derived = s.derived := rfl
@[simp] theorem recordStatus_csb (opc : Byte) (code : Status) (res : Nat) (s : State) : (recordStatus opc code res s).csb = s.csb := rfl
@[simp] theorem recordStatus_seq (opc : Byte) (code : Status) (res : Nat) (s : State) : (recordStatus opc code res s).seq = s.seq := rfl
@[simp] theorem recordStatus_counters (opc : Byte) (code : Status) (res : Nat) (s : State) : (recordStatus opc code res s).counters = s.counters := rfl
@[simp] theorem recordStatus_mem (opc : Byte) (code : Status) (res : Nat) (s : State) : (recordStatus opc code res s).mem = s.mem := rfl
@[simp] theorem recordStatus_cmd (opc : Byte) (code : Status) (res : Nat) (s : State) : (recordStatus opc code res s).cmd = ⟨opc, code, BitVec.ofNat 64 res⟩ := rfl
@[simp] theorem recordStatus_err (opc : Byte) (code : Status) (res : Nat) (s : State) : (recordStatus opc code res s).err = s.err.afterCommand code := rfl
@[simp] theorem recordStatus_draws (opc : Byte) (code : Status) (res : Nat) (s : State) : (recordStatus opc code res s).draws = s.draws := rfl
@[simp] theorem recordStatus_response (opc : Byte) (code : Status) (res : Nat) (s : State) : (recordStatus opc code res s).response = some ⟨false, 0⟩ := rfl
@[simp] theorem recordStatus_hostStream (opc : Byte) (code : Status) (res : Nat) (s : State) : (recordStatus opc code res s).hostStream = s.hostStream := rfl
@[simp] theorem recordStatus_rxStream (opc : Byte) (code : Status) (res : Nat) (s : State) : (recordStatus opc code res s).rxStream = s.rxStream := rfl
@[simp] theorem recordStatus_order (opc : Byte) (code : Status) (res : Nat) (s : State) : (recordStatus opc code res s).order = s.order := rfl

/-! ### What INIT, DEINIT and reset share -/

@[simp] theorem clearRun_mode (s : State) : (clearRun s).mode = s.mode := rfl
@[simp] theorem clearRun_cfg (s : State) : (clearRun s).cfg = s.cfg := rfl
@[simp] theorem clearRun_derived (s : State) : (clearRun s).derived = s.derived := rfl
@[simp] theorem clearRun_csb (s : State) : (clearRun s).csb = .empty := rfl
@[simp] theorem clearRun_seq (s : State) : (clearRun s).seq = .zero := rfl
@[simp] theorem clearRun_counters (s : State) : (clearRun s).counters = .zero := rfl
@[simp] theorem clearRun_mem (s : State) : (clearRun s).mem = Cells.eraseRange s.mem 0x30000000 0x50000000 := rfl
@[simp] theorem clearRun_cmd (s : State) : (clearRun s).cmd = s.cmd := rfl
@[simp] theorem clearRun_err (s : State) : (clearRun s).err = s.err := rfl
@[simp] theorem clearRun_draws (s : State) : (clearRun s).draws = s.draws := rfl
@[simp] theorem clearRun_response (s : State) : (clearRun s).response = s.response := rfl
@[simp] theorem clearRun_hostStream (s : State) : (clearRun s).hostStream = s.hostStream := rfl
@[simp] theorem clearRun_rxStream (s : State) : (clearRun s).rxStream = s.rxStream := rfl
@[simp] theorem clearRun_order (s : State) : (clearRun s).order = s.order := rfl

@[simp] theorem hardwareReset_mode (s : State) : (hardwareReset s).mode = .idle := rfl
@[simp] theorem hardwareReset_cfg (s : State) : (hardwareReset s).cfg = .zero := rfl
@[simp] theorem hardwareReset_derived (s : State) : (hardwareReset s).derived = .zero := rfl
@[simp] theorem hardwareReset_csb (s : State) : (hardwareReset s).csb = .empty := rfl
@[simp] theorem hardwareReset_seq (s : State) : (hardwareReset s).seq = .zero := rfl
@[simp] theorem hardwareReset_counters (s : State) : (hardwareReset s).counters = .zero := rfl
@[simp] theorem hardwareReset_mem (s : State) : (hardwareReset s).mem = [] := rfl
@[simp] theorem hardwareReset_cmd (s : State) : (hardwareReset s).cmd = ⟨0, .ok, 0⟩ := rfl
@[simp] theorem hardwareReset_err (s : State) : (hardwareReset s).err = ⟨false, false, false⟩ := rfl
@[simp] theorem hardwareReset_draws (s : State) : (hardwareReset s).draws = s.draws := rfl
@[simp] theorem hardwareReset_response (s : State) : (hardwareReset s).response = s.response := rfl
@[simp] theorem hardwareReset_hostStream (s : State) : (hardwareReset s).hostStream = s.hostStream := rfl
@[simp] theorem hardwareReset_rxStream (s : State) : (hardwareReset s).rxStream = s.rxStream := rfl
@[simp] theorem hardwareReset_order (s : State) : (hardwareReset s).order = s.order := rfl

end Sys2Proof.Machine
end

