-- ==== Sys2Proof/Laws/Ops.lean ====
section
/-! SUPPORT. What the shared operations can do, said once for each: reads that may draw, the two FIFO
primitives, the engine, BuildFreq and the recording of a command. -/
namespace Sys2Proof.Machine

/-! ### Reads that may draw -/

/-- Everything an element read can do: it answers the element, or draws where it is unspecified. -/
theorem readElement_cases (a n : Nat) (s : State) :
    (∃ v, s.mem.load a n = some v ∧ readElement a n s = (BitVec.ofNat 64 v, s)) ∨
    (s.mem.load a n = none ∧ readElement a n s =
      (BitVec.ofNat 64 ((Config.freeElement s.draws).toNat % 256 ^ n), { s with draws := s.draws + 1 })) := by
  cases h : s.mem.load a n with
  | none => exact .inr ⟨rfl, by simp [readElement, h]⟩
  | some v => exact .inl ⟨v, rfl, by simp [readElement, h]⟩

/-- An element read changes no state but the number of draws. -/
theorem readElement_snd (a n : Nat) (s : State) :
    (readElement a n s).2 = { s with draws := (readElement a n s).2.draws } := by
  rcases readElement_cases a n s with ⟨v, -, h⟩ | ⟨-, h⟩ <;> rw [h]

theorem readElement_of_specified {a n v : Nat} {s : State} (h : s.mem.load a n = some v) :
    readElement a n s = (BitVec.ofNat 64 v, s) := by simp [readElement, h]

/-- Reading consecutive samples changes no state but the number of draws. -/
theorem readSamples_snd (cnt a : Nat) (s : State) :
    (readSamples cnt a s).2 = { s with draws := (readSamples cnt a s).2.draws } := by
  induction cnt generalizing a s with
  | zero => rfl
  | succ cnt ih =>
    have h : (readSamples (cnt + 1) a s).2 = (readSamples cnt (a + 2) (readElement a 2 s).2).2 := rfl
    rw [h, ih, readElement_snd]

@[simp] theorem readSamples_length (cnt a : Nat) (s : State) :
    (readSamples cnt a s).1.length = cnt := by
  induction cnt generalizing a s with
  | zero => rfl
  | succ cnt ih => simp [readSamples, ih]

/-- A specified element is read as it is, whatever was drawn before it. -/
theorem readSamples_specified (cnt a : Nat) (s : State) {k v : Nat} (hk : k < cnt)
    (h : s.mem.load (a + 2 * k) 2 = some v) :
    (readSamples cnt a s).1[k]? = some (BitVec.ofNat 16 v) := by
  induction cnt generalizing a s k with
  | zero => omega
  | succ cnt ih =>
    rw [readSamples]
    cases k with
    | zero =>
      rw [Nat.mul_zero, Nat.add_zero] at h
      simp [readElement_of_specified h, BitVec.setWidth_ofNat_of_le]
    | succ k =>
      rw [List.getElem?_cons_succ]
      apply ih _ _ (by omega)
      rw [readElement_snd]
      rw [show a + 2 + 2 * k = a + 2 * (k + 1) by omega]
      exact h

/-- When every element is specified, nothing is drawn. -/
theorem readSamples_no_draw (cnt a : Nat) (s : State)
    (h : ∀ k < cnt, (s.mem.load (a + 2 * k) 2).isSome = true) : (readSamples cnt a s).2 = s := by
  induction cnt generalizing a with
  | zero => rfl
  | succ cnt ih =>
    obtain ⟨v, hv⟩ := Option.isSome_iff_exists.1 (h 0 (by omega))
    rw [readSamples]
    simp only [Nat.mul_zero, Nat.add_zero] at hv
    rw [readElement_of_specified hv]
    apply ih
    intro k hk
    rw [show a + 2 + 2 * k = a + 2 * (k + 1) by omega]
    exact h (k + 1) (by omega)

/-! ### The copy loops of the CSB -/

@[simp] theorem loadSamples_length (c : Nat) (st : List (Nat × Sample)) (cnt r k : Nat) :
    (loadSamples c st cnt r k).1.length = cnt := by
  induction cnt generalizing r k with
  | zero => rfl
  | succ cnt ih => rw [loadSamples]; split <;> simp [ih]

/-- A written element is popped as it is. -/
theorem loadSamples_written (c : Nat) (st : List (Nat × Sample)) (cnt r d : Nat) {k : Nat} {x : Sample}
    (hk : k < cnt) (h : Cells.lookup st ((r + k) % c) = some x) :
    (loadSamples c st cnt r d).1[k]? = some x := by
  induction cnt generalizing r d k with
  | zero => omega
  | succ cnt ih =>
    rw [loadSamples]
    cases k with
    | zero =>
      rw [Nat.add_zero] at h
      simp [h]
    | succ k =>
      have h' : Cells.lookup st ((r + 1 + k) % c) = some x := by
        rw [show r + 1 + k = r + (k + 1) by omega]; exact h
      split
      · rw [List.getElem?_cons_succ]; exact ih _ _ (by omega) h'
      · rw [List.getElem?_cons_succ]; exact ih _ _ (by omega) h'

/-- When every element has been written, nothing is drawn. -/
theorem loadSamples_no_draw (c : Nat) (st : List (Nat × Sample)) (cnt r d : Nat)
    (h : ∀ k < cnt, (Cells.lookup st ((r + k) % c)).isSome = true) :
    (loadSamples c st cnt r d).2 = d := by
  induction cnt generalizing r with
  | zero => rfl
  | succ cnt ih =>
    obtain ⟨x, hx⟩ := Option.isSome_iff_exists.1 (h 0 (by omega))
    rw [Nat.add_zero] at hx
    rw [loadSamples, hx]
    apply ih
    intro k hk
    rw [show r + 1 + k = r + (k + 1) by omega]
    exact h (k + 1) (by omega)

/-- What STORE holds after the copy loop of a push of at most `c` elements: the pushed element at each of
the positions written, and what it held elsewhere. -/
theorem lookup_storeSamples (c : Nat) (st : List (Nat × Sample)) (w : Nat) (xs : List Sample)
    (hlen : xs.length ≤ c) (p : Nat) :
    (∀ j x, xs[j]? = some x → p = (w + j) % c → Cells.lookup (storeSamples c st w xs) p = some x) ∧
    ((∀ j < xs.length, p ≠ (w + j) % c) →
      Cells.lookup (storeSamples c st w xs) p = Cells.lookup st p) := by
  induction xs generalizing st w with
  | nil => simp [storeSamples]
  | cons y ys ih =>
    rw [List.length_cons] at hlen
    obtain ⟨ih1, ih2⟩ := ih (Cells.insert st (w % c) y) (w + 1) (by omega)
    rw [storeSamples]
    refine ⟨fun j x hj hp => ?_, fun hp => ?_⟩
    · cases j with
      | zero =>
        simp only [List.getElem?_cons_zero, Option.some.injEq] at hj
        rw [ih2, hp, hj, Nat.add_zero, Cells.lookup_insert_self]
        intro j hj' heq
        rw [hp, Nat.add_zero] at heq
        have h3 := (Nat.mod_modEq w c).symm.trans ((show w % c = (w + 1 + j) % c from heq) ▸ Nat.mod_modEq (w + 1 + j) c)
        have h4 : c ∣ (w + 1 + j) - w := (Nat.modEq_iff_dvd' (by omega)).1 h3
        have := Nat.le_of_dvd (by omega) h4
        omega
      | succ j =>
        apply ih1 j x (by simpa using hj)
        rw [hp]; congr 1; omega
    · rw [ih2, Cells.lookup_insert_ne]
      · exact fun h => hp 0 (by simp) (by simpa using h.symm)
      · intro j hj heq
        apply hp (j + 1) (by simpa using hj)
        rw [heq]; congr 1; omega

/-- The copy loop keeps STORE canonical. -/
theorem wf_storeSamples (c : Nat) (st : List (Nat × Sample)) (w : Nat) (xs : List Sample)
    (h : Cells.wf st = true) : Cells.wf (storeSamples c st w xs) = true := by
  induction xs generalizing st w with
  | nil => exact h
  | cons y ys ih => exact ih _ _ (Cells.wf_insert _ _ h)

/-- The copy loop writes below the capacity. -/
theorem storeSamples_inRange (c : Nat) (st : List (Nat × Sample)) (w : Nat) (xs : List Sample)
    (hc : 0 < c) (h : ∀ x ∈ st, x.1 < c) : ∀ x ∈ storeSamples c st w xs, x.1 < c := by
  induction xs generalizing st w with
  | nil => exact h
  | cons y ys ih =>
    apply ih
    intro x hx
    rcases Cells.mem_insert hx with rfl | hx
    · exact Nat.mod_lt _ hc
    · exact h x hx

/-! ### FifoPush and FifoPop -/

@[simp] theorem fifoPush_mode (xs : List Sample) (s : State) : (fifoPush xs s).mode = s.mode := by unfold fifoPush; dsimp only; split <;> rfl
@[simp] theorem fifoPush_cfg (xs : List Sample) (s : State) : (fifoPush xs s).cfg = s.cfg := by unfold fifoPush; dsimp only; split <;> rfl
@[simp] theorem fifoPush_derived (xs : List Sample) (s : State) : (fifoPush xs s).derived = s.derived := by unfold fifoPush; dsimp only; split <;> rfl
@[simp] theorem fifoPush_seq (xs : List Sample) (s : State) : (fifoPush xs s).seq = s.seq := by unfold fifoPush; dsimp only; split <;> rfl
@[simp] theorem fifoPush_mem (xs : List Sample) (s : State) : (fifoPush xs s).mem = s.mem := by unfold fifoPush; dsimp only; split <;> rfl
@[simp] theorem fifoPush_cmd (xs : List Sample) (s : State) : (fifoPush xs s).cmd = s.cmd := by unfold fifoPush; dsimp only; split <;> rfl
@[simp] theorem fifoPush_err (xs : List Sample) (s : State) : (fifoPush xs s).err = s.err := by unfold fifoPush; dsimp only; split <;> rfl
@[simp] theorem fifoPush_draws (xs : List Sample) (s : State) : (fifoPush xs s).draws = s.draws := by unfold fifoPush; dsimp only; split <;> rfl
@[simp] theorem fifoPush_response (xs : List Sample) (s : State) : (fifoPush xs s).response = s.response := by unfold fifoPush; dsimp only; split <;> rfl
@[simp] theorem fifoPush_hostStream (xs : List Sample) (s : State) : (fifoPush xs s).hostStream = s.hostStream := by unfold fifoPush; dsimp only; split <;> rfl
@[simp] theorem fifoPush_rxStream (xs : List Sample) (s : State) : (fifoPush xs s).rxStream = s.rxStream := by unfold fifoPush; dsimp only; split <;> rfl
@[simp] theorem fifoPush_order (xs : List Sample) (s : State) : (fifoPush xs s).order = s.order := by unfold fifoPush; dsimp only; split <;> rfl

@[simp] theorem fifoPush_store (xs : List Sample) (s : State) :
    (fifoPush xs s).csb.store = storeSamples s.derived.cap s.csb.store s.csb.wptr xs := by
  unfold fifoPush; dsimp only; split <;> rfl

@[simp] theorem fifoPush_wptr (xs : List Sample) (s : State) :
    (fifoPush xs s).csb.wptr = (s.csb.wptr + xs.length) % s.derived.cap := by
  unfold fifoPush; dsimp only; split <;> rfl

/-- AVAIL after a push: the source's `min(available + count, capacity)` (R131). -/
@[simp] theorem fifoPush_avail (xs : List Sample) (s : State) :
    (fifoPush xs s).csb.avail = min (s.csb.avail + xs.length) s.derived.cap := by
  unfold fifoPush; dsimp only
  by_cases h : s.csb.avail + xs.length > s.derived.cap
  · rw [if_pos h, Nat.min_eq_right (by omega)]
  · rw [if_neg h, Nat.min_eq_left (by omega)]

theorem fifoPush_rptr (xs : List Sample) (s : State) :
    (fifoPush xs s).csb.rptr =
      if s.csb.avail + xs.length > s.derived.cap then (s.csb.wptr + xs.length) % s.derived.cap
      else s.csb.rptr := by
  unfold fifoPush; dsimp only; split <;> rfl

theorem fifoPush_counters (xs : List Sample) (s : State) :
    (fifoPush xs s).counters =
      if s.csb.avail + xs.length > s.derived.cap then
        s.counters.addOverflow (s.csb.avail + xs.length - s.derived.cap)
      else s.counters := by
  unfold fifoPush; dsimp only; split <;> rfl

@[simp] theorem fifoPop_snd_mode (n : Nat) (s : State) : ((fifoPop n s).2).mode = s.mode := rfl
@[simp] theorem fifoPop_snd_cfg (n : Nat) (s : State) : ((fifoPop n s).2).cfg = s.cfg := rfl
@[simp] theorem fifoPop_snd_derived (n : Nat) (s : State) : ((fifoPop n s).2).derived = s.derived := rfl
@[simp] theorem fifoPop_snd_seq (n : Nat) (s : State) : ((fifoPop n s).2).seq = s.seq := rfl
@[simp] theorem fifoPop_snd_counters (n : Nat) (s : State) : ((fifoPop n s).2).counters = s.counters := rfl
@[simp] theorem fifoPop_snd_mem (n : Nat) (s : State) : ((fifoPop n s).2).mem = s.mem := rfl
@[simp] theorem fifoPop_snd_cmd (n : Nat) (s : State) : ((fifoPop n s).2).cmd = s.cmd := rfl
@[simp] theorem fifoPop_snd_err (n : Nat) (s : State) : ((fifoPop n s).2).err = s.err := rfl
@[simp] theorem fifoPop_snd_response (n : Nat) (s : State) : ((fifoPop n s).2).response = s.response := rfl
@[simp] theorem fifoPop_snd_hostStream (n : Nat) (s : State) : ((fifoPop n s).2).hostStream = s.hostStream := rfl
@[simp] theorem fifoPop_snd_rxStream (n : Nat) (s : State) : ((fifoPop n s).2).rxStream = s.rxStream := rfl
@[simp] theorem fifoPop_snd_order (n : Nat) (s : State) : ((fifoPop n s).2).order = s.order := rfl

@[simp] theorem fifoPop_length (n : Nat) (s : State) :
    (fifoPop n s).1.length = min n s.csb.avail := by simp [fifoPop]

@[simp] theorem fifoPop_snd_csb (n : Nat) (s : State) :
    (fifoPop n s).2.csb =
      { s.csb with
        rptr := (s.csb.rptr + min n s.csb.avail) % s.derived.cap
        avail := s.csb.avail - min n s.csb.avail } := rfl

/-- A pop returns what STORE holds from the read cursor on, where it has been written (R132). -/
theorem fifoPop_written (n : Nat) (s : State) {k : Nat} {x : Sample} (hk : k < min n s.csb.avail)
    (h : Cells.lookup s.csb.store ((s.csb.rptr + k) % s.derived.cap) = some x) :
    (fifoPop n s).1[k]? = some x := loadSamples_written _ _ _ _ _ hk h

/-- When every popped element has been written, a pop draws nothing. -/
theorem fifoPop_no_draw (n : Nat) (s : State)
    (h : ∀ k < min n s.csb.avail,
      (Cells.lookup s.csb.store ((s.csb.rptr + k) % s.derived.cap)).isSome = true) :
    (fifoPop n s).2.draws = s.draws := loadSamples_no_draw _ _ _ _ _ h

/-! ### The engine and BuildFreq -/

@[simp] theorem spectrumCompute_mode (raw : List Sample) (s : State) : (spectrumCompute raw s).mode = s.mode := rfl
@[simp] theorem spectrumCompute_cfg (raw : List Sample) (s : State) : (spectrumCompute raw s).cfg = s.cfg := rfl
@[simp] theorem spectrumCompute_derived (raw : List Sample) (s : State) : (spectrumCompute raw s).derived = s.derived := rfl
@[simp] theorem spectrumCompute_csb (raw : List Sample) (s : State) : (spectrumCompute raw s).csb = s.csb := rfl
@[simp] theorem spectrumCompute_seq (raw : List Sample) (s : State) : (spectrumCompute raw s).seq = s.seq := rfl
@[simp] theorem spectrumCompute_cmd (raw : List Sample) (s : State) : (spectrumCompute raw s).cmd = s.cmd := rfl
@[simp] theorem spectrumCompute_err (raw : List Sample) (s : State) : (spectrumCompute raw s).err = s.err := rfl
@[simp] theorem spectrumCompute_response (raw : List Sample) (s : State) : (spectrumCompute raw s).response = s.response := rfl
@[simp] theorem spectrumCompute_hostStream (raw : List Sample) (s : State) : (spectrumCompute raw s).hostStream = s.hostStream := rfl
@[simp] theorem spectrumCompute_rxStream (raw : List Sample) (s : State) : (spectrumCompute raw s).rxStream = s.rxStream := rfl
@[simp] theorem spectrumCompute_order (raw : List Sample) (s : State) : (spectrumCompute raw s).order = s.order := rfl

@[simp] theorem spectrumCompute_counters (raw : List Sample) (s : State) :
    (spectrumCompute raw s).counters = s.counters.addFrame := rfl

@[simp] theorem spectrumCompute_draws (raw : List Sample) (s : State) :
    (spectrumCompute raw s).draws = s.draws + 1 := rfl

@[simp] theorem buildFreq_mode (s : State) : (buildFreq s).mode = s.mode := rfl
@[simp] theorem buildFreq_cfg (s : State) : (buildFreq s).cfg = s.cfg := rfl
@[simp] theorem buildFreq_derived (s : State) : (buildFreq s).derived = s.derived := rfl
@[simp] theorem buildFreq_csb (s : State) : (buildFreq s).csb = s.csb := rfl
@[simp] theorem buildFreq_seq (s : State) : (buildFreq s).seq = s.seq := rfl
@[simp] theorem buildFreq_counters (s : State) : (buildFreq s).counters = s.counters := rfl
@[simp] theorem buildFreq_cmd (s : State) : (buildFreq s).cmd = s.cmd := rfl
@[simp] theorem buildFreq_err (s : State) : (buildFreq s).err = s.err := rfl
@[simp] theorem buildFreq_draws (s : State) : (buildFreq s).draws = s.draws := rfl
@[simp] theorem buildFreq_response (s : State) : (buildFreq s).response = s.response := rfl
@[simp] theorem buildFreq_hostStream (s : State) : (buildFreq s).hostStream = s.hostStream := rfl
@[simp] theorem buildFreq_rxStream (s : State) : (buildFreq s).rxStream = s.rxStream := rfl
@[simp] theorem buildFreq_order (s : State) : (buildFreq s).order = s.order := rfl

/-- A frame of an all-zero batch is exactly the floor (R179 (d)). -/
theorem specNum_zero (n b : Nat) {raw : List Sample} (k m : Nat) (h : ∀ x ∈ raw, x = 0) :
    specNum n b raw k m = dbFloorBits := by
  have : raw.all (fun x => x == 0) = true := by simpa using h
  rw [specNum, if_pos this]

/-- On a legal batch the frame is the one the arithmetic draws. -/
theorem specNum_eq_specDraw {n b : Nat} {raw : List Sample} (k : Nat) {m : Nat}
    (legal : LegalBatch Config.capMax Config.fftNMax n b raw) (hm : m < n) :
    specNum n b raw k m = Config.specDraw n b raw k m := by
  obtain ⟨finite, -, -, floor⟩ := Config.arithmetic.meets n b raw k legal
  unfold specNum
  split
  · rename_i zero
    exact (floor (by simpa using zero) m hm).symm
  · exact if_pos (finite m hm)

/-- The frame of a legal batch meets the contract SpecNum (R179), whatever the implementation. -/
theorem specNum_conforms {n b : Nat} {raw : List Sample} (k : Nat)
    (legal : LegalBatch Config.capMax Config.fftNMax n b raw) :
    FrameConforms Config.specTolDb Config.specPnMin n b raw (specNum n b raw k) := by
  obtain ⟨finite, accurate, band, floor⟩ := Config.arithmetic.meets n b raw k legal
  refine ⟨fun m hm => ?_, fun m hm => ?_, fun m hm => ?_, fun zero m hm => ?_⟩ <;>
    rw [specNum_eq_specDraw k legal hm]
  exacts [finite m hm, accurate m hm, band m hm, floor zero m hm]

/-! ### A command's recording -/

/-- Everything a command with a legal word can do (R106). -/
theorem runCommand_cases (opc : Byte) (legal : Mode → Bool) (rule : State → CmdEnd) (s : State) :
    (legal s.mode = true ∧ ∃ res t, rule s = .ok res t ∧
      runCommand opc legal rule s = recordStatus opc .ok res t) ∨
    (legal s.mode = true ∧ ∃ code info, rule s = .raise code info ∧
      runCommand opc legal rule s = recordStatus opc code info s) ∨
    (legal s.mode = false ∧ runCommand opc legal rule s = recordStatus opc .illegalState 0 s) := by
  cases hl : legal s.mode with
  | false => exact .inr (.inr ⟨rfl, by simp [runCommand, hl]⟩)
  | true =>
    cases hr : rule s with
    | ok res t => exact .inl ⟨rfl, res, t, rfl, by simp [runCommand, hl, hr]⟩
    | raise code info => exact .inr (.inl ⟨rfl, code, info, rfl, by simp [runCommand, hl, hr]⟩)

theorem runCommand_ok {opc : Byte} {legal : Mode → Bool} {rule : State → CmdEnd} {s t : State} {res : Nat}
    (hl : legal s.mode = true) (hr : rule s = .ok res t) :
    runCommand opc legal rule s = recordStatus opc .ok res t := by simp [runCommand, hl, hr]

theorem runCommand_raise {opc : Byte} {legal : Mode → Bool} {rule : State → CmdEnd} {s : State}
    {code : Status} {info : Nat} (hl : legal s.mode = true) (hr : rule s = .raise code info) :
    runCommand opc legal rule s = recordStatus opc code info s := by simp [runCommand, hl, hr]

theorem runCommand_illegal {opc : Byte} {legal : Mode → Bool} {rule : State → CmdEnd} {s : State}
    (hl : legal s.mode = false) :
    runCommand opc legal rule s = recordStatus opc .illegalState 0 s := by simp [runCommand, hl]

/-- Exec(w) of a legal word runs the opcode's rule. -/
theorem execCommandWord_ok {w : Word} {o : Opcode} {n : BitVec 32} (h : checkCmd w = .ok (o, n))
    (s : State) : execCommandWord w s = runOpcode o n s := by simp [execCommandWord, h]

/-- Exec(w) of a word that fails a check is that check's rejection. -/
theorem execCommandWord_error {w : Word} {r : Reject} (h : checkCmd w = .error r) (s : State) :
    execCommandWord w s = performReject r s := by simp [execCommandWord, h]

end Sys2Proof.Machine
end

