-- ==== Sys2Proof/Laws/Exec.lean ====
section
/-! SUPPORT. What the configuration checks, the accesses of the bus arrays and of the register window, and one
action of SEQ can do, said once for each. -/
namespace Sys2Proof.Machine

/-! ### The checks of INIT -/

/-- Everything `firstFalse` can answer: 0 when every check holds, else the place of the first that does
not. -/
theorem firstFalse_cases (k : Nat) (l : List Bool) :
    (firstFalse k l = 0 ∧ ∀ i < l.length, l[i]? = some true) ∨
    (∃ i < l.length, firstFalse k l = k + i ∧ l[i]? = some false ∧ ∀ j < i, l[j]? = some true) := by
  induction l generalizing k with
  | nil => exact .inl ⟨rfl, by simp⟩
  | cons c cs ih =>
    cases c with
    | false => exact .inr ⟨0, by simp, rfl, rfl, by simp⟩
    | true =>
      rcases ih (k + 1) with ⟨h0, h⟩ | ⟨i, hi, h0, h1, h2⟩
      · refine .inl ⟨h0, fun i hi => ?_⟩
        cases i with
        | zero => rfl
        | succ i => simpa using h i (by simpa using hi)
      · refine .inr ⟨i + 1, by simpa using hi, by simp [firstFalse, h0]; omega, by simpa using h1, fun j hj => ?_⟩
        cases j with
        | zero => rfl
        | succ j => simpa using h2 j (by omega)

/-! ### Accesses of the bus arrays and of the register window -/

/-- Everything a read of an array element can do: the element or a draw in range, a bus error outside. -/
theorem readArray_cases (w : Window) (i : Nat) (s : State) :
    (i < windowLen w ∧ ∃ v, s.mem.load (elemAddr w i) w.elemSize.bytes = some v ∧
      readArray w i s = respondRead (BitVec.ofNat 64 v) s) ∨
    (i < windowLen w ∧ s.mem.load (elemAddr w i) w.elemSize.bytes = none ∧ ∃ v,
      readArray w i s = respondRead v { s with draws := s.draws + 1 }) ∨
    (windowLen w ≤ i ∧ readArray w i s = busfault s) := by
  unfold readArray
  by_cases h : i < windowLen w
  · rcases readElement_cases (elemAddr w i) w.elemSize.bytes s with ⟨v, hv, e⟩ | ⟨hn, e⟩
    · exact .inl ⟨h, v, hv, by rw [if_pos h, e]⟩
    · exact .inr (.inl ⟨h, hn, _, by rw [if_pos h, e]⟩)
  · exact .inr (.inr ⟨by omega, if_neg h⟩)

/-- Everything a write of an array element can do. -/
theorem writeArray_cases (w : Window) (i v : Nat) (s : State) :
    (i < windowLen w ∧ writeArray w i v s =
      respondWrite { s with mem := s.mem.store (elemAddr w i) w.elemSize.bytes v }) ∨
    (windowLen w ≤ i ∧ writeArray w i v s = busfault s) := by
  unfold writeArray
  by_cases h : i < windowLen w
  · exact .inl ⟨h, if_pos h⟩
  · exact .inr ⟨by omega, if_neg h⟩

/-- Only offset 0 is CMD (R22). -/
theorem regAt_cmd (off : BitVec 9) (h : regAt off.toNat = some .cmd) : off = 0 := by
  have key : ∀ o : BitVec 9, regAt o.toNat = some .cmd → o = 0 := by decide +kernel
  exact key off h

/-- Everything a write of a register other than CMD can do: a configuration register is stored in IDLE, all
else is a bus error (R101). -/
theorem execHostRegWrite_cases (off : BitVec 9) (v : Word) (s : State) (h : off ≠ 0) :
    (∃ c, regAt off.toNat = some (.cfg c) ∧ s.mode = .idle ∧
      execHostRegWrite off v s = .next (respondWrite { s with cfg := c.write v s.cfg })) ∨
    execHostRegWrite off v s = .next (busfault s) := by
  unfold execHostRegWrite
  cases hr : regAt off.toNat with
  | none => exact .inr rfl
  | some r =>
    cases r with
    | cmd => exact absurd (regAt_cmd off hr) h
    | cfg c =>
      by_cases hm : s.mode = .idle
      · exact .inl ⟨c, rfl, hm, if_pos hm⟩
      · exact .inr (if_neg hm)
    | _ => exact .inr rfl

/-- Everything a read of a register can do. -/
theorem execHostRegRead_cases (off : BitVec 9) (s : State) :
    (∃ r, regAt off.toNat = some r ∧ execHostRegRead off s = .next (respondRead (r.read s) s)) ∨
    (regAt off.toNat = none ∧ execHostRegRead off s = .next (busfault s)) := by
  unfold execHostRegRead
  cases hr : regAt off.toNat with
  | none => exact .inr ⟨rfl, rfl⟩
  | some r => exact .inl ⟨r, rfl, rfl⟩

/-! ### RX events -/

/-- Everything the trigger can do (R161). -/
theorem trigger_cases (s : State) :
    (s.csb.avail ≠ s.derived.nraw ∧ trigger s = s) ∨
    (s.csb.avail = s.derived.nraw ∧
      trigger s = spectrumCompute (fifoPop s.derived.nraw s).1 (fifoPop s.derived.nraw s).2) := by
  unfold trigger
  by_cases h : s.csb.avail = s.derived.nraw
  · exact .inr ⟨h, if_pos h⟩
  · exact .inl ⟨h, if_neg h⟩

/-- Everything one iteration of the ingestion loop can do (R162). -/
theorem ingest_cases (d : List Byte) (s : State) :
    (s.mode ≠ .run ∧ ingest d s = s) ∨
    (s.mode = .run ∧ isMalformed d s = true ∧ ingest d s = { s with counters := s.counters.addMalformed }) ∨
    (s.mode = .run ∧ isMalformed d s = false ∧ ingest d s = acceptDatagram d s) := by
  unfold ingest
  by_cases h : s.mode = .run
  · cases hm : isMalformed d s with
    | true => exact .inr (.inl ⟨h, rfl, by simp [h]⟩)
    | false => exact .inr (.inr ⟨h, rfl, by simp [h]⟩)
  · exact .inl ⟨h, if_pos h⟩

/-! ### Actions of SEQ -/

/-- Everything the block can do with an operation that is no row of the opcode table. -/
theorem performReject_cases (r : Reject) (s : State) :
    performReject r s = .next (busfault s) ∨
    (∃ opc code, code ≠ .ok ∧ performReject r s = .next (recordStatus opc code 0 s)) ∨
    (r = .reservedKind ∧ performReject r s = .next s) ∨
    (r = .rxFraming ∧ performReject r s = .refused .rxFraming) := by
  cases r with
  | illegalOpcode opc => exact .inr (.inl ⟨opc, _, by decide, rfl⟩)
  | reservedField opc => exact .inr (.inl ⟨opc, _, by decide, rfl⟩)
  | reservedKind => exact .inr (.inr (.inl ⟨rfl, rfl⟩))
  | rxFraming => exact .inr (.inr (.inr ⟨rfl, rfl⟩))
  | _ => exact .inl rfl

/-- Everything a step can do, by the turn at the head of `order` (R4). -/
theorem step_cases (s : State) :
    (s.order = [] ∧ step s = .next s) ∨
    (∃ rest, s.order = .reset :: rest ∧ step s = .next (hardwareReset { s with order := rest })) ∨
    (∃ rest, s.order = .host :: rest ∧ s.hostStream = [] ∧ step s = .next { s with order := rest }) ∨
    (∃ rest t ts, s.order = .host :: rest ∧ s.hostStream = t :: ts ∧
      step s = perform (.bus t) { s with order := rest, hostStream := ts }) ∨
    (∃ rest, s.order = .rxport :: rest ∧ s.rxStream = [] ∧ step s = .next { s with order := rest }) ∨
    (∃ rest a as, s.order = .rxport :: rest ∧ s.rxStream = a :: as ∧
      step s = perform (.rx a) { s with order := rest, rxStream := as }) := by
  unfold step fetch
  rcases ho : s.order with _ | ⟨_ | _ | _, rest⟩
  · exact .inl ⟨rfl, rfl⟩
  · rcases hh : s.hostStream with _ | ⟨t, ts⟩
    · exact .inr (.inr (.inl ⟨rest, rfl, rfl, by simp⟩))
    · exact .inr (.inr (.inr (.inl ⟨rest, t, ts, rfl, rfl, rfl⟩)))
  · rcases hh : s.rxStream with _ | ⟨a, as⟩
    · exact .inr (.inr (.inr (.inr (.inl ⟨rest, rfl, rfl, by simp⟩))))
    · exact .inr (.inr (.inr (.inr (.inr ⟨rest, a, as, rfl, rfl, rfl⟩))))
  · exact .inr (.inl ⟨rest, rfl, rfl⟩)

end Sys2Proof.Machine
end

