-- ==== Sys2Proof/Laws/PerInstr.lean ====
section
/-! SUPPORT. The family EncodingMatchesTable, one lemma per constructor: the encoder writes a word of the
instruction's own row of spec/opcode_table.json. -/
namespace Sys2Proof.Laws

/-- The word of an operation that the opcode table matches (R80): the DATA of a write of CMD, the ADDR of
every other bus transaction, the descriptor of an RX event. -/
def tableWord : Operation → BitVec 64
  | .bus (.read a _) => a.setWidth 64
  | .bus (.write a _ v) => if a = 0 then v else a.setWidth 64
  | .rx a => a.desc.setWidth 64

/-- The mask and the match of an instruction's row of spec/opcode_table.json. -/
def tableRow : Instr → BitVec 64 × BitVec 64
  | .nop => (0xFFFFFFFFFFFFFFFF, 0x0000000000000000)
  | .init => (0xFFFFFFFFFFFFFFFF, 0x0000000000000001)
  | .start => (0xFFFFFFFFFFFFFFFF, 0x0000000000000002)
  | .stop => (0xFFFFFFFFFFFFFFFF, 0x0000000000000003)
  | .deinit => (0xFFFFFFFFFFFFFFFF, 0x0000000000000004)
  | .clrErr => (0xFFFFFFFFFFFFFFFF, 0x0000000000000005)
  | .fifoPush _ => (0xFFFF00000000FFFF, 0x0000000000000010)
  | .fifoPop _ => (0xFFFF00000000FFFF, 0x0000000000000011)
  | .engineRun => (0xFFFFFFFFFFFFFFFF, 0x0000000000000020)
  | .rxDatagram _ => (0xFF000000, 0x00000000)
  | .rxTimeout _ => (0xFF000000, 0x01000000)
  | .hostRegRead _ => (0xFFFFFE07, 0x00000000)
  | .hostRegWrite _ _ => (0xFFFFFE07, 0x00000000)
  | .pushbufWrite _ _ => (0xF0000001, 0x10000000)
  | .pushbufRead _ => (0xF0000001, 0x10000000)
  | .popbufRead _ => (0xF0000001, 0x20000000)
  | .specRead _ => (0xF0000003, 0x30000000)
  | .freqRead _ => (0xF0000007, 0x40000000)

/-- The word of a well-formed instruction's encoding matches the instruction's row. -/
def EncodingMatchesTable.Statement (i : Instr) : Prop :=
  i.wellFormed = true → tableWord (encode i) &&& (tableRow i).1 = (tableRow i).2

/-- The register offsets that are multiples of 8 match the register window's rows. -/
theorem regOffset_matches (off : BitVec 9) (h : off.toNat % 8 = 0) :
    (0#23 ++ off).setWidth 64 &&& 0xFFFFFE07 = 0x00000000 := by
  have key : ∀ o : BitVec 9, o.toNat % 8 = 0 → (0#23 ++ o).setWidth 64 &&& 0xFFFFFE07 = 0x00000000 := by
    decide +kernel
  exact key off h

theorem EncodingMatchesTable.nop : EncodingMatchesTable.Statement .nop := fun _ => by decide
theorem EncodingMatchesTable.init : EncodingMatchesTable.Statement .init := fun _ => by decide
theorem EncodingMatchesTable.start : EncodingMatchesTable.Statement .start := fun _ => by decide
theorem EncodingMatchesTable.stop : EncodingMatchesTable.Statement .stop := fun _ => by decide
theorem EncodingMatchesTable.deinit : EncodingMatchesTable.Statement .deinit := fun _ => by decide
theorem EncodingMatchesTable.clrErr : EncodingMatchesTable.Statement .clrErr := fun _ => by decide
theorem EncodingMatchesTable.engineRun : EncodingMatchesTable.Statement .engineRun := fun _ => by decide

/-- A vector under a mask is another when they agree bit by bit. -/
theorem and_eq_of_bits {x m v : BitVec 64} (h : ∀ j < 64, (x.getLsbD j && m.getLsbD j) = v.getLsbD j) :
    x &&& m = v := BitVec.eq_of_getLsbD_eq fun j hj => by rw [BitVec.getLsbD_and]; exact h j hj

theorem EncodingMatchesTable.fifoPush (n : BitVec 32) : EncodingMatchesTable.Statement (.fifoPush n) := fun _ =>
  and_eq_of_bits fun j hj => by
    simp only [encode, cmdWrite, tableWord, tableRow, cmdWord, Opcode.byte, if_true, BitVec.getLsbD_append]
    interval_cases j <;> simp

theorem EncodingMatchesTable.fifoPop (n : BitVec 32) : EncodingMatchesTable.Statement (.fifoPop n) := fun _ =>
  and_eq_of_bits fun j hj => by
    simp only [encode, cmdWrite, tableWord, tableRow, cmdWord, Opcode.byte, if_true, BitVec.getLsbD_append]
    interval_cases j <;> simp

theorem EncodingMatchesTable.rxDatagram (d : List Byte) : EncodingMatchesTable.Statement (.rxDatagram d) := fun _ =>
  and_eq_of_bits fun j hj => by
    simp only [encode, tableWord, tableRow, BitVec.getLsbD_setWidth, BitVec.getLsbD_append]
    interval_cases j <;> simp

theorem EncodingMatchesTable.rxTimeout (l : BitVec 24) : EncodingMatchesTable.Statement (.rxTimeout l) := fun _ =>
  and_eq_of_bits fun j hj => by
    simp only [encode, tableWord, tableRow, BitVec.getLsbD_setWidth, BitVec.getLsbD_append]
    interval_cases j <;> simp

theorem EncodingMatchesTable.hostRegRead (off : BitVec 9) : EncodingMatchesTable.Statement (.hostRegRead off) :=
  fun h => regOffset_matches off (by simpa [Instr.wellFormed] using h)

theorem EncodingMatchesTable.hostRegWrite (off : BitVec 9) (v : Word) :
    EncodingMatchesTable.Statement (.hostRegWrite off v) := fun h => by
  simp only [Instr.wellFormed, Bool.and_eq_true, decide_eq_true_eq] at h
  have key : ∀ o : BitVec 9, (0#23 ++ o : Addr) = 0 → o = 0 := by decide +kernel
  have hne : ¬ (0#23 ++ off : Addr) = 0 := fun e => h.2 (key off e)
  simp only [encode, tableWord, tableRow, if_neg hne]
  exact regOffset_matches off h.1

theorem EncodingMatchesTable.pushbufWrite (k : BitVec 27) (v : Sample) :
    EncodingMatchesTable.Statement (.pushbufWrite k v) := fun _ => by
  have hne : ¬ (0x1#4 ++ k ++ 0#1 : Addr) = 0 := fun e => by
    have h28 : (0x1#4 ++ k ++ 0#1 : Addr).getLsbD 28 = (0 : Addr).getLsbD 28 := congrArg (BitVec.getLsbD · 28) e
    simp only [BitVec.getLsbD_append] at h28
    simp at h28
  refine and_eq_of_bits fun j hj => ?_
  simp only [encode, tableWord, tableRow, if_neg hne, BitVec.getLsbD_setWidth, BitVec.getLsbD_append]
  interval_cases j <;> simp

theorem EncodingMatchesTable.pushbufRead (k : BitVec 27) : EncodingMatchesTable.Statement (.pushbufRead k) := fun _ =>
  and_eq_of_bits fun j hj => by
    simp only [encode, tableWord, tableRow, BitVec.getLsbD_setWidth, BitVec.getLsbD_append]
    interval_cases j <;> simp

theorem EncodingMatchesTable.popbufRead (k : BitVec 27) : EncodingMatchesTable.Statement (.popbufRead k) := fun _ =>
  and_eq_of_bits fun j hj => by
    simp only [encode, tableWord, tableRow, BitVec.getLsbD_setWidth, BitVec.getLsbD_append]
    interval_cases j <;> simp

theorem EncodingMatchesTable.specRead (k : BitVec 26) : EncodingMatchesTable.Statement (.specRead k) := fun _ =>
  and_eq_of_bits fun j hj => by
    simp only [encode, tableWord, tableRow, BitVec.getLsbD_setWidth, BitVec.getLsbD_append]
    interval_cases j <;> simp

theorem EncodingMatchesTable.freqRead (k : BitVec 25) : EncodingMatchesTable.Statement (.freqRead k) := fun _ =>
  and_eq_of_bits fun j hj => by
    simp only [encode, tableWord, tableRow, BitVec.getLsbD_setWidth, BitVec.getLsbD_append]
    interval_cases j <;> simp

end Sys2Proof.Laws
end

