-- ==== Sys2Proof/Tests/Slice0.lean ====
section
/-! SUPPORT. Tests. The expected values are those of spec/95_test_vectors.md (the vector is named) or worked out by
hand from the rule named. -/
namespace Sys2Proof.Tests
open Sys2Proof.Machine

/-! ## WellFormed: an ill-formed term for each check -/

theorem test_wf_datagram_too_long (d : List Byte) (h : d.length = 2 ^ 24) : (Instr.rxDatagram d).wellFormed = false :=
  decide_eq_false (by rw [h]; exact lt_irrefl _)

theorem test_wf_datagram : (Instr.rxDatagram [1, 2, 3]).wellFormed = true := by decide

theorem test_wf_read_offset : (Instr.hostRegRead 0x00C).wellFormed = false := by decide

theorem test_wf_write_offset : (Instr.hostRegWrite 0x041 0).wellFormed = false := by decide

theorem test_wf_write_of_cmd : (Instr.hostRegWrite 0x000 0).wellFormed = false := by decide

theorem test_wf_data_wider_than_size : (Operation.bus (.write 0x10000000 .b2 0x10000)).wellFormed = false := by decide

/-! ## Decoding: each constructor's word, written out from 30_encoding.md -/

/-- A write of CMD (R81). -/
def cmdWriteOf (w : Word) : Operation := .bus (.write 0x00000000 .b8 w)

theorem test_decode_nop : decode (cmdWriteOf 0x0000000000000000) = .ok .nop := by decide
theorem test_decode_init : decode (cmdWriteOf 0x0000000000000001) = .ok .init := by decide
theorem test_decode_start : decode (cmdWriteOf 0x0000000000000002) = .ok .start := by decide
theorem test_decode_stop : decode (cmdWriteOf 0x0000000000000003) = .ok .stop := by decide
theorem test_decode_deinit : decode (cmdWriteOf 0x0000000000000004) = .ok .deinit := by decide
theorem test_decode_clr_err : decode (cmdWriteOf 0x0000000000000005) = .ok .clrErr := by decide
theorem test_decode_fifo_push : decode (cmdWriteOf 0x0000000000100010) = .ok (.fifoPush 16) := by decide
theorem test_decode_fifo_pop : decode (cmdWriteOf 0x0000FFFFFFFF0011) = .ok (.fifoPop 0xFFFFFFFF) := by decide
theorem test_decode_engine_run : decode (cmdWriteOf 0x0000000000000020) = .ok .engineRun := by decide

theorem test_decode_rx_datagram :
    decode (.rx ⟨0x00000003, [0x01, 0x02, 0x03]⟩) = .ok (.rxDatagram [0x01, 0x02, 0x03]) := by decide

theorem test_decode_rx_timeout : decode (.rx ⟨0x01FFFFFF, []⟩) = .ok (.rxTimeout 0xFFFFFF) := by decide
theorem test_decode_reg_read : decode (.bus (.read 0x000001F8 .b8)) = .ok (.hostRegRead 0x1F8) := by decide
theorem test_decode_reg_write : decode (.bus (.write 0x00000050 .b8 4)) = .ok (.hostRegWrite 0x050 4) := by decide

theorem test_decode_pushbuf_write :
    decode (.bus (.write 0x10000006 .b2 0xFFFF)) = .ok (.pushbufWrite 3 0xFFFF) := by decide

theorem test_decode_pushbuf_read : decode (.bus (.read 0x1FFFFFFE .b2)) = .ok (.pushbufRead 0x7FFFFFF) := by decide
theorem test_decode_popbuf_read : decode (.bus (.read 0x2000000A .b2)) = .ok (.popbufRead 5) := by decide
theorem test_decode_spec_read : decode (.bus (.read 0x3000000C .b4)) = .ok (.specRead 3) := by decide
theorem test_decode_freq_read : decode (.bus (.read 0x40000010 .b8)) = .ok (.freqRead 2) := by decide

/-- X4 to X7 and X9: the reserved fields and the opcodes that are not in R84. -/
theorem test_decode_rejects_commands :
    decode (cmdWriteOf 0x0100000000000010) = .error (.reservedField 0x10) ∧
    decode (cmdWriteOf 0x0000000000000110) = .error (.reservedField 0x10) ∧
    decode (cmdWriteOf 0x0000000000000006) = .error (.illegalOpcode 0x06) ∧
    decode (cmdWriteOf 0xFF000000000000FF) = .error (.illegalOpcode 0xFF) ∧
    decode (cmdWriteOf 0x0000000000010020) = .error (.reservedField 0x20) := by decide

/-- X14, B3, B4, B6, B11, B13, B14, B17, B18, B19. -/
theorem test_decode_rejects_bus :
    decode (.rx ⟨0x02000010, []⟩) = .error .reservedKind ∧
    decode (.bus (.read 0x00000018 .b4)) = .error .wrongSize ∧
    decode (.bus (.read 0x0000001C .b8)) = .error .misaligned ∧
    decode (.bus (.read 0x00000200 .b8)) = .error .unmapped ∧
    decode (.bus (.write 0x10000001 .b2 0)) = .error .misaligned ∧
    decode (.bus (.write 0x20000000 .b2 0)) = .error .readOnlyArray ∧
    decode (.bus (.read 0x30000002 .b4)) = .error .misaligned ∧
    decode (.bus (.read 0x50000000 .b4)) = .error .unmapped ∧
    decode (.bus (.write 0x00000000 .b4 0)) = .error .wrongSize ∧
    decode (.bus (.read 0x10000000 .b1)) = .error .wrongSize := by decide

/-- An opcode-table word as the decoder reads it. -/
theorem test_table_words :
    decodeTableWord 64 0x0000000000070010 = some (.fifoPush 7) ∧
    decodeTableWord 32 0x01000000 = some (.rxTimeout 0) ∧
    decodeTableWord 32 0x00000000 = some (.rxDatagram []) ∧
    decodeTableWord 32 0x000000F8 = some (.hostRegRead 0x0F8) ∧
    decodeTableWord 32 0x40000010 = some (.freqRead 2) := by decide

/-! ## Small states -/

/-- `CONFIG 10, 8, 2, 1, 2, 1e6, 1e8`: C = NRAW = 4, PELEM = 1. -/
def smallCfg : CfgRegs := ⟨10, 8, 2, 1, 2, 0x412E848000000000, 0x4197D78400000000, 0, 0⟩

/-- A state with that configuration. -/
def small (m : Mode) (b : Csb) : State := { State.reset with mode := m, cfg := smallCfg, derived := ⟨4, 4, 1⟩, csb := b }

/-- A buffer with nothing unread, its cursors at 3. -/
def empty3 : Csb := ⟨[(0, 7), (1, 8), (2, 9)], 3, 3, 0⟩

/-- A buffer with one free position, the next write at index 3. -/
def three : Csb := ⟨[(0, 7), (1, 8), (2, 9)], 3, 0, 3⟩

/-- A full buffer, its oldest element at index 2. -/
def full : Csb := ⟨[(0, 7), (1, 8), (2, 5), (3, 6)], 2, 2, 4⟩

/-- The state an instruction leaves. -/
def after (i : Instr) (s : State) : Option State :=
  match exec i s with
  | .next t => some t
  | .fault _ => none
  | .refused _ => none

/-! ## Steps: at most two per instruction -/

/-- M8. -/
theorem test_nop : exec .nop (small .run full) =
    .next { small .run full with cmd := ⟨0x00, .ok, 0⟩, response := some ⟨false, 0⟩ } := rfl

/-- R108, Q1's ends (N = 2): FREQ = 99.5e6, 100e6. -/
theorem test_init : (after .init { State.reset with cfg := smallCfg, counters := ⟨1, 2, 3, 4, 5, 6⟩ }).map
    (fun t => (t.mode, t.derived, t.counters, t.mem.load 0x40000000 8, t.mem.load 0x40000008 8)) =
    some (.ready, ⟨4, 4, 1⟩, ⟨0, 0, 0, 0, 0, 0⟩, some 0x4197B8FF80000000, some 0x4197D78400000000) := by decide +kernel

/-- I1 and I22: the first failing check is the one reported. -/
theorem test_init_fails : (after .init { State.reset with cfg := { smallCfg with headerSz := 0, fftN := 0 } }).map
    (fun t => (t.mode, t.cmd, t.err)) = some (.idle, ⟨0x01, .configInvalid, 1⟩, ⟨false, true, true⟩) := by decide +kernel

/-- M1. -/
theorem test_start : (after .start (small .ready full)).map (fun t => (t.mode, t.cmd.statusWord)) =
    some (.run, 0x0200) := by decide

/-- M2. -/
theorem test_start_in_run : (after .start (small .run full)).map (fun t => (t.mode, t.cmd.statusWord)) =
    some (.run, 0x0203) := by decide

/-- M4. -/
theorem test_stop : (after .stop (small .run full)).map (fun t => (t.mode, t.cmd.statusWord, t.csb)) =
    some (.ready, 0x0300, full) := by decide

/-- M3. -/
theorem test_stop_in_ready : (after .stop (small .ready full)).map (fun t => (t.mode, t.cmd.statusWord)) =
    some (.ready, 0x0303) := by decide

/-- M6. -/
theorem test_deinit : (after .deinit { small .run full with mem := [(0x10000000, 1), (0x40000000, 2)] }).map
    (fun t => (t.mode, t.cfg, t.csb.avail, t.mem)) = some (.idle, smallCfg, 0, [(0x10000000, 1)]) := by decide

/-- M9. -/
theorem test_clr_err : (after .clrErr { State.reset with err := ⟨true, true, true⟩ }).map
    (fun t => (t.err.toWord, t.cmd.statusWord)) = some (0, 0x0500) := by decide

/-- F5, at C = 4: an overflowing push moves the read cursor to the write cursor and counts what it overwrote. -/
theorem test_fifo_push_overflow :
    (after (.fifoPush 2) { small .ready three with
      mem := [(0x10000000, 1), (0x10000001, 0), (0x10000002, 2), (0x10000003, 0)] }).map
    (fun t => (t.csb, t.counters.ovfEvents, t.counters.ovfSamples, t.cmd.result)) =
    some (⟨[(0, 2), (1, 8), (2, 9), (3, 1)], 1, 1, 4⟩, 1, 1, 2) := by decide

/-- F9. -/
theorem test_fifo_push_too_large : (after (.fifoPush 5) (small .ready three)).map
    (fun t => (t.cmd.statusWord, t.cmd.result, t.err.cmd, t.csb)) = some (0x1005, 4, true, three) := by decide

/-- F6, at C = 4: the pop wraps, and takes no more than there is. -/
theorem test_fifo_pop : (after (.fifoPop 0xFFFFFFFF) (small .ready full)).map
    (fun t => (t.csb.rptr, t.csb.avail, t.cmd.result, t.mem.load 0x20000000 2, t.mem.load 0x20000004 2)) =
    some (2, 0, 4, some 5, some 7) := by decide

/-- F7. -/
theorem test_fifo_pop_empty : (after (.fifoPop 3) (small .ready empty3)).map
    (fun t => (t.csb, t.cmd.statusWord, t.cmd.result, t.mem)) = some (empty3, 0x1100, 0, []) := by decide

/-- E14 and ER1: an all-zero batch gives -300.0 exactly. -/
theorem test_engine_run :
    (after .engineRun (small .ready ⟨[(0, 0), (1, 0), (2, 0), (3, 0)], 0, 0, 4⟩)).map
    (fun t => (t.csb.avail, t.cmd.result, t.counters.frames, t.mem.load 0x30000000 4, t.mem.load 0x30000004 4)) =
    some (0, 4, 1, some 0xC3960000, some 0xC3960000) := by decide

/-- ER2. -/
theorem test_engine_run_short : (after .engineRun (small .ready three)).map
    (fun t => (t.csb, t.cmd.statusWord, t.cmd.result)) = some (three, 0x2006, 3) := by decide

/-- L10's header and first sample, G1's gap (3 to 5, of 2 when the previous number is two below). -/
theorem test_rx_datagram :
    (after (.rxDatagram [0x01, 0x02, 0x03, 0x04, 0x05, 0x06, 0x07, 0x08, 0xFF, 0x7F])
      { small .run empty3 with seq := ⟨0x08070605040301FF, true⟩ }).map
    (fun t => (t.seq, t.counters.gapEvents, t.counters.lostEst, t.csb)) =
    some (⟨0x0807060504030201, true⟩, 1, 2, ⟨[(0, 7), (1, 8), (2, 9), (3, 0x7FFF)], 0, 3, 1⟩) := by decide

/-- L4: an odd payload is discarded and counted. -/
theorem test_rx_datagram_odd : (after (.rxDatagram [1, 0, 0, 0, 0, 0, 0, 0, 9]) (small .run three)).map
    (fun t => (t.counters.malformed, t.seq.valid, t.csb)) = some (1, false, three) := by decide

/-- X13. -/
theorem test_rx_timeout : exec (.rxTimeout 0xFFFFFF) (small .run three) = .next (small .run three) := rfl

/-- B1 and ERR's layout (R53). -/
theorem test_reg_read : (after (.hostRegRead 0x020) { State.reset with err := ⟨false, true, true⟩ }).map (·.response) =
    some (some ⟨false, 6⟩) := by decide

/-- B5. -/
theorem test_reg_read_reserved : (after (.hostRegRead 0x028) State.reset).map (fun t => (t.response, t.err.bus)) =
    some (some ⟨true, 0⟩, true) := by decide

/-- B8. -/
theorem test_reg_write : (after (.hostRegWrite 0x050 4) State.reset).map (fun t => (t.cfg.fftN, t.err.bus)) =
    some (4, false) := by decide

/-- B9. -/
theorem test_reg_write_outside_idle : (after (.hostRegWrite 0x050 8) (small .ready three)).map
    (fun t => (t.cfg.fftN, t.err.bus)) = some (2, true) := by decide

/-- B10: little-endian, in element 3. -/
theorem test_pushbuf_write : (after (.pushbufWrite 3 0x1234) (small .run three)).map (·.mem) =
    some [(0x10000006, 0x34), (0x10000007, 0x12)] := by decide +kernel

/-- B10's read. -/
theorem test_pushbuf_read : (after (.pushbufRead 3) { State.reset with mem := [(0x10000006, 0xFF), (0x10000007, 0xFF)] }).map
    (·.response) = some (some ⟨false, 0xFFFF⟩) := by decide +kernel

/-- R103: a read of an unspecified element is a draw, and no fault. -/
theorem test_popbuf_read_unspecified : (after (.popbufRead 0) State.reset).map (fun t => (t.draws, t.err.bus)) =
    some (1, false) := by decide +kernel

/-- R104. -/
theorem test_spec_read : (after (.specRead 1) { State.reset with
    mem := [(0x30000004, 0x00), (0x30000005, 0x00), (0x30000006, 0x96), (0x30000007, 0xC3)] }).map (·.response) =
    some (some ⟨false, 0xC3960000⟩) := by decide +kernel

/-- R63: an index out of range, whatever FFT_N_MAX is. -/
theorem test_spec_read_out_of_range : exec (.specRead 0x3FFFFFF) State.reset = .next (busfault State.reset) := by
  show Host.Outcome.next (readArray .specOut 0x3FFFFFF State.reset) = _
  have := Config.fftNMax_le
  rw [readArray, if_neg (by show ¬ (0x3FFFFFF : Nat) < Config.fftNMax; omega)]

/-- B16's pattern, read back. -/
theorem test_freq_read : (after (.freqRead 0) { State.reset with
    mem := [(0x40000000, 0x00), (0x40000001, 0x00), (0x40000002, 0x00), (0x40000003, 0x00), (0x40000004, 0x84),
      (0x40000005, 0xD7), (0x40000006, 0x97), (0x40000007, 0x41)] }).map (·.response) =
    some (some ⟨false, 0x4197D78400000000⟩) := by decide +kernel

/-- Q1, Q3, Q4 and Q5: the rounding, the signed zero and the overflow of R181. -/
theorem test_freq_bins :
    freqBin 0x412E848000000000 0x4197D78400000000 4 3 = 0x4197E6C640000000 ∧
    freqBin 0x412E848000000000 0x8000000000000000 2 1 = 0x0000000000000000 ∧
    freqBin 0x3FF0000000000000 0x0000000000000000 6 1 = 0xBFD5555555555555 ∧
    freqBin 0x7FE1CCF385EBC8A0 0x7FEE42D130773B76 4 1 = 0x7FE9CF944EFC494E ∧
    freqBin 0x7FE1CCF385EBC8A0 0x7FEE42D130773B76 4 3 = 0x7FF0000000000000 := by decide +kernel

/-- T1, at NRAW = 4: the datagram that fills the batch computes the frame, from the queue, and empties it. -/
theorem test_trigger :
    (after (.rxDatagram [1, 0, 0, 0, 0, 0, 0, 0, 0, 0]) (small .run ⟨[(0, 0), (1, 0), (2, 0)], 3, 0, 3⟩)).map
    (fun t => (t.csb.avail, t.csb.rptr, t.counters.frames, t.mem.load 0x30000000 4)) =
    some (0, 0, 1, some 0xC3960000) := by decide

/-- A step performs the placed operation of an opcode-table word. -/
theorem test_step_runs_word : step (State.reset.withFetchWord 64 0x06) =
    .next { State.reset with
      cmd := ⟨0x06, .illegalOpcode, 0⟩, err := ⟨false, true, false⟩, response := some ⟨false, 0⟩ } := rfl

/-! ## Witnesses: for each obligation with hypotheses, a state and operands that meet them, at the ends of each
clause's range -/

/-- The small states outside IDLE meet the buffer's invariant. -/
theorem small_inv {m : Mode} {b : Csb} (hm : m ≠ .idle) (hc : b.cursorsOk 4) (hu : b.unreadWritten 4)
    (hw : Cells.wf b.store = true) (hr : ∀ x ∈ b.store, x.1 < 4) : (small m b).CsbInv where
  idle h := absurd h hm
  checked _ := show firstFailingCheck smallCfg = 0 by decide
  derived _ := show (⟨4, 4, 1⟩ : DerivedRegs) = derivedOf smallCfg by decide
  cursors _ := hc
  written _ := hu
  canonical := hw
  inRange := hr

theorem three_ok : three.cursorsOk 4 ∧ three.unreadWritten 4 := by
  unfold Csb.cursorsOk Csb.unreadWritten; decide

theorem full_ok : full.cursorsOk 4 ∧ full.unreadWritten 4 := by
  unfold Csb.cursorsOk Csb.unreadWritten; decide

theorem empty3_ok : empty3.cursorsOk 4 ∧ empty3.unreadWritten 4 := by
  unfold Csb.cursorsOk Csb.unreadWritten; decide

theorem three_inv {m : Mode} (hm : m ≠ .idle) : (small m three).CsbInv :=
  small_inv hm three_ok.1 three_ok.2 (by decide) (by decide)

theorem full_inv {m : Mode} (hm : m ≠ .idle) : (small m full).CsbInv :=
  small_inv hm full_ok.1 full_ok.2 (by decide) (by decide)

theorem empty3_inv {m : Mode} (hm : m ≠ .idle) : (small m empty3).CsbInv :=
  small_inv hm empty3_ok.1 empty3_ok.2 (by decide) (by decide)

/-- An idle state with legal configuration registers and nothing built meets the whole invariant. -/
theorem idle_inv (o : List Source) (h : List BusTxn) :
    ({ State.reset with cfg := smallCfg, order := o, hostStream := h } : State).Inv where
  left :=
    { idle := fun _ => ⟨rfl, rfl, rfl, rfl⟩
      checked := fun h => absurd rfl h
      derived := fun h => absurd rfl h
      cursors := fun h => absurd rfl h
      written := fun h => absurd rfl h
      canonical := rfl
      inRange := fun x hx => absurd hx (List.not_mem_nil) }
  right :=
    { canonical := rfl
      whole := fun x hx => absurd hx (List.not_mem_nil)
      spec := fun i _ => ⟨fun h => (by cases h), fun h => absurd rfl h.1⟩
      freq := fun i _ => ⟨fun h => (by cases h), fun h => absurd rfl h.1⟩ }

theorem wit_DecodeOfEncode :
    (Instr.fifoPush 0xFFFFFFFF).wellFormed = true ∧ (Instr.hostRegWrite 0x1F8 5).wellFormed = true ∧
    (Instr.rxDatagram [1, 2]).wellFormed = true := by decide

theorem wit_EncodeOfDecode :
    (Operation.bus (.write 0x1FFFFFFE .b2 0xFFFF)).wellFormed = true ∧
    decode (.bus (.write 0x1FFFFFFE .b2 0xFFFF)) = .ok (.pushbufWrite 0x7FFFFFF 0xFFFF) := by decide

/-- An opcode not in R84; a reserved bit at each end of a word without operand, and of one with. -/
theorem wit_IllegalCommandWordsFail :
    cmdOpc 0x06 ∉ [0x00#8, 0x01#8, 0x02#8, 0x03#8, 0x04#8, 0x05#8, 0x10#8, 0x11#8, 0x20#8] ∧
    (cmdOpc 0x100 ∈ [0x00#8, 0x01#8, 0x02#8, 0x03#8, 0x04#8, 0x05#8, 0x20#8] ∧
      (0x100 : Word) ≠ (cmdOpc 0x100).setWidth 64) ∧
    (cmdOpc 0x8000000000000020 ∈ [0x00#8, 0x01#8, 0x02#8, 0x03#8, 0x04#8, 0x05#8, 0x20#8] ∧
      (0x8000000000000020 : Word) ≠ (cmdOpc 0x8000000000000020).setWidth 64) ∧
    (cmdOpc 0x8010 ∈ [0x10#8, 0x11#8] ∧ (0x8010 : Word) &&& 0xFFFF00000000FFFF ≠ (cmdOpc 0x8010).setWidth 64) ∧
    (cmdOpc 0x1000000000011 ∈ [0x10#8, 0x11#8] ∧
      (0x1000000000011 : Word) &&& 0xFFFF00000000FFFF ≠ (cmdOpc 0x1000000000011).setWidth 64) := by decide

theorem wit_NopOnlyRecords : cmdOpc 0x8000000000000000 = 0x00 ∧ (0x8000000000000000 : Word) ≠ 0 := by decide

/-- The first check and the last. -/
theorem wit_FirstFailingCheckIsFirst :
    firstFailingCheck CfgRegs.zero = 1 ∧ firstFailingCheck { smallCfg with centerFreq := 0xFFF0000000000000 } = 13 ∧
    firstFailingCheck smallCfg = 0 := by decide

theorem wit_InitConstructsBuffer :
    (({ State.reset with cfg := smallCfg } : State).mode = .idle ∧ firstFailingCheck smallCfg = 0 ∧
      (1 : Nat) < smallCfg.fftN.toNat) ∧
    (State.reset.mode = .idle ∧ firstFailingCheck State.reset.cfg ≠ 0) ∧ (small .run full).mode ≠ .idle := by decide

/-- An index past N, within any FFT_N_MAX above 2. -/
theorem wit_InitConstructsBuffer_beyond (h : 2 < Config.fftNMax) :
    (2 : Nat) < Config.fftNMax ∧ smallCfg.fftN.toNat ≤ 2 := ⟨h, by decide⟩

theorem wit_StartEntersRun : (small .ready full).mode = .ready ∧ (small .run full).mode ≠ .ready := by decide

theorem wit_StopEntersReady :
    (small .run full).mode = .run ∧ (small .ready full).mode ≠ .run ∧
    exec .stop (small .run full) =
      .next { small .ready full with cmd := ⟨0x03, .ok, 0⟩, response := answer 0 } := ⟨rfl, by decide, rfl⟩

theorem wit_DeinitReturnsToIdle : cmdOpc 0x8000000000000004 = 0x04 ∧ (0x8000000000000004 : Word) ≠ 0x04 := by decide

theorem wit_DeinitReturnsToIdle_idle :
    ({ State.reset with cfg := smallCfg } : State).Inv ∧ ({ State.reset with cfg := smallCfg } : State).mode = .idle :=
  ⟨idle_inv [] [], rfl⟩

theorem wit_ClrErrClearsErr : cmdOpc 0x0105 = 0x05 ∧ (0x0105 : Word) ≠ 0x05 := by decide

/-- A push that fits exactly, and one as long as the capacity onto a buffer that is not empty. -/
theorem wit_FifoPushEffect :
    [(9 : Sample)].length ≤ (small .ready three).derived.cap ∧ ¬ three.avail + [(9 : Sample)].length > 4 ∧
    [(1 : Sample), 2, 3, 4].length ≤ (small .ready three).derived.cap ∧ three.avail + 4 > 4 := by decide

theorem wit_FifoPopEffect :
    (3 : Nat) < min 9 full.avail ∧ Cells.lookup full.store ((full.rptr + 3) % 4) = some 8 ∧
    (small .ready full).csb.unreadWritten (small .ready full).derived.cap := ⟨by decide, by decide, full_ok.2⟩

theorem wit_QueueDropsOldest :
    (small .ready three).csb.cursorsOk (small .ready three).derived.cap ∧
    [(1 : Sample)].length ≤ (small .ready three).derived.cap ∧
    [(1 : Sample), 2, 3, 4].length ≤ (small .ready three).derived.cap ∧
    (small .ready three).csb.unreadWritten (small .ready three).derived.cap :=
  ⟨three_ok.1, by decide, by decide, three_ok.2⟩

/-- n = C and n = C + 1; both ends of each reserved field. -/
theorem wit_FifoPushCommand :
    (small .ready three).mode = .ready ∧ (4#32).toNat ≤ (small .ready three).derived.cap ∧
    (small .ready three).derived.cap < (5#32).toNat ∧ (small .run three).mode ≠ .ready ∧
    cmdOpc 0x0110 = 0x10 ∧ cmdRsv0 0x0110 ≠ 0 ∧ cmdOpc 0x8000000000000010 = 0x10 ∧
    cmdRsv1 0x8000000000000010 ≠ 0 := by decide

/-- A specified element of PUSH_BUF. -/
theorem wit_FifoPushCommand_specified :
    Memory.load [(0x10000000, 1), (0x10000001, 2)] (0x10000000 + 2 * 0) 2 = some 513 := by decide

theorem wit_FifoPopCommand :
    (small .ready full).mode = .ready ∧ (3 : Nat) < min (0xFFFFFFFF#32).toNat (small .ready full).csb.avail ∧
    Cells.lookup (small .ready full).csb.store (((small .ready full).csb.rptr + 3) % (small .ready full).derived.cap) =
      some 8 ∧
    (small .run full).mode ≠ .ready ∧ cmdOpc 0x0111 = 0x11 ∧ cmdRsv0 0x0111 ≠ 0 ∧
    cmdOpc 0x1000000000011 = 0x11 ∧ cmdRsv1 0x1000000000011 ≠ 0 := by decide

theorem wit_SpectrumComputeEffect : (1 : Nat) < (small .ready full).cfg.fftN.toNat := by decide

/-- AVAIL = NRAW and AVAIL = NRAW - 1. -/
theorem wit_EngineRunCommand :
    (small .ready full).mode = .ready ∧ (small .ready full).derived.nraw ≤ (small .ready full).csb.avail ∧
    (small .ready three).csb.avail < (small .ready three).derived.nraw ∧ (small .run full).mode ≠ .ready ∧
    Cells.lookup full.store ((full.rptr + 3) % 4) = some 8 ∧ cmdOpc 0x10020 = 0x20 ∧ (0x10020 : Word) ≠ 0x20 := by
  decide

theorem wit_FrameFiniteAndExactFloor :
    (1 : Nat) < (small .ready full).cfg.fftN.toNat ∧ ∀ x ∈ [(0 : Sample), 0, 0, 0], x = 0 := ⟨by decide, by simp⟩

/-- The four elements of the full buffer, as a batch. -/
theorem wit_FrameMeetsContract :
    (small .ready full).CsbInv ∧ (small .ready full).mode ≠ .idle ∧
    [(5 : Sample), 6, 7, 8].length = (small .ready full).derived.nraw := ⟨full_inv (by decide), by decide, by decide⟩

/-- The reference in range, 0 dB at the DC bin of N = 2 and another bin, and the last element of a frame. -/
theorem wit_ReferenceRange :
    ((0 : Nat) < 1 ∧ (0 : Nat) < 1) ∧
    (2 ≤ 2 ∧ 2 % 2 = 0 ∧ (0 : Nat) < 1 ∧ 2 / 2 < 2 ∧ (0 : Nat) < 2 ∧
      ∀ j < 2 * 1, refZ [0x8000, 0x8000, 0x8000, 0x8000] j = ⟨-32768, -32768⟩) ∧
    (small .ready full).CsbInv ∧ (small .ready full).mode ≠ .idle ∧
    [(5 : Sample), 6, 7, 8].length = (small .ready full).derived.nraw ∧
    (1 : Nat) < (small .ready full).cfg.fftN.toNat := by
  refine ⟨by decide, ⟨by decide, by decide, by decide, by decide, by decide, fun j hj => ?_⟩, full_inv (by decide), by decide,
    by decide, by decide⟩
  interval_cases j <;> simp [refZ, refElem]

theorem wit_IdenticalWindowsAverage :
    (0 : Nat) < 2 ∧ ∀ w < 2, ∀ t < 2, refWindow 2 [1, 2, 3, 4, 1, 2, 3, 4] w t = refWindow 2 [1, 2, 3, 4, 1, 2, 3, 4] 0 t := by
  refine ⟨by decide, fun w hw t ht => ?_⟩
  interval_cases w <;> interval_cases t <;> simp [refWindow, refZ, refElem]

theorem wit_ConstantBatchIsDc :
    (0 : Nat) < 1 ∧ 2 ≤ 2 ∧ 2 % 2 = 0 ∧ (∀ j < 2 * 1, refZ [1, 2, 1, 2] j = ⟨1, 2⟩) ∧ (0 : Nat) < 2 ∧ 0 ≠ 2 / 2 := by
  refine ⟨by decide, by decide, by decide, fun j hj => ?_, by decide, by decide⟩
  interval_cases j <;> simp [refZ, refElem]

/-- The tones at both ends of the bins of N = 2. -/
theorem wit_PureToneHasOnePeak :
    (∀ w < 1, ∀ t < 2, refWindow 2 [1, 0, -1, 0] w t =
      1 * Complex.exp (2 * (Real.pi : ℂ) * Complex.I * ((1 : Nat) : ℂ) * (t : ℂ) / ((2 : Nat) : ℂ))) ∧
    (∀ w < 1, ∀ t < 2, refWindow 2 [1, 0, 1, 0] w t =
      1 * Complex.exp (2 * (Real.pi : ℂ) * Complex.I * ((0 : Nat) : ℂ) * (t : ℂ) / ((2 : Nat) : ℂ))) := by
  have e1 : (⟨1, 0⟩ : ℂ) = 1 := rfl
  have e2 : (⟨-1, 0⟩ : ℂ) = -1 := by apply Complex.ext <;> simp
  have e3 : 2 * (Real.pi : ℂ) * Complex.I / 2 = Real.pi * Complex.I := by ring
  constructor <;> intro w hw t ht <;> interval_cases w <;> interval_cases t <;>
    simp [refWindow, refZ, refElem, e1, e2, e3, Complex.exp_pi_mul_I]

/-- The largest ratio below the threshold for the denominator 1, and the threshold; and a tie: 3/2 units lie as near
to 1 unit as to the 2 units they round to. -/
theorem wit_F64RoundsToNearestEven :
    ((0 : Nat) < 1 ∧ 1 * ((2 ^ 54 - 1) * 2 ^ 2044) - 1 < 1 * ((2 ^ 54 - 1) * 2 ^ 2044) ∧
      f64IsFinite 0x7FEFFFFFFFFFFFFF = true) ∧
    ((0 : Nat) < 2 ∧ 3 < 2 * ((2 ^ 54 - 1) * 2 ^ 2044) ∧ f64IsFinite 1 = true ∧
      f64Mag 1 ≠ f64Mag (f64Round false 3 2) ∧
      |((2 * f64Mag (f64Round false 3 2) : Nat) : Int) - (3 : Nat)| = |((2 * f64Mag 1 : Nat) : Int) - (3 : Nat)|) := by
  have positive : 0 < 2 ^ 2044 := Nat.pow_pos (by decide)
  generalize 2 ^ 2044 = big at positive ⊢
  exact ⟨⟨by decide, by omega, by decide⟩, by decide, by omega, by decide, by decide +kernel, by decide +kernel⟩

theorem wit_FreqCentreIsCenterFreq :
    2 ≤ 2 ∧ 2 % 2 = 0 ∧ f64IsFinite 0x412E848000000000 = true ∧ f64Sign 0x412E848000000000 = false ∧
    f64Mag 0x412E848000000000 ≠ 0 ∧ f64IsFinite 0x4197D78400000000 = true ∧
    f64IsFinite (f64Zero true) = true := by decide +kernel

theorem wit_FreqNeverNaN :
    2 ≤ 4 ∧ 4 % 2 = 0 ∧ 3 < 4 ∧ f64IsFinite 0x7FE1CCF385EBC8A0 = true ∧ f64Sign 0x7FE1CCF385EBC8A0 = false ∧
    f64Mag 0x7FE1CCF385EBC8A0 ≠ 0 ∧ f64IsFinite 0x7FEE42D130773B76 = true := by decide +kernel

theorem wit_DatagramOutsideRunDropped : (small .ready full).mode ≠ .run ∧ State.reset.mode ≠ .run := by decide

theorem wit_ReservedKindDropped :
    0x02 ≤ (rxKind 0x02000010).toNat ∧ 0x02 ≤ (rxKind 0xFFFFFFFF).toNat := by decide

theorem wit_TimeoutChangesNothing :
    (0x01FFFFFF : BitVec 32) &&& 0xFF000000 = 0x01000000 ∧ (0x01000000 : BitVec 32) &&& 0xFF000000 = 0x01000000 := by
  decide

theorem wit_DatagramTruncated : (small .run three).CsbInv := three_inv (by decide)

/-- L2 and L4: seven bytes, and an odd payload of one byte. -/
theorem wit_MalformedDatagramCounted :
    (small .run full).mode = .run ∧
    min [1, 2, 3, 4, 5, 6, (7 : Byte)].length (small .run full).cfg.packSz.toNat < (small .run full).cfg.headerSz.toNat ∧
    (small .run full).cfg.headerSz.toNat ≤ min [1, 2, 3, 4, 5, 6, 7, 8, (9 : Byte)].length (small .run full).cfg.packSz.toNat ∧
    (min [1, 2, 3, 4, 5, 6, 7, 8, (9 : Byte)].length (small .run full).cfg.packSz.toNat -
      (small .run full).cfg.headerSz.toNat) % 2 ≠ 0 := by decide

/-- A delta of 2 and of 1, and no previous number. -/
theorem wit_GapDetection :
    ((⟨3, true⟩ : SeqState).valid = true ∧ (3 : Word).toNat + 1 < (5 : Word).toNat) ∧
    (4 : Word).toNat ≤ (3 : Word).toNat + 1 ∧ (⟨3, false⟩ : SeqState).valid = false := by decide

/-- A datagram that leaves AVAIL below NRAW, and one that makes them equal. -/
theorem wit_DatagramAccepted :
    (small .run empty3).CsbInv ∧ (small .run three).CsbInv ∧ (small .run three).mode = .run ∧
    8 ≤ min (List.replicate 10 (1 : Byte)).length smallCfg.packSz.toNat ∧
    (min (List.replicate 10 (1 : Byte)).length smallCfg.packSz.toNat - 8) % 2 = 0 ∧
    min (empty3.avail + (wireSamples (List.replicate 10 1) 10).length) 4 ≠ 4 ∧
    min (three.avail + (wireSamples (List.replicate 10 1) 10).length) 4 = 4 :=
  ⟨empty3_inv (by decide), three_inv (by decide), rfl, by decide, by decide, by decide, by decide⟩

theorem wit_FrameCadence :
    (small .run empty3).CsbInv ∧ (small .run empty3).mode = .run ∧ (small .run empty3).csb.avail = 0 ∧
    (small .run empty3).derived.nraw % (small .run empty3).derived.pelem = 0 ∧
    (List.replicate 4 (List.replicate 10 (1 : Byte))).length =
      (small .run empty3).derived.nraw / (small .run empty3).derived.pelem ∧
    ∀ d ∈ List.replicate 4 (List.replicate 10 (1 : Byte)), d.length = (small .run empty3).cfg.packSz.toNat :=
  ⟨empty3_inv (by decide), rfl, rfl, by decide, by decide, by decide⟩

/-- T3's situation: C = 8, NRAW = 4, AVAIL = 6, and a timeout arrives. -/
def stalled : State :=
  { State.reset with
    mode := .run, derived := ⟨8, 4, 3⟩, csb := ⟨[], 6, 0, 6⟩, order := [.rxport], rxStream := [⟨0x01000000, []⟩] }

theorem wit_TriggerStall :
    stalled.csb.cursorsOk stalled.derived.cap ∧ stalled.mode = .run ∧ stalled.derived.nraw < stalled.csb.avail ∧
    step stalled = .next { stalled with order := [], rxStream := [] } := by
  refine ⟨?_, rfl, by decide, rfl⟩
  unfold Csb.cursorsOk; decide

/-- A datagram that triggers no frame. -/
theorem wit_EqualFrameCountWholeFrame :
    ∃ t, step { small .run empty3 with order := [.rxport], rxStream := [⟨0x00000008, List.replicate 8 1⟩] } = .next t ∧
      t.mode = .run ∧ t.counters.frames = 0 := ⟨_, rfl, rfl, rfl⟩

/-- A reserved offset, an offset that is no multiple of 8, and the ends of the window for the size and the
alignment. -/
theorem wit_RegisterReads :
    (0x1F8 : BitVec 9).toNat ∉ registerOffsets ∧ (0x1FF : BitVec 9).toNat ∉ registerOffsets ∧
    (0x1FF : Addr).toNat < 0x200 ∧ (0x1FF : Addr).toNat % 8 ≠ 0 ∧ (0x000 : Addr).toNat < 0x200 ∧
    BusSize.b4 ≠ .b8 := by decide

theorem wit_RegisterWrites :
    decodeCmd 0x02 = .ok .start ∧ State.reset.mode = .idle ∧
    ((0x080 : BitVec 9).toNat ∈ configOffsets ∧ (small .ready full).mode ≠ .idle) ∧
    ((0x0A8 : BitVec 9).toNat ≠ 0 ∧ (0x0A8 : BitVec 9).toNat ∉ configOffsets) ∧
    ((0x1FF : Addr).toNat < 0x200 ∧ (0x1FF : Addr).toNat % 8 ≠ 0) := by decide

/-- Indices in range, at both ends of the smallest array; a specified element; the ends of the window. -/
theorem wit_PushBufAccess :
    (0#27).toNat < Config.capMax ∧ (3#27).toNat < Config.capMax ∧
    Memory.load [(0x10000006, 1), (0x10000007, 2)] (0x10000000 + 2 * (3#27).toNat) 2 = some 513 ∧
    Memory.load [] (0x10000000 + 2 * (3#27).toNat) 2 = none ∧
    0x10000000 ≤ (0x10000000 : Addr).toNat ∧ (0x1FFFFFFF : Addr).toNat < 0x20000000 ∧
    (0x1FFFFFFF : Addr).toNat % 2 ≠ 0 ∧ BusSize.b4 ≠ .b2 := by
  have := Config.capMax_ge
  refine ⟨?_, ?_, by decide, by decide, by decide, by decide, by decide, by decide⟩ <;> simp <;> omega

/-- An index out of range, of an implementation whose arrays do not fill their windows (R6, R63). -/
theorem wit_PushBufAccess_out (h : Config.capMax < 2 ^ 27) : Config.capMax ≤ (0x7FFFFFF#27).toNat := by
  simp; omega

theorem wit_PopBufReads :
    (3#27).toNat < Config.capMax ∧
    Memory.load [(0x20000006, 1), (0x20000007, 2)] (0x20000000 + 2 * (3#27).toNat) 2 = some 513 ∧
    Memory.load [] (0x20000000 + 2 * (3#27).toNat) 2 = none ∧
    0x20000000 ≤ (0x20000000 : Addr).toNat ∧ (0x2FFFFFFF : Addr).toNat < 0x30000000 ∧
    (0x2FFFFFFF : Addr).toNat % 2 ≠ 0 ∧ BusSize.b8 ≠ .b2 := by
  have := Config.capMax_ge
  refine ⟨?_, by decide, by decide, by decide, by decide, by decide, by decide⟩; simp; omega

theorem wit_PopBufReads_out (h : Config.capMax < 2 ^ 27) : Config.capMax ≤ (0x7FFFFFF#27).toNat := by
  simp; omega

theorem wit_SpecOutReads :
    (1#26).toNat < Config.fftNMax ∧ Config.fftNMax ≤ (0x2000000#26).toNat ∧
    Memory.load [(0x30000004, 1), (0x30000005, 0), (0x30000006, 0), (0x30000007, 0)] (0x30000000 + 4 * (1#26).toNat) 4 =
      some 1 ∧
    Memory.load [] (0x30000000 + 4 * (1#26).toNat) 4 = none ∧
    0x30000000 ≤ (0x30000000 : Addr).toNat ∧ (0x3FFFFFFE : Addr).toNat < 0x40000000 ∧
    (0x3FFFFFFE : Addr).toNat % 4 ≠ 0 ∧ BusSize.b8 ≠ .b4 := by
  have := Config.fftNMax_ge
  have := Config.fftNMax_le
  refine ⟨?_, ?_, by decide, by decide, by decide, by decide, by decide, by decide⟩ <;> simp <;> omega

theorem wit_FreqReads :
    (1#25).toNat < Config.fftNMax ∧
    Memory.load [(0x40000008, 1), (0x40000009, 0), (0x4000000A, 0), (0x4000000B, 0), (0x4000000C, 0),
      (0x4000000D, 0), (0x4000000E, 0), (0x4000000F, 0)] (0x40000000 + 8 * (1#25).toNat) 8 = some 1 ∧
    Memory.load [] (0x40000000 + 8 * (1#25).toNat) 8 = none ∧
    0x40000000 ≤ (0x40000000 : Addr).toNat ∧ (0x4FFFFFFC : Addr).toNat < 0x50000000 ∧
    (0x4FFFFFFC : Addr).toNat % 8 ≠ 0 ∧ BusSize.b4 ≠ .b8 := by
  have := Config.fftNMax_ge
  refine ⟨?_, by decide, by decide, by decide, by decide, by decide, by decide⟩; simp; omega

theorem wit_FreqReads_out (h : Config.fftNMax < 2 ^ 25) : Config.fftNMax ≤ (0x1FFFFFF#25).toNat := by
  simp; omega

/-- One transaction for each condition of R193, in its order (the index condition in SPEC_OUT, where every
implementation has one). -/
theorem wit_BusErrorsRefused :
    BusError State.reset (.read 0x200 .b8) ∧ BusError State.reset (.read 0x018 .b4) ∧
    BusError State.reset (.read 0x01C .b8) ∧ BusError State.reset (.read 0x3FFFFFFC .b4) ∧
    BusError State.reset (.read 0x028 .b8) ∧ BusError State.reset (.write 0x0A8 .b8 1) ∧
    BusError State.reset (.write 0x20000000 .b2 1) ∧ BusError (small .run full) (.write 0x050 .b8 8) := by
  have hl := Config.fftNMax_le
  refine ⟨.inl ?_, .inr (.inl (by decide)), .inr (.inr (.inl (by decide))), .inr (.inr (.inr (.inl ⟨by decide, ?_⟩))),
    .inr (.inr (.inr (.inr (.inl (by decide))))), .inr (.inr (.inr (.inr (.inr (.inl ⟨_, _, _, rfl, .inl (by decide)⟩))))),
    .inr (.inr (.inr (.inr (.inr (.inl ⟨_, _, _, rfl, .inr (by decide)⟩))))),
    .inr (.inr (.inr (.inr (.inr (.inr ⟨_, _, _, rfl, by decide⟩)))))⟩
  · unfold mapped; decide
  · show endOfArray 0x3FFFFFFC ≤ 0x3FFFFFFC
    simp only [endOfArray]
    norm_num
    omega

/-- A transaction that meets none of them. -/
theorem wit_BusErrorsRefused_performed : ¬ BusError (small .run full) (.read 0x0F8 .b8) := by
  unfold BusError
  rintro (h | h | h | h | h | ⟨a, n, v, h, -⟩ | ⟨a, n, v, h, -⟩)
  · exact h (.inl (by decide))
  · exact absurd h (by decide)
  · exact absurd h (by decide)
  · exact absurd h.1 (by decide)
  · exact absurd h.2 (by decide)
  · cases h
  · cases h

theorem wit_ReadsHaveNoSideEffects :
    IsRead (.hostRegRead 0x0F8) ∧
    exec (.hostRegRead 0x0F8) (small .run full) = .next { small .run full with response := some ⟨false, 0⟩ } :=
  ⟨trivial, rfl⟩

theorem wit_ModeTransitions :
    Instr.stop.wellFormed = true ∧ exec .stop (small .run full) =
      .next { small .ready full with cmd := ⟨0x03, .ok, 0⟩, response := some ⟨false, 0⟩ } := ⟨rfl, rfl⟩

/-- Outside IDLE, and in IDLE with another instruction than a register write. -/
theorem wit_ConfigurationFrozen :
    (exec (.hostRegWrite 0x050 8) (small .run full) = .next (busfault (small .run full)) ∧
      (small .run full).mode ≠ .idle) ∧
    (exec .clrErr State.reset = .next { State.reset with cmd := ⟨0x05, .ok, 0⟩, response := some ⟨false, 0⟩ } ∧
      ∀ off v, Instr.clrErr ≠ .hostRegWrite off v) := ⟨⟨rfl, by decide⟩, rfl, (fun _ _ h => by cases h)⟩

theorem wit_FailedCommandChangesNothing :
    IsCommand .start ∧ exec .start (small .run full) = .next { small .run full with
      cmd := ⟨0x02, .illegalState, 0⟩, err := ⟨false, true, false⟩, response := some ⟨false, 0⟩ } ∧
    Status.illegalState ≠ .ok := ⟨trivial, rfl, by decide⟩

theorem wit_ErrBitsSticky :
    Instr.nop.wellFormed = true ∧ Instr.nop ≠ .clrErr ∧
    exec .nop { small .run full with err := ⟨true, true, true⟩ } = .next { small .run full with
      err := ⟨true, true, true⟩, cmd := ⟨0x00, .ok, 0⟩, response := some ⟨false, 0⟩ } := ⟨rfl, by decide, rfl⟩

/-- L2: a counter at its largest value stays there. -/
theorem wit_CountersNeverFall :
    Instr.wellFormed (.rxDatagram [7]) = true ∧ Instr.rxDatagram [7] ≠ .init ∧ Instr.rxDatagram [7] ≠ .deinit ∧
    exec (.rxDatagram [7]) { small .run full with counters := ⟨0, 0, 0, 0, 0xFFFFFFFFFFFFFFFF, 0⟩ } =
      .next { small .run full with counters := ⟨0, 0, 0, 0, 0xFFFFFFFFFFFFFFFF, 0⟩ } :=
  ⟨by decide, by decide, by decide, rfl⟩

theorem wit_RxportRegistersHaveNoEffect :
    Instr.wellFormed (.hostRegRead 0x070) = true ∧ Instr.hostRegRead 0x070 ≠ .hostRegRead 0x078 ∧
    Instr.hostRegRead 0x070 ≠ .hostRegRead 0x080 ∧
    exec (.hostRegRead 0x070) (small .run full) =
      .next { small .run full with response := some ⟨false, 0x4197D78400000000⟩ } :=
  ⟨by decide, by decide, by decide, rfl⟩

/-- A pop, which writes POP_BUF and no other array. -/
theorem wit_ArraysHaveOneWriter :
    Instr.wellFormed (.fifoPop 1) = true ∧ (small .ready full).CsbInv ∧
    (∃ t, exec (.fifoPop 1) (small .ready full) = .next t) ∧
    (∀ k v, Instr.fifoPop 1 ≠ .pushbufWrite k v) ∧ (∀ d, Instr.fifoPop 1 ≠ .rxDatagram d) ∧
    Instr.fifoPop 1 ≠ .engineRun ∧ Instr.fifoPop 1 ≠ .init ∧ Instr.fifoPop 1 ≠ .deinit :=
  ⟨rfl, full_inv (by decide), ⟨_, rfl⟩, (fun _ _ h => by cases h), (fun _ h => by cases h), by decide, by decide, by decide⟩

theorem wit_StepRunsDecodedInstruction :
    decode (.bus (.write 0 .b8 0x02)) = .ok .start ∧ Instr.start.wellFormed = true ∧
    decode (.rx ⟨0x00000001, [7]⟩) = .ok (.rxDatagram [7]) ∧ Instr.wellFormed (.rxDatagram [7]) = true ∧
    ({ State.reset with order := [.host], hostStream := [.write 0 .b8 0x02] } : State).order = .host :: [] ∧
    ({ State.reset with order := [.rxport], rxStream := [⟨0x00000001, [7]⟩] } : State).rxStream = ⟨0x00000001, [7]⟩ :: [] := by
  decide

/-- A datagram and a timeout, framed as R86 says. -/
theorem wit_StepAlwaysCompletes :
    ∀ a ∈ ({ small .run full with rxStream := [⟨0x00000001, [7]⟩, ⟨0x01000005, []⟩] } : State).rxStream, rxFramed a := by
  intro a ha
  rcases List.mem_cons.1 ha with rfl | ha
  · exact ⟨fun _ => by decide, fun h => absurd h (by decide)⟩
  · rcases List.mem_cons.1 ha with rfl | ha
    · exact ⟨fun h => absurd h (by decide), fun _ => rfl⟩
    · cases ha

theorem wit_StreamsKeepTheirOrder :
    step { State.reset with order := [.host, .host], hostStream := [.write 0 .b8 0, .read 0x018 .b8] } =
      .next { State.reset with
        order := [.host], hostStream := [.read 0x018 .b8], cmd := ⟨0x00, .ok, 0⟩, response := some ⟨false, 0⟩ } := rfl

theorem wit_HardwareResetAction :
    ({ small .run full with order := [.reset, .host] } : State).order = .reset :: [.host] := rfl

theorem wit_ResetValues : (0x108 : BitVec 9).toNat ∈ registerOffsets ∧ Window.freq ≠ .regs := by decide

/-- A datagram in RUN that completes a batch. -/
theorem wit_StepKeepsCsbInvariant :
    ({ small .run three with order := [.rxport], rxStream := [⟨0x0000000A, List.replicate 10 1⟩] } : State).CsbInv ∧
    ∃ t, step { small .run three with order := [.rxport], rxStream := [⟨0x0000000A, List.replicate 10 1⟩] } = .next t ∧
      t.csb.avail = 0 := by
  have h := three_inv (m := .run) (by decide)
  exact ⟨⟨h.idle, h.checked, h.derived, h.cursors, h.written, h.canonical, h.inRange⟩, _, rfl, rfl⟩

/-- INIT in IDLE, which builds the buffer and FREQ. -/
theorem wit_StepKeepsInvariant :
    ({ State.reset with cfg := smallCfg, order := [.host], hostStream := [.write 0 .b8 0x01] } : State).Inv ∧
    ∃ t, step { State.reset with cfg := smallCfg, order := [.host], hostStream := [.write 0 .b8 0x01] } = .next t ∧
      t.mode = .ready := ⟨idle_inv _ _, _, rfl, by decide⟩

/-- A full batch in READY with one element of a frame at -300.0, and an ENGINE_RUN to come. -/
def framed : State :=
  { small .ready full with
    mem := [(0x30000000, 0x00), (0x30000001, 0x00), (0x30000002, 0x96), (0x30000003, 0xC3)]
    order := [.host]
    hostStream := [.write 0 .b8 0x20] }

/-- The floor is a value that a frame can have. -/
theorem frameValue_dbFloorBits : FrameValue dbFloorBits := by
  have nonneg := Config.specTolDb_nonneg
  refine ⟨dbFloorBits_finite, ?_⟩
  rw [f32Value_dbFloorBits]
  have floor : dbFloor = -300 := rfl
  constructor <;> linarith

theorem framed_specInRange : framed.SpecInRange := by
  intro i _ v hv
  rcases i with _ | i
  · cases hv
    exact frameValue_dbFloorBits
  · have absent : framed.mem.byte (elemAddr .specOut (i + 1)) = none := by
      simp only [elemAddr, Window.base, Window.elemSize, BusSize.bytes, framed, Memory.byte, Cells.lookup]
      repeat' rw [if_neg (by omega)]
    rw [State.element, show Window.specOut.elemSize.bytes = 3 + 1 from rfl, Memory.load, absent] at hv
    cases hv

/-- The step that computes a frame over the old one. -/
theorem wit_StepKeepsInvariant_specOut :
    framed.CsbInv ∧ framed.SpecInRange ∧ ∃ t, step framed = .next t ∧ t.counters.frames = 1 := by
  have h := full_inv (m := .ready) (by decide)
  exact ⟨⟨h.idle, h.checked, h.derived, h.cursors, h.written, h.canonical, h.inRange⟩, framed_specInRange, _, rfl, rfl⟩

end Sys2Proof.Tests
end

section
/-! SUPPORT. What SEQ has still to take up is changed by the step alone: no shared operation, instruction or
operation touches the streams (R4, R70). -/
namespace Sys2Proof.Machine

/-- What SEQ has still to take up: the turns, and each agent's operations in the agent's order (R4). -/
def State.agenda (s : State) : List Source × List BusTxn × List RxArrival := (s.order, s.hostStream, s.rxStream)

/-- An outcome that, where it is a next state, has the agenda of `s`. -/
def KeepsAgenda (s : State) (o : Host.Outcome State Fault Refusal) : Prop := ∀ t, o = .next t → t.agenda = s.agenda

theorem keepsAgenda_next {s t : State} (h : t.agenda = s.agenda) : KeepsAgenda s (.next t) := by
  rintro _ ⟨⟩; exact h

theorem keepsAgenda_refused (s : State) (r : Refusal) : KeepsAgenda s (.refused r) := nofun

/-! ### The shared operations -/

@[simp] theorem fifoPush_agenda (xs : List Sample) (s : State) : (fifoPush xs s).agenda = s.agenda := by
  simp [State.agenda]
@[simp] theorem fifoPop_snd_agenda (n : Nat) (s : State) : (fifoPop n s).2.agenda = s.agenda := rfl
@[simp] theorem spectrumCompute_agenda (raw : List Sample) (s : State) :
    (spectrumCompute raw s).agenda = s.agenda := rfl

@[simp] theorem readSamples_snd_agenda (cnt a : Nat) (s : State) : (readSamples cnt a s).2.agenda = s.agenda := by
  rw [readSamples_snd]; rfl

@[simp] theorem readArray_agenda (w : Window) (i : Nat) (s : State) : (readArray w i s).agenda = s.agenda := by
  rcases readArray_cases w i s with ⟨-, v, -, h⟩ | ⟨-, -, v, h⟩ | ⟨-, h⟩ <;> rw [h] <;> rfl

@[simp] theorem writeArray_agenda (w : Window) (i v : Nat) (s : State) : (writeArray w i v s).agenda = s.agenda := by
  rcases writeArray_cases w i v s with ⟨-, h⟩ | ⟨-, h⟩ <;> rw [h] <;> rfl

@[simp] theorem trigger_agenda (s : State) : (trigger s).agenda = s.agenda := by
  rcases trigger_cases s with ⟨-, h⟩ | ⟨-, h⟩ <;> simp [h]

theorem ingest_agenda (d : List Byte) (s : State) : (ingest d s).agenda = s.agenda := by
  rcases ingest_cases d s with ⟨-, h⟩ | ⟨-, -, h⟩ | ⟨-, -, h⟩
  · rw [h]
  · rw [h]; rfl
  · rw [h, acceptDatagram, trigger_agenda, fifoPush_agenda]; rfl

/-! ### Commands -/

/-- A command keeps the agenda when its rule does: the recording of its end does. -/
theorem runCommand_keepsAgenda (opc : Byte) (legal : Mode → Bool) {rule : State → CmdEnd} {s : State}
    (keeps : ∀ res t, rule s = .ok res t → t.agenda = s.agenda) :
    KeepsAgenda s (.next (runCommand opc legal rule s)) := by
  apply keepsAgenda_next
  rcases runCommand_cases opc legal rule s with ⟨-, res, t, hr, h⟩ | ⟨-, code, info, -, h⟩ | ⟨-, h⟩ <;> rw [h]
  · exact keeps res t hr
  · rfl
  · rfl

theorem ruleInit_agenda {s t : State} {res : Nat} (h : ruleInit s = .ok res t) : t.agenda = s.agenda := by
  unfold ruleInit at h
  dsimp only at h
  split at h <;> cases h
  rfl

theorem ruleFifoPush_agenda {n res : Nat} {s t : State} (h : ruleFifoPush n s = .ok res t) : t.agenda = s.agenda := by
  unfold ruleFifoPush at h
  dsimp only at h
  split at h <;> cases h
  simp

theorem ruleEngineRun_agenda {s t : State} {res : Nat} (h : ruleEngineRun s = .ok res t) : t.agenda = s.agenda := by
  unfold ruleEngineRun at h
  dsimp only at h
  split at h <;> cases h
  simp

theorem runOpcode_keepsAgenda (o : Opcode) (n : BitVec 32) (s : State) : KeepsAgenda s (runOpcode o n s) := by
  cases o with
  | init => exact runCommand_keepsAgenda _ _ fun _ _ => ruleInit_agenda
  | fifoPush => exact runCommand_keepsAgenda _ _ fun _ _ => ruleFifoPush_agenda
  | engineRun => exact runCommand_keepsAgenda _ _ fun _ _ => ruleEngineRun_agenda
  | _ => exact runCommand_keepsAgenda _ _ (by rintro _ _ ⟨⟩; rfl)

theorem performReject_keepsAgenda (r : Reject) (s : State) : KeepsAgenda s (performReject r s) := by
  rcases performReject_cases r s with h | ⟨opc, code, -, h⟩ | ⟨-, h⟩ | ⟨-, h⟩ <;> rw [h]
  · exact keepsAgenda_next rfl
  · exact keepsAgenda_next rfl
  · exact keepsAgenda_next rfl
  · exact keepsAgenda_refused s _

theorem execCommandWord_keepsAgenda (w : Word) (s : State) : KeepsAgenda s (execCommandWord w s) := by
  cases h : checkCmd w with
  | error r => rw [execCommandWord_error h]; exact performReject_keepsAgenda r s
  | ok p => rw [execCommandWord_ok h]; exact runOpcode_keepsAgenda p.1 p.2 s

/-! ### Instructions and operations -/

theorem execHostRegRead_keepsAgenda (off : BitVec 9) (s : State) : KeepsAgenda s (execHostRegRead off s) := by
  rcases execHostRegRead_cases off s with ⟨r, -, h⟩ | ⟨-, h⟩ <;> rw [h] <;> exact keepsAgenda_next rfl

/-- A write of offset 0 is a command (R101), which is why this case is the command's. -/
theorem execHostRegWrite_keepsAgenda (off : BitVec 9) (v : Word) (s : State) :
    KeepsAgenda s (execHostRegWrite off v s) := by
  by_cases hoff : off = 0
  · subst hoff
    exact execCommandWord_keepsAgenda v s
  · rcases execHostRegWrite_cases off v s hoff with ⟨c, -, -, h⟩ | h <;> rw [h] <;> exact keepsAgenda_next rfl

/-- No instruction issues an operation or takes one back. -/
theorem exec_keepsAgenda (i : Instr) (s : State) : KeepsAgenda s (exec i s) := by
  cases i with
  | nop => exact runOpcode_keepsAgenda .nop 0 s
  | init => exact runOpcode_keepsAgenda .init 0 s
  | start => exact runOpcode_keepsAgenda .start 0 s
  | stop => exact runOpcode_keepsAgenda .stop 0 s
  | deinit => exact runOpcode_keepsAgenda .deinit 0 s
  | clrErr => exact runOpcode_keepsAgenda .clrErr 0 s
  | fifoPush n => exact runOpcode_keepsAgenda .fifoPush n s
  | fifoPop n => exact runOpcode_keepsAgenda .fifoPop n s
  | engineRun => exact runOpcode_keepsAgenda .engineRun 0 s
  | rxDatagram d => exact keepsAgenda_next (ingest_agenda d s)
  | rxTimeout len => exact keepsAgenda_next rfl
  | hostRegRead off => exact execHostRegRead_keepsAgenda off s
  | hostRegWrite off v => exact execHostRegWrite_keepsAgenda off v s
  | pushbufWrite k v => exact keepsAgenda_next (writeArray_agenda ..)
  | pushbufRead k => exact keepsAgenda_next (readArray_agenda ..)
  | popbufRead k => exact keepsAgenda_next (readArray_agenda ..)
  | specRead k => exact keepsAgenda_next (readArray_agenda ..)
  | freqRead k => exact keepsAgenda_next (readArray_agenda ..)

/-- An operation that decodes is its instruction's meaning (R68). -/
theorem perform_of_decode {o : Operation} {i : Instr} (h : decode o = .ok i) (s : State) :
    perform o s = exec i s := by simp [perform, h]

/-- An operation the decoder rejects is its rejection's meaning. -/
theorem perform_of_decode_error {o : Operation} {r : Reject} (h : decode o = .error r) (s : State) :
    perform o s = performReject r s := by simp [perform, h]

theorem perform_keepsAgenda (o : Operation) (s : State) : KeepsAgenda s (perform o s) := by
  cases h : decode o with
  | ok i => rw [perform_of_decode h]; exact exec_keepsAgenda i s
  | error r => rw [perform_of_decode_error h]; exact performReject_keepsAgenda r s

theorem perform_streams {o : Operation} {s t : State} (h : perform o s = .next t) :
    t.order = s.order ∧ t.hostStream = s.hostStream ∧ t.rxStream = s.rxStream := by
  simpa [State.agenda] using perform_keepsAgenda o s t h

/-! ### Steps -/

/-- A turn of HOST that has an operation to issue performs that operation. -/
theorem step_host {s : State} {rest : List Source} {t : BusTxn} {ts : List BusTxn}
    (ho : s.order = .host :: rest) (hs : s.hostStream = t :: ts) :
    step s = perform (.bus t) { s with order := rest, hostStream := ts } := by simp [step, fetch, ho, hs]

/-- A turn of RXPORT that has an event to deliver performs that event. -/
theorem step_rxport {s : State} {rest : List Source} {a : RxArrival} {as : List RxArrival}
    (ho : s.order = .rxport :: rest) (hs : s.rxStream = a :: as) :
    step s = perform (.rx a) { s with order := rest, rxStream := as } := by simp [step, fetch, ho, hs]

/-- An operation placed next is taken up at once, from the state it was placed in. -/
theorem step_placeNext (o : Operation) (s : State) : step (placeNext o s) = perform o s := by
  cases o with
  | bus t => rfl
  | rx a => rfl

end Sys2Proof.Machine
end

section
/-! The obligations on the streams. -/
namespace Sys2Proof.Proofs
open Sys2Proof Sys2Proof.Machine

/-- Settles O53: `fetch` takes the turn and the operation off, and `perform` runs what the operation decodes to. -/
theorem stepRunsDecodedInstruction : Obligations.StepRunsDecodedInstruction := by
  refine ⟨?host, ?rxport, ?placed⟩
  case host =>
    intro s i rest t ts order stream decoded _
    rw [step_host order stream, perform_of_decode decoded]
  case rxport =>
    intro s i rest a as order stream decoded _
    rw [step_rxport order stream, perform_of_decode decoded]
  case placed =>
    intro s i o decoded _
    rw [step_placeNext, perform_of_decode decoded]

/-- Settles O55: the step itself takes the turn and the operation off, and no operation changes the agenda. -/
theorem streamsKeepTheirOrder : Obligations.StreamsKeepTheirOrder := by
  intro s t next
  rcases step_cases s with ⟨order, h⟩ | ⟨rest, order, h⟩ | ⟨rest, order, stream, h⟩ |
    ⟨rest, op, ops, order, stream, h⟩ | ⟨rest, order, stream, h⟩ | ⟨rest, ev, evs, order, stream, h⟩ <;> rw [h] at next
  · cases next; simp [order]
  · cases next; simp [order]
  · cases next; simp [order, stream]
  · obtain ⟨turns, host, rx⟩ := perform_streams next
    simp [order, stream, turns, host, rx]
  · cases next; simp [order, stream]
  · obtain ⟨turns, host, rx⟩ := perform_streams next
    simp [order, stream, turns, host, rx]

end Sys2Proof.Proofs
end

section
/-! SUPPORT. The binary64 patterns of Float64: the fields of a packed pattern, the spacing of magnitudes, and
what rounding a ratio to a whole number, to a magnitude and to a pattern does (R8, R181). -/
namespace Sys2Proof.Machine

/-! ### The fields of a pattern -/

theorem f64Frac_lt (x : Word) : f64Frac x < 2 ^ 52 := (x.extractLsb' 0 52).isLt

theorem f64Sign_f64Pack (neg : Bool) (e f : Nat) : f64Sign (f64Pack neg e f) = neg := by
  rw [f64Sign, f64Pack, BitVec.getLsbD_append, if_neg (by omega), BitVec.getLsbD_append]
  cases neg <;> rfl

theorem f64Exp_f64Pack (neg : Bool) {e : Nat} (f : Nat) (h : e < 2 ^ 11) : f64Exp (f64Pack neg e f) = e := by
  have field : (f64Pack neg e f).extractLsb' 52 11 = BitVec.ofNat 11 e := by
    ext k hk
    rw [BitVec.getElem_extractLsb', f64Pack, BitVec.getLsbD_append, if_neg (by omega), BitVec.getLsbD_append,
      if_pos (by omega), Nat.add_sub_cancel_left, BitVec.getLsbD_eq_getElem]
  rw [f64Exp, field, BitVec.toNat_ofNat, Nat.mod_eq_of_lt h]

theorem f64Frac_f64Pack (neg : Bool) (e : Nat) {f : Nat} (h : f < 2 ^ 52) : f64Frac (f64Pack neg e f) = f := by
  have field : (f64Pack neg e f).extractLsb' 0 52 = BitVec.ofNat 52 f := BitVec.extractLsb'_append_eq_right
  rw [f64Frac, field, BitVec.toNat_ofNat, Nat.mod_eq_of_lt h]

theorem f64Mag_of_exp_eq_zero {x : Word} (h : f64Exp x = 0) : f64Mag x = f64Frac x := if_pos h

theorem f64Mag_of_exp_ne_zero {x : Word} (h : f64Exp x ≠ 0) :
    f64Mag x = (2 ^ 52 + f64Frac x) * 2 ^ (f64Exp x - 1) := if_neg h

/-- A magnitude is a 53-bit whole number of its binade's units; the subnormals share the lowest binade's. -/
theorem f64Mag_eq_mul (x : Word) : ∃ m < 2 ^ 53, f64Mag x = m * 2 ^ (f64Exp x - 1) := by
  have frac := f64Frac_lt x
  by_cases h : f64Exp x = 0
  · exact ⟨f64Frac x, by omega, by rw [f64Mag_of_exp_eq_zero h, h, Nat.zero_sub, Nat.pow_zero, Nat.mul_one]⟩
  · exact ⟨2 ^ 52 + f64Frac x, by omega, f64Mag_of_exp_ne_zero h⟩

/-- At every spacing `2 ^ s`, a magnitude is a multiple of it or lies below the binade that has it. -/
theorem f64Mag_multiple_or_below (x : Word) (s : Nat) :
    (∃ j, f64Mag x = j * 2 ^ s) ∨ (s ≠ 0 ∧ f64Mag x < 2 ^ 52 * 2 ^ s) := by
  obtain ⟨m, small, value⟩ := f64Mag_eq_mul x
  rw [value]
  by_cases coarse : s ≤ f64Exp x - 1
  · exact .inl ⟨m * 2 ^ (f64Exp x - 1 - s), by rw [Nat.mul_assoc, ← Nat.pow_add, Nat.sub_add_cancel coarse]⟩
  · refine .inr ⟨by omega, ?_⟩
    calc m * 2 ^ (f64Exp x - 1)
        < 2 ^ 53 * 2 ^ (f64Exp x - 1) := Nat.mul_lt_mul_of_pos_right small (Nat.two_pow_pos _)
      _ = 2 ^ 52 * 2 ^ (f64Exp x - 1 + 1) := by ring
      _ ≤ 2 ^ 52 * 2 ^ s := Nat.mul_le_mul_left _ (Nat.pow_le_pow_right (by decide) (by omega))

/-! ### The spacing of magnitudes -/

theorem le_of_f64Shift_ne_zero {q : Nat} (h : f64Shift q ≠ 0) : 2 ^ 52 * 2 ^ f64Shift q ≤ q := by
  have big : 52 < q.log2 := by rw [f64Shift] at h; omega
  have nonzero : q ≠ 0 := by rintro rfl; simp at big
  rw [← Nat.pow_add, f64Shift, Nat.add_sub_cancel' big.le]
  exact Nat.log2_self_le nonzero

theorem lt_of_f64Shift (q : Nat) : q < 2 ^ 53 * 2 ^ f64Shift q := by
  rw [← Nat.pow_add, f64Shift]
  exact Nat.lt_log2_self.trans_le (Nat.pow_le_pow_right (by decide) (by omega))

/-- The binade of `q` at or above `2 ^ 52` is the one whose bounds hold of it. -/
theorem f64Shift_eq {q s : Nat} (lo : 2 ^ 52 * 2 ^ s ≤ q) (hi : q < 2 ^ 53 * 2 ^ s) : f64Shift q = s := by
  rw [← Nat.pow_add] at lo hi
  have log : q.log2 = 52 + s :=
    (Nat.log2_eq_iff (by have := Nat.two_pow_pos (52 + s); omega)).2 ⟨lo, by rwa [show 52 + s + 1 = 53 + s by omega]⟩
  rw [f64Shift, log, Nat.add_sub_cancel_left]

/-! ### Rounding to a whole number -/

/-- How far the whole number `mag` is from `num / den`, in units of `1 / den`. -/
def missBy (num den mag : Nat) : Int := |((den * mag : Nat) : Int) - num|

theorem missBy_eq_natAbs (num den mag : Nat) : missBy num den mag = (((den * mag : Nat) : Int) - num).natAbs :=
  Int.abs_eq_natAbs _

/-- Rounding to even misses by at most one half, and by one half only to answer an even number. -/
theorem roundHalfEven_bounds (num : Nat) {den : Nat} (h : 0 < den) :
    2 * num ≤ 2 * (den * roundHalfEven num den) + den ∧ 2 * (den * roundHalfEven num den) ≤ 2 * num + den ∧
    (2 * num = 2 * (den * roundHalfEven num den) + den ∨ 2 * (den * roundHalfEven num den) = 2 * num + den →
      roundHalfEven num den % 2 = 0) := by
  have division := Nat.div_add_mod num den
  have remainder := Nat.mod_lt num h
  have next : den * (num / den + 1) = den * (num / den) + den := Nat.mul_succ ..
  unfold roundHalfEven
  dsimp only
  split
  · omega
  · split
    · rw [next]; omega
    · rcases Nat.mod_two_eq_zero_or_one (num / den) with parity | parity <;> rw [parity]
      · rw [Nat.add_zero]; omega
      · rw [next]; omega

/-- No whole number is nearer than the one answered, and another as near leaves the answer even. -/
theorem roundHalfEven_nearest (num : Nat) {den j : Nat} (h : 0 < den) (other : j ≠ roundHalfEven num den) :
    missBy num den (roundHalfEven num den) ≤ missBy num den j ∧
    (missBy num den (roundHalfEven num den) = missBy num den j → roundHalfEven num den % 2 = 0) := by
  obtain ⟨low, high, tie⟩ := roundHalfEven_bounds num h
  generalize roundHalfEven num den = k at *
  simp only [missBy_eq_natAbs]
  rcases Nat.lt_or_gt_of_ne other with less | greater
  · have apart : den * j + den ≤ den * k := Nat.mul_le_mul_left den less
    omega
  · have apart : den * k + den ≤ den * j := Nat.mul_le_mul_left den greater
    omega

theorem le_roundHalfEven {num den j : Nat} (h : 0 < den) (le : den * j ≤ num) : j ≤ roundHalfEven num den := by
  obtain ⟨low, -, -⟩ := roundHalfEven_bounds num h
  by_contra less
  have apart : den * roundHalfEven num den + den ≤ den * j := Nat.mul_le_mul_left den (not_le.1 less)
  omega

theorem roundHalfEven_le {num den j : Nat} (h : 0 < den) (le : num ≤ den * j) : roundHalfEven num den ≤ j := by
  obtain ⟨-, high, -⟩ := roundHalfEven_bounds num h
  by_contra greater
  have apart : den * j + den ≤ den * roundHalfEven num den := Nat.mul_le_mul_left den (not_le.1 greater)
  omega

/-- Less than half below `j` rounds below it. -/
theorem roundHalfEven_lt {num den j : Nat} (h : 0 < den) (lt : 2 * num + den < 2 * (den * j)) :
    roundHalfEven num den < j := by
  obtain ⟨-, high, -⟩ := roundHalfEven_bounds num h
  by_contra ge
  have apart : den * j ≤ den * roundHalfEven num den := Nat.mul_le_mul_left den (not_lt.1 ge)
  omega

/-- One half below an even `j` still rounds to it. -/
theorem le_roundHalfEven_of_even {num den j : Nat} (h : 0 < den) (even : j % 2 = 0)
    (le : 2 * (den * j) ≤ 2 * num + den) : j ≤ roundHalfEven num den := by
  obtain ⟨low, -, tie⟩ := roundHalfEven_bounds num h
  by_contra less
  have apart : den * (roundHalfEven num den + 1) ≤ den * j := Nat.mul_le_mul_left den (not_le.1 less)
  have next : den * (roundHalfEven num den + 1) = den * roundHalfEven num den + den := Nat.mul_succ ..
  have half : 2 * num = 2 * (den * roundHalfEven num den) + den := by omega
  have below : j = roundHalfEven num den + 1 := Nat.eq_of_mul_eq_mul_left h (by omega)
  have parity := tie (.inl half)
  omega

/-! ### Rounding to a magnitude -/

/-- The whole number of units that `num / den` rounds to, in the spacing of its binade. -/
def f64Digits (num den : Nat) : Nat := roundHalfEven num (den * 2 ^ f64Shift (num / den))

theorem f64RoundMag_eq (num den : Nat) : f64RoundMag num den = f64Digits num den * 2 ^ f64Shift (num / den) := rfl

theorem unit_pos {den : Nat} (h : 0 < den) (s : Nat) : 0 < den * 2 ^ s := Nat.mul_pos h (Nat.two_pow_pos s)

theorem le_f64Digits {num den : Nat} (h : 0 < den) (shift : f64Shift (num / den) ≠ 0) :
    2 ^ 52 ≤ f64Digits num den := by
  apply le_roundHalfEven (unit_pos h _)
  have low := (Nat.le_div_iff_mul_le h).1 (le_of_f64Shift_ne_zero shift)
  linarith

theorem f64Digits_le {num den : Nat} (h : 0 < den) : f64Digits num den ≤ 2 ^ 53 := by
  apply roundHalfEven_le (unit_pos h _)
  have high := (Nat.div_lt_iff_lt_mul h).1 (lt_of_f64Shift (num / den))
  linarith

/-- Counting in units of `2 ^ s` moves the spacing into the denominator. -/
theorem missBy_mul_pow (num den k s : Nat) : missBy num den (k * 2 ^ s) = missBy num (den * 2 ^ s) k := by
  rw [missBy, missBy, Nat.mul_comm k, ← Nat.mul_assoc]

/-- Of two whole numbers at or below `num / den` the greater is nearer. -/
theorem missBy_lt_of_lt {num den a b : Nat} (h : 0 < den) (less : a < b) (below : den * b ≤ num) :
    missBy num den b < missBy num den a := by
  have apart : den * a < den * b := Nat.mul_lt_mul_of_pos_left less h
  simp only [missBy_eq_natAbs]
  omega

/-- No pattern's magnitude is nearer than the rounded one, and another as near leaves the digits even. A magnitude
that is no multiple of the spacing lies below the binade, whose least magnitude is nearer. -/
theorem f64RoundMag_nearest (num : Nat) {den : Nat} (h : 0 < den) (z : Word)
    (other : f64Mag z ≠ f64RoundMag num den) :
    missBy num den (f64RoundMag num den) ≤ missBy num den (f64Mag z) ∧
    (missBy num den (f64RoundMag num den) = missBy num den (f64Mag z) → f64Digits num den % 2 = 0) := by
  rw [f64RoundMag_eq] at *
  have unit := unit_pos h (f64Shift (num / den))
  rcases f64Mag_multiple_or_below z (f64Shift (num / den)) with ⟨j, multiple⟩ | ⟨shift, below⟩
  · rw [multiple] at other ⊢
    rw [missBy_mul_pow, missBy_mul_pow]
    exact roundHalfEven_nearest num unit fun same => other (by rw [same]; rfl)
  · have least := (Nat.le_div_iff_mul_le h).1 (le_of_f64Shift_ne_zero shift)
    have farther := missBy_lt_of_lt (num := num) h below (by rwa [Nat.mul_comm])
    have nearest : missBy num den (f64Digits num den * 2 ^ f64Shift (num / den)) ≤
        missBy num den (2 ^ 52 * 2 ^ f64Shift (num / den)) := by
      rw [missBy_mul_pow, missBy_mul_pow]
      by_cases same : 2 ^ 52 = f64Digits num den
      · rw [same]
      · exact (roundHalfEven_nearest num unit same).1
    exact ⟨by omega, by omega⟩

/-! ### The overflow threshold

It is half a unit below the least magnitude that is too large; the lemmas hold for every exponent bound. -/

/-- The threshold as a count of `den * 2 ^ n`. -/
theorem threshold_eq (den n : Nat) : den * ((2 ^ 54 - 1) * 2 ^ n) = (2 ^ 54 - 1) * (den * 2 ^ n) := Nat.mul_left_comm ..

theorem shift_lt_of_mul_pow_lt {k s n : Nat} (normal : 2 ^ 52 ≤ k) (lt : k * 2 ^ s < 2 ^ n) : 52 + s < n := by
  apply (Nat.pow_lt_pow_iff_right (a := 2) (by decide)).1
  rw [Nat.pow_add]
  exact (Nat.mul_le_mul_right _ normal).trans_lt lt

theorem f64RoundMag_lt {num den n m : Nat} (h : 0 < den) (exponent : m = n + 54)
    (below : num < den * ((2 ^ 54 - 1) * 2 ^ n)) : f64RoundMag num den < 2 ^ m := by
  subst exponent
  rw [threshold_eq] at below
  have digits := f64Digits_le (num := num) h
  have shift : f64Shift (num / den) ≤ n + 1 := by
    by_contra large
    have low := le_of_f64Shift_ne_zero (q := num / den) (by omega)
    have high : num / den < 2 ^ (n + 54) := by
      rw [Nat.div_lt_iff_lt_mul h, show 2 ^ (n + 54) * den = 2 ^ 54 * (den * 2 ^ n) by ring]
      omega
    have := shift_lt_of_mul_pow_lt le_rfl (low.trans_lt high)
    omega
  rw [f64RoundMag_eq]
  rcases shift.lt_or_eq with small | last
  · calc f64Digits num den * 2 ^ f64Shift (num / den)
        ≤ 2 ^ 53 * 2 ^ n := Nat.mul_le_mul digits (Nat.pow_le_pow_right (by decide) (by omega))
      _ < 2 ^ (n + 54) := by
        rw [Nat.pow_add, Nat.mul_comm]
        exact Nat.mul_lt_mul_of_pos_left (by decide) (Nat.two_pow_pos n)
  · have less : f64Digits num den < 2 ^ 53 := by
      apply roundHalfEven_lt (unit_pos h _)
      rw [last, show den * 2 ^ (n + 1) = 2 * (den * 2 ^ n) by ring]
      omega
    calc f64Digits num den * 2 ^ f64Shift (num / den)
        < 2 ^ 53 * 2 ^ (n + 1) := by rw [last]; exact Nat.mul_lt_mul_of_pos_right less (Nat.two_pow_pos _)
      _ = 2 ^ (n + 54) := by ring

theorem le_f64RoundMag {num den n m : Nat} (h : 0 < den) (exponent : m = n + 54)
    (above : den * ((2 ^ 54 - 1) * 2 ^ n) ≤ num) : 2 ^ m ≤ f64RoundMag num den := by
  subst exponent
  rw [threshold_eq] at above
  have shift : n < f64Shift (num / den) := by
    have low : 2 ^ 53 * 2 ^ n ≤ num / den := by
      rw [Nat.le_div_iff_mul_le h, show 2 ^ 53 * 2 ^ n * den = 2 ^ 53 * (den * 2 ^ n) by ring]
      omega
    have high := low.trans_lt (lt_of_f64Shift (num / den))
    exact (Nat.pow_lt_pow_iff_right (by decide)).1 (Nat.lt_of_mul_lt_mul_left high)
  rw [f64RoundMag_eq]
  rcases Nat.lt_or_eq_of_le (show n + 1 ≤ f64Shift (num / den) from shift) with large | first
  · calc 2 ^ (n + 54) = 2 ^ 52 * 2 ^ (n + 2) := by ring
      _ ≤ f64Digits num den * 2 ^ f64Shift (num / den) :=
        Nat.mul_le_mul (le_f64Digits h (by omega)) (Nat.pow_le_pow_right (by decide) large)
  · have digits : 2 ^ 53 ≤ f64Digits num den := by
      apply le_roundHalfEven_of_even (unit_pos h _) (by decide)
      rw [← first, show den * 2 ^ (n + 1) = 2 * (den * 2 ^ n) by ring]
      omega
    calc 2 ^ (n + 54) = 2 ^ 53 * 2 ^ (n + 1) := by ring
      _ ≤ f64Digits num den * 2 ^ f64Shift (num / den) := by
        rw [← first]; exact Nat.mul_le_mul_right _ digits

/-! ### The pattern of a magnitude -/

theorem f64IsFinite_f64Pack (neg : Bool) {e : Nat} (f : Nat) (h : e < 0x7FF) :
    f64IsFinite (f64Pack neg e f) = true := by
  rw [f64IsFinite, f64Exp_f64Pack neg f (by omega)]
  exact decide_eq_true (by omega)

theorem f64OfMag_subnormal (neg : Bool) {mag : Nat} (h : mag < 2 ^ 52) : f64OfMag neg mag = f64Pack neg 0 mag :=
  if_pos h

theorem f64OfMag_normal (neg : Bool) {k s : Nat} (lo : 2 ^ 52 ≤ k) (hi : k < 2 ^ 53) (lt : k * 2 ^ s < 2 ^ 2098) :
    f64OfMag neg (k * 2 ^ s) = f64Pack neg (s + 1) (k - 2 ^ 52) := by
  have unit := Nat.two_pow_pos s
  have shift : f64Shift (k * 2 ^ s) = s :=
    f64Shift_eq (Nat.mul_le_mul_right _ lo) (Nat.mul_lt_mul_of_pos_right hi unit)
  have normal : ¬ k * 2 ^ s < 2 ^ 52 := not_lt.2 (lo.trans (Nat.le_mul_of_pos_right k unit))
  rw [f64OfMag, if_neg normal, if_pos lt, shift, Nat.mul_div_cancel k unit]

theorem f64OfMag_overflow (neg : Bool) {mag : Nat} (h : 2 ^ 2098 ≤ mag) : f64OfMag neg mag = f64Inf neg := by
  have large : 2 ^ 52 ≤ mag := (Nat.pow_le_pow_right (by decide) (by decide)).trans h
  rw [f64OfMag, if_neg (not_lt.2 large), if_neg (not_lt.2 h)]

/-- `x` is the finite pattern of a sign and of `k` units of `2 ^ s`, its last fraction bit 0 where `k` is even. -/
structure Represents (x : Word) (neg : Bool) (k s : Nat) : Prop where
  finite : f64IsFinite x = true
  sign : f64Sign x = neg
  mag : f64Mag x = k * 2 ^ s
  even : k % 2 = 0 → f64Frac x % 2 = 0

theorem represents_subnormal (neg : Bool) {k : Nat} (h : k < 2 ^ 52) :
    Represents (f64Pack neg 0 k) neg k 0 where
  finite := f64IsFinite_f64Pack neg k (by decide)
  sign := f64Sign_f64Pack neg 0 k
  mag := by
    rw [f64Mag_of_exp_eq_zero (f64Exp_f64Pack neg k (by decide)), f64Frac_f64Pack neg 0 h, Nat.pow_zero, Nat.mul_one]
  even parity := by rwa [f64Frac_f64Pack neg 0 h]

theorem represents_normal (neg : Bool) {k s : Nat} (lo : 2 ^ 52 ≤ k) (hi : k < 2 ^ 53) (h : s + 1 < 0x7FF) :
    Represents (f64Pack neg (s + 1) (k - 2 ^ 52)) neg k s where
  finite := f64IsFinite_f64Pack neg _ h
  sign := f64Sign_f64Pack ..
  mag := by
    have exp : f64Exp (f64Pack neg (s + 1) (k - 2 ^ 52)) = s + 1 := f64Exp_f64Pack neg _ (by omega)
    rw [f64Mag_of_exp_ne_zero (by omega), exp, f64Frac_f64Pack neg _ (by omega), Nat.add_sub_cancel' lo,
      Nat.add_sub_cancel]
  even parity := by rw [f64Frac_f64Pack neg _ (by omega)]; omega

/-- Rounding up to `2 ^ 53` units is the least magnitude of the next binade. -/
theorem f64OfMag_represents (neg : Bool) {k s : Nat} (normal : s ≠ 0 → 2 ^ 52 ≤ k) (digits : k ≤ 2 ^ 53)
    (lt : k * 2 ^ s < 2 ^ 2098) : Represents (f64OfMag neg (k * 2 ^ s)) neg k s := by
  by_cases lo : 2 ^ 52 ≤ k
  · have shift := shift_lt_of_mul_pow_lt lo lt
    rcases digits.lt_or_eq with hi | rfl
    · rw [f64OfMag_normal neg lo hi lt]
      exact represents_normal neg lo hi (by omega)
    · have carry : 2 ^ 53 * 2 ^ s = 2 ^ 52 * 2 ^ (s + 1) := by ring
      rw [carry] at lt ⊢
      have shift := shift_lt_of_mul_pow_lt le_rfl lt
      rw [f64OfMag_normal neg le_rfl (by decide) lt]
      obtain ⟨finite, sign, mag, even⟩ :=
        represents_normal neg (k := 2 ^ 52) (s := s + 1) le_rfl (by decide) (by omega)
      exact ⟨finite, sign, mag.trans carry.symm, fun _ => even (by decide)⟩
  · obtain rfl : s = 0 := by_contra fun h => lo (normal h)
    rw [Nat.pow_zero, Nat.mul_one, f64OfMag_subnormal neg (not_le.1 lo)]
    exact represents_subnormal neg (not_le.1 lo)

/-- Below the threshold a ratio rounds to a finite pattern of its sign, whose magnitude is the rounded one. -/
theorem f64Round_represents (neg : Bool) {num den : Nat} (h : 0 < den)
    (below : num < den * ((2 ^ 54 - 1) * 2 ^ 2044)) :
    Represents (f64Round neg num den) neg (f64Digits num den) (f64Shift (num / den)) :=
  f64OfMag_represents neg (le_f64Digits h) (f64Digits_le h) (f64RoundMag_lt h rfl below)

end Sys2Proof.Machine
end

section
/-! The obligation on binary64 rounding. -/
namespace Sys2Proof.Proofs
open Sys2Proof Sys2Proof.Machine

/-- Settles O25: the rounded magnitude is a nearest one, a pattern holds it exactly below the threshold, and at
the threshold it reaches `2 ^ 1024`. -/
theorem f64RoundsToNearestEven : Obligations.F64RoundsToNearestEven := by
  intro neg num den positive
  refine ⟨fun below => ?_, fun above => f64OfMag_overflow neg (le_f64RoundMag positive rfl above)⟩
  obtain ⟨finite, sign, mag, even⟩ := f64Round_represents neg positive below
  rw [← f64RoundMag_eq] at mag
  rw [mag]
  refine ⟨finite, sign, fun z _ => ?_, fun z _ other tie => ?_⟩
  · by_cases same : f64Mag z = f64RoundMag num den
    · rw [same]
    · exact (f64RoundMag_nearest num positive z same).1
  · exact even ((f64RoundMag_nearest num positive z other).2 tie)

end Sys2Proof.Proofs
end

section
/-! SUPPORT. What one instruction does to the data of the block, the state without the recording of commands, the
answers and the draws: said once for every instruction, and carried to operations and steps. -/
namespace Sys2Proof.Machine

/-- What the invariants of the block speak of (R21 to R49). -/
def State.data (s : State) : Mode × CfgRegs × DerivedRegs × Csb × SeqState × Counters × Memory :=
  (s.mode, s.cfg, s.derived, s.csb, s.seq, s.counters, s.mem)

theorem data_eq_iff {s t : State} : t.data = s.data ↔
    t.mode = s.mode ∧ t.cfg = s.cfg ∧ t.derived = s.derived ∧ t.csb = s.csb ∧ t.seq = s.seq ∧
      t.counters = s.counters ∧ t.mem = s.mem := by
  simp [State.data]

/-- The state INIT constructs (R108). -/
def constructed (s : State) : State :=
  { buildFreq (clearRun { s with derived := derivedOf s.cfg }) with mode := .ready }

/-- The state DEINIT leaves (R112). -/
def tornDown (s : State) : State := { clearRun { s with derived := .zero } with mode := .idle }

/-- One frame from the oldest NRAW elements, by the trigger or by ENGINE_RUN (R161, R182). -/
def computeFrame (s : State) : State :=
  spectrumCompute (fifoPop s.derived.nraw s).1 (fifoPop s.derived.nraw s).2

/-- The oldest `min n AVAIL` elements moved to POP_BUF (R137). -/
def popped (n : Nat) (s : State) : State :=
  { (fifoPop n s).2 with
    mem := s.mem.storeElems (elemAddr .popBuf 0) 2 ((fifoPop n s).1.map BitVec.toNat) }

/-- The sequence number of an accepted datagram taken in (R156 to R158). -/
def numbered (d : List Byte) (s : State) : State :=
  { s with counters := gapDetect s.seq (parseSeq d) s.counters, seq := ⟨parseSeq d, true⟩ }

/-- An accepted datagram before the trigger (R156 to R160). -/
def received (d : List Byte) (s : State) : State := fifoPush (payload d s) (numbered d s)

/-! ### One equation per branch of a shared operation -/

theorem fifoPush_of_overflow {xs : List Sample} {s : State} (h : s.csb.avail + xs.length > s.derived.cap) :
    fifoPush xs s = { s with
      csb := ⟨storeSamples s.derived.cap s.csb.store s.csb.wptr xs, (s.csb.wptr + xs.length) % s.derived.cap,
        (s.csb.wptr + xs.length) % s.derived.cap, s.derived.cap⟩
      counters := s.counters.addOverflow (s.csb.avail + xs.length - s.derived.cap) } := if_pos h

theorem fifoPush_of_fits {xs : List Sample} {s : State} (h : ¬ s.csb.avail + xs.length > s.derived.cap) :
    fifoPush xs s = { s with
      csb := ⟨storeSamples s.derived.cap s.csb.store s.csb.wptr xs, (s.csb.wptr + xs.length) % s.derived.cap,
        s.csb.rptr, s.csb.avail + xs.length⟩ } := if_neg h

theorem trigger_of_full {s : State} (h : s.csb.avail = s.derived.nraw) : trigger s = computeFrame s := if_pos h

theorem trigger_of_not_full {s : State} (h : s.csb.avail ≠ s.derived.nraw) : trigger s = s := if_neg h

theorem ruleEngineRun_of_short {s : State} (h : s.csb.avail < s.derived.nraw) :
    ruleEngineRun s = .raise .insufficientData s.csb.avail := if_pos h

theorem ruleEngineRun_of_enough {s : State} (h : ¬ s.csb.avail < s.derived.nraw) :
    ruleEngineRun s = .ok s.derived.nraw (computeFrame s) := if_neg h

/-! ### Effects -/

theorem acceptDatagram_cases (d : List Byte) (s : State) :
    acceptDatagram d s = received d s ∨
    ((received d s).csb.avail = (received d s).derived.nraw ∧ acceptDatagram d s = computeFrame (received d s)) := by
  rcases trigger_cases (received d s) with ⟨-, h⟩ | ⟨full, h⟩
  · exact .inl h
  · exact .inr ⟨full, h⟩

/-- `Effect s i u`: `u` has the data that the instruction `i` leaves of `s`. -/
inductive Effect (s : State) : Instr → State → Prop
  /-- Reads, refusals, drops, failed commands and the commands that only record. -/
  | quiet (i : Instr) : Effect s i s
  | init : s.mode = .idle → firstFailingCheck s.cfg = 0 → Effect s .init (constructed s)
  | start : s.mode = .ready → Effect s .start { s with mode := .run }
  | stop : s.mode = .run → Effect s .stop { s with mode := .ready }
  | deinit : Effect s .deinit (tornDown s)
  | fifoPush (n : BitVec 32) (xs : List Sample) :
      s.mode = .ready → xs.length ≤ s.derived.cap → Effect s (.fifoPush n) (fifoPush xs s)
  | fifoPop (n : BitVec 32) : s.mode = .ready → Effect s (.fifoPop n) (popped n.toNat s)
  | engineRun : s.mode = .ready → s.derived.nraw ≤ s.csb.avail → Effect s .engineRun (computeFrame s)
  | malformed (d : List Byte) :
      s.mode = .run → Effect s (.rxDatagram d) { s with counters := s.counters.addMalformed }
  | accepted (d : List Byte) :
      s.mode = .run → isMalformed d s = false → Effect s (.rxDatagram d) (acceptDatagram d s)
  | configure (off : BitVec 9) (c : CfgReg) (v : Word) :
      s.mode = .idle → Effect s (.hostRegWrite off v) { s with cfg := c.write v s.cfg }
  | pushbufWrite (k : BitVec 27) (v : Sample) : k.toNat < Config.capMax →
      Effect s (.pushbufWrite k v) { s with mem := s.mem.store (elemAddr .pushBuf k.toNat) 2 v.toNat }

/-- An outcome that, where it is a next state, has the data of an effect of `i` on `s`. -/
def HasEffect (s : State) (i : Instr) (o : Host.Outcome State Fault Refusal) : Prop :=
  ∀ t, o = .next t → ∃ u, Effect s i u ∧ t.data = u.data

theorem hasEffect_of_data {s t u : State} {i : Instr} (effect : Effect s i u) (h : t.data = u.data) :
    HasEffect s i (.next t) := by
  rintro _ ⟨⟩; exact ⟨u, effect, h⟩

theorem hasEffect_quiet {s t : State} (i : Instr) (h : t.data = s.data) : HasEffect s i (.next t) :=
  hasEffect_of_data (.quiet i) h

/-! ### Commands -/

/-- A command has an effect when its rule's end, in a legal mode, has: all else is recording. -/
theorem runCommand_hasEffect {opc : Byte} {legal : Mode → Bool} {rule : State → CmdEnd} {s : State} {i : Instr}
    (ends : legal s.mode = true → ∀ res t, rule s = .ok res t → ∃ u, Effect s i u ∧ t.data = u.data) :
    HasEffect s i (.next (runCommand opc legal rule s)) := by
  rcases runCommand_cases opc legal rule s with ⟨hl, res, t, hr, h⟩ | ⟨-, code, info, -, h⟩ | ⟨-, h⟩ <;> rw [h]
  · obtain ⟨u, effect, data⟩ := ends hl res t hr
    exact hasEffect_of_data effect data
  · exact hasEffect_quiet i rfl
  · exact hasEffect_quiet i rfl

theorem onlyMode_iff {m x : Mode} : onlyMode m x = true ↔ x = m := decide_eq_true_iff

theorem ruleInit_ok {s t : State} {res : Nat} (h : ruleInit s = .ok res t) :
    firstFailingCheck s.cfg = 0 ∧ t = constructed s := by
  by_cases failing : firstFailingCheck s.cfg ≠ 0
  · rw [ruleInit, if_pos failing] at h
    cases h
  · rw [ruleInit, if_neg failing] at h
    cases h
    exact ⟨not_not.1 failing, rfl⟩

theorem ruleFifoPush_ok {n res : Nat} {s t : State} (h : ruleFifoPush n s = .ok res t) :
    ∃ (xs : List Sample) (k : Nat), xs.length ≤ s.derived.cap ∧ t = fifoPush xs { s with draws := k } := by
  by_cases large : n > s.derived.cap
  · rw [ruleFifoPush, if_pos large] at h
    cases h
  · rw [ruleFifoPush, if_neg large] at h
    cases h
    rw [readSamples_snd]
    exact ⟨_, _, by simpa using large, rfl⟩

/-- A push does not depend on the draws. -/
theorem fifoPush_data_of_draws (xs : List Sample) (k : Nat) (s : State) :
    (fifoPush xs { s with draws := k }).data = (fifoPush xs s).data := by
  by_cases overflow : s.csb.avail + xs.length > s.derived.cap
  · rw [fifoPush_of_overflow overflow, fifoPush_of_overflow (s := { s with draws := k }) overflow]; rfl
  · rw [fifoPush_of_fits overflow, fifoPush_of_fits (s := { s with draws := k }) overflow]; rfl

theorem ruleEngineRun_ok {s t : State} {res : Nat} (h : ruleEngineRun s = .ok res t) :
    s.derived.nraw ≤ s.csb.avail ∧ t = computeFrame s := by
  by_cases short : s.csb.avail < s.derived.nraw
  · rw [ruleEngineRun_of_short short] at h
    cases h
  · rw [ruleEngineRun_of_enough short] at h
    cases h
    exact ⟨not_lt.1 short, rfl⟩

theorem runOpcode_hasEffect (o : Opcode) (n : BitVec 32) (s : State) : HasEffect s (o.instr n) (runOpcode o n s) := by
  cases o with
  | nop => exact runCommand_hasEffect (by rintro - _ _ ⟨⟩; exact ⟨s, .quiet _, rfl⟩)
  | clrErr => exact runCommand_hasEffect (by rintro - _ _ ⟨⟩; exact ⟨s, .quiet _, rfl⟩)
  | start => exact runCommand_hasEffect (by rintro hl _ _ ⟨⟩; exact ⟨_, .start (onlyMode_iff.1 hl), rfl⟩)
  | stop => exact runCommand_hasEffect (by rintro hl _ _ ⟨⟩; exact ⟨_, .stop (onlyMode_iff.1 hl), rfl⟩)
  | deinit => exact runCommand_hasEffect (by rintro - _ _ ⟨⟩; exact ⟨_, .deinit, rfl⟩)
  | fifoPop => exact runCommand_hasEffect (by rintro hl _ _ ⟨⟩; exact ⟨_, .fifoPop n (onlyMode_iff.1 hl), rfl⟩)
  | init =>
    refine runCommand_hasEffect fun hl _ t h => ?_
    obtain ⟨checks, rfl⟩ := ruleInit_ok h
    exact ⟨_, .init (onlyMode_iff.1 hl) checks, rfl⟩
  | fifoPush =>
    refine runCommand_hasEffect fun hl _ t h => ?_
    obtain ⟨xs, k, fits, rfl⟩ := ruleFifoPush_ok h
    exact ⟨_, .fifoPush n xs (onlyMode_iff.1 hl) fits, fifoPush_data_of_draws xs k s⟩
  | engineRun =>
    refine runCommand_hasEffect fun hl _ t h => ?_
    obtain ⟨enough, rfl⟩ := ruleEngineRun_ok h
    exact ⟨_, .engineRun (onlyMode_iff.1 hl) enough, rfl⟩

theorem performReject_data {r : Reject} {s t : State} (h : performReject r s = .next t) : t.data = s.data := by
  rcases performReject_cases r s with e | ⟨opc, code, -, e⟩ | ⟨-, e⟩ | ⟨-, e⟩ <;> rw [e] at h <;> cases h <;> rfl

/-- A write of CMD has the effect of the command it holds, or none. -/
theorem execCommandWord_effect {v : Word} {s t : State} (h : execCommandWord v s = .next t) :
    ∃ j u, Effect s j u ∧ t.data = u.data := by
  cases hc : checkCmd v with
  | error r =>
    rw [execCommandWord_error hc] at h
    exact ⟨.nop, s, .quiet _, performReject_data h⟩
  | ok p =>
    rw [execCommandWord_ok hc] at h
    exact ⟨_, runOpcode_hasEffect p.1 p.2 s t h⟩

/-! ### Instructions, operations and steps -/

theorem readArray_data (w : Window) (i : Nat) (s : State) : (readArray w i s).data = s.data := by
  rcases readArray_cases w i s with ⟨-, v, -, h⟩ | ⟨-, -, v, h⟩ | ⟨-, h⟩ <;> rw [h] <;> rfl

theorem execHostRegWrite_hasEffect {off : BitVec 9} (v : Word) (s : State) (h : off ≠ 0) :
    HasEffect s (.hostRegWrite off v) (execHostRegWrite off v s) := by
  rcases execHostRegWrite_cases off v s h with ⟨c, -, idle, e⟩ | e <;> rw [e]
  · exact hasEffect_of_data (.configure off c v idle) rfl
  · exact hasEffect_quiet _ rfl

theorem ingest_hasEffect (d : List Byte) (s : State) : HasEffect s (.rxDatagram d) (.next (ingest d s)) := by
  rcases ingest_cases d s with ⟨-, h⟩ | ⟨run, -, h⟩ | ⟨run, wellFormed, h⟩ <;> rw [h]
  · exact hasEffect_quiet _ rfl
  · exact hasEffect_of_data (.malformed d run) rfl
  · exact hasEffect_of_data (.accepted d run wellFormed) rfl

/-- Everything an instruction can do to the data of the block, but for a write of CMD, which is another. -/
theorem exec_hasEffect {i : Instr} (s : State) (h : ∀ v, i ≠ .hostRegWrite 0 v) : HasEffect s i (exec i s) := by
  cases i with
  | nop => exact runOpcode_hasEffect .nop 0 s
  | init => exact runOpcode_hasEffect .init 0 s
  | start => exact runOpcode_hasEffect .start 0 s
  | stop => exact runOpcode_hasEffect .stop 0 s
  | deinit => exact runOpcode_hasEffect .deinit 0 s
  | clrErr => exact runOpcode_hasEffect .clrErr 0 s
  | fifoPush n => exact runOpcode_hasEffect .fifoPush n s
  | fifoPop n => exact runOpcode_hasEffect .fifoPop n s
  | engineRun => exact runOpcode_hasEffect .engineRun 0 s
  | rxDatagram d => exact ingest_hasEffect d s
  | rxTimeout len => exact hasEffect_quiet _ rfl
  | hostRegRead off =>
    change HasEffect s _ (execHostRegRead off s)
    rcases execHostRegRead_cases off s with ⟨r, -, e⟩ | ⟨-, e⟩ <;> rw [e] <;> exact hasEffect_quiet _ rfl
  | hostRegWrite off v => exact execHostRegWrite_hasEffect v s fun zero => h v (zero ▸ rfl)
  | pushbufWrite k v =>
    change HasEffect s _ (.next (writeArray .pushBuf k.toNat v.toNat s))
    rcases writeArray_cases .pushBuf k.toNat v.toNat s with ⟨fits, e⟩ | ⟨-, e⟩ <;> rw [e]
    · exact hasEffect_of_data (.pushbufWrite k v fits) rfl
    · exact hasEffect_quiet _ rfl
  | pushbufRead k => exact hasEffect_quiet _ (readArray_data ..)
  | popbufRead k => exact hasEffect_quiet _ (readArray_data ..)
  | specRead k => exact hasEffect_quiet _ (readArray_data ..)
  | freqRead k => exact hasEffect_quiet _ (readArray_data ..)

theorem ne_cmdWrite_of_wellFormed {i : Instr} (h : i.wellFormed = true) (v : Word) : i ≠ .hostRegWrite 0 v := by
  rintro rfl
  cases h

theorem exec_effect {i : Instr} {s t : State} (h : exec i s = .next t) : ∃ j u, Effect s j u ∧ t.data = u.data := by
  by_cases cmd : ∃ v, i = .hostRegWrite 0 v
  · obtain ⟨v, rfl⟩ := cmd
    exact execCommandWord_effect h
  · exact ⟨i, exec_hasEffect s (not_exists.1 cmd) t h⟩

/-- Everything an operation can do to it: an operation the decoder rejects is quiet, whatever its instruction. -/
theorem perform_effect {o : Operation} {s t : State} (h : perform o s = .next t) :
    ∃ i u, Effect s i u ∧ t.data = u.data := by
  cases decoded : decode o with
  | ok i =>
    rw [perform_of_decode decoded] at h
    exact exec_effect h
  | error r =>
    rw [perform_of_decode_error decoded] at h
    exact ⟨.nop, s, .quiet _, performReject_data h⟩

/-- A predicate on the data of the block, that holds after a hardware reset and is kept by the effects, is kept by
every step. -/
theorem step_keeps {P : State → Prop} (ofData : ∀ {s t : State}, t.data = s.data → P s → P t)
    (reset : ∀ s, P (hardwareReset s)) (effects : ∀ {s u : State} {i : Instr}, Effect s i u → P s → P u)
    {s t : State} (holds : P s) (next : step s = .next t) : P t := by
  rcases step_cases s with ⟨-, h⟩ | ⟨rest, -, h⟩ | ⟨rest, -, -, h⟩ | ⟨rest, op, ops, -, -, h⟩ |
    ⟨rest, -, -, h⟩ | ⟨rest, ev, evs, -, -, h⟩ <;> rw [h] at next
  · cases next; exact holds
  · cases next; exact reset _
  · cases next; exact ofData (s := s) rfl holds
  · obtain ⟨i, u, effect, data⟩ := perform_effect next
    exact ofData data (effects effect (ofData (s := s) rfl holds))
  · cases next; exact ofData (s := s) rfl holds
  · obtain ⟨i, u, effect, data⟩ := perform_effect next
    exact ofData data (effects effect (ofData (s := s) rfl holds))

end Sys2Proof.Machine
end

section
/-! SUPPORT. The buffer's invariant (R33, R37): what INIT's checks give, and that a push, a pop and every effect
keep it. -/
namespace Sys2Proof.Machine

/-! ### The configurations INIT accepts -/

/-- What the checks 1 to 11 of R109 say of an accepted configuration. -/
structure CfgRegs.Accepted (r : CfgRegs) : Prop where
  header : r.headerSz.toNat = 8
  two_le : 2 ≤ r.fftN.toNat
  even : r.fftN.toNat % 2 = 0
  le_max : r.fftN.toNat ≤ Config.fftNMax
  windows : 1 ≤ r.fftBatch.toNat
  mult : 1 ≤ r.capMult.toNat
  cap_le : (derivedOf r).cap ≤ Config.capMax
  nraw_le : (derivedOf r).nraw ≤ (derivedOf r).cap
  pelem_le : (derivedOf r).pelem ≤ (derivedOf r).cap

theorem accepted_of_checks {r : CfgRegs} (h : firstFailingCheck r = 0) : r.Accepted := by
  rcases firstFalse_cases 1 (initChecks r) with ⟨-, all⟩ | ⟨i, -, failing, -⟩
  · have check (i : Nat) (hi : i < 13) : (initChecks r)[i]? = some true := all i hi
    have header : r.headerSz.toNat = 8 := by simpa [initChecks] using check 0 (by decide)
    have longer : r.headerSz.toNat < r.packSz.toNat := by simpa [initChecks] using check 1 (by decide)
    have size : 2 ≤ r.fftN.toNat ∧ r.fftN.toNat % 2 = 0 := by simpa [initChecks] using check 4 (by decide)
    have payload : ((r.packSz.toNat : Int) - r.headerSz.toNat) / 2 ≤ (r.fftN.toNat * r.capMult.toNat : Nat) := by
      simpa [initChecks] using check 10 (by decide)
    exact {
      header := header
      two_le := size.1
      even := size.2
      le_max := by simpa [initChecks] using check 5 (by decide)
      windows := by simpa [initChecks] using check 6 (by decide)
      mult := by simpa [initChecks] using check 7 (by decide)
      cap_le := by simpa [initChecks, derivedOf] using check 8 (by decide)
      nraw_le := by simpa [initChecks, derivedOf] using check 9 (by decide)
      pelem_le := by simp only [derivedOf]; omega }
  · rw [firstFailingCheck] at h; omega

theorem CfgRegs.Accepted.cap_pos {r : CfgRegs} (h : r.Accepted) : 0 < (derivedOf r).cap :=
  Nat.mul_pos (by have := h.two_le; omega) h.mult

/-! ### The buffer -/

/-- The buffer is as R33 and R37 say, for a capacity `c`. -/
structure Csb.Ok (b : Csb) (c : Nat) : Prop where
  cursors : b.cursorsOk c
  written : b.unreadWritten c
  canonical : Cells.wf b.store = true
  inRange : ∀ x ∈ b.store, x.1 < c

theorem Csb.ok_empty {c : Nat} (h : 0 < c) : Csb.Ok .empty c where
  cursors := ⟨Nat.zero_le c, h, h, (Nat.zero_mod c).symm⟩
  written := nofun
  canonical := rfl
  inRange := nofun

/-- The copy loop leaves a written position written, and writes the positions of the pushed elements. -/
theorem isSome_lookup_storeSamples {c : Nat} {st : List (Nat × Sample)} {w p : Nat} {xs : List Sample}
    (fits : xs.length ≤ c)
    (h : (Cells.lookup st p).isSome = true ∨ ∃ j < xs.length, p = (w + j) % c) :
    (Cells.lookup (storeSamples c st w xs) p).isSome = true := by
  obtain ⟨stored, kept⟩ := lookup_storeSamples c st w xs fits p
  by_cases pushed : ∃ j < xs.length, p = (w + j) % c
  · obtain ⟨j, hj, place⟩ := pushed
    rw [stored j xs[j] (List.getElem?_eq_getElem hj) place]
    rfl
  · rw [kept fun j hj place => pushed ⟨j, hj, place⟩]
    exact h.resolve_right pushed

/-- The read cursor of a push moves by the elements lost. -/
theorem fifoPush_rptr_eq {s : State} (xs : List Sample) (ok : s.csb.cursorsOk s.derived.cap) :
    (fifoPush xs s).csb.rptr = (s.csb.rptr + (s.csb.avail + xs.length - s.derived.cap)) % s.derived.cap := by
  obtain ⟨-, -, rptr, relation⟩ := ok
  rw [fifoPush_rptr]
  split
  · rename_i overflow
    have lost : s.csb.rptr + s.csb.avail + xs.length =
        s.csb.rptr + (s.csb.avail + xs.length - s.derived.cap) + s.derived.cap := by omega
    rw [relation, Nat.mod_add_mod, lost, Nat.add_mod_right]
  · rw [Nat.sub_eq_zero_of_le (by omega), Nat.add_zero, Nat.mod_eq_of_lt rptr]

theorem fifoPush_ok {s : State} {xs : List Sample} (fits : xs.length ≤ s.derived.cap)
    (ok : s.csb.Ok s.derived.cap) : (fifoPush xs s).csb.Ok s.derived.cap := by
  obtain ⟨avail, wptr, rptr, relation⟩ := ok.cursors
  have positive : 0 < s.derived.cap := by omega
  have cursor := fifoPush_rptr_eq xs ok.cursors
  refine ⟨⟨?avail, ?wptr, ?rptr, ?relation⟩, ?written, ?canonical, ?inRange⟩
  case avail => rw [fifoPush_avail]; exact Nat.min_le_right ..
  case wptr => rw [fifoPush_wptr]; exact Nat.mod_lt _ positive
  case rptr => rw [cursor]; exact Nat.mod_lt _ positive
  case relation =>
    rw [fifoPush_wptr, fifoPush_avail, cursor, relation, Nat.mod_add_mod, Nat.mod_add_mod]
    congr 1
    omega
  case written =>
    intro k hk
    rw [fifoPush_avail] at hk
    rw [fifoPush_store, cursor, Nat.mod_add_mod]
    apply isSome_lookup_storeSamples fits
    by_cases old : s.csb.avail + xs.length - s.derived.cap + k < s.csb.avail
    · left
      rw [Nat.add_assoc]
      exact ok.written _ old
    · right
      refine ⟨s.csb.avail + xs.length - s.derived.cap + k - s.csb.avail, by omega, ?_⟩
      rw [relation, Nat.mod_add_mod]
      congr 1
      omega
  case canonical => rw [fifoPush_store]; exact wf_storeSamples _ _ _ _ ok.canonical
  case inRange => rw [fifoPush_store]; exact storeSamples_inRange _ _ _ _ positive ok.inRange

theorem fifoPop_ok (n : Nat) {s : State} (ok : s.csb.Ok s.derived.cap) :
    (fifoPop n s).2.csb.Ok s.derived.cap := by
  obtain ⟨avail, wptr, rptr, relation⟩ := ok.cursors
  rw [fifoPop_snd_csb]
  have part : min n s.csb.avail ≤ s.csb.avail := Nat.min_le_right ..
  refine ⟨⟨by dsimp only; omega, wptr, Nat.mod_lt _ (by omega), ?relation⟩, ?written, ok.canonical, ok.inRange⟩
  case relation =>
    dsimp only
    rw [relation, Nat.mod_add_mod]
    congr 1
    omega
  case written =>
    intro k hk
    dsimp only at hk ⊢
    rw [Nat.mod_add_mod, Nat.add_assoc]
    exact ok.written _ (by omega)

/-! ### The invariant -/

theorem ne_idle_of_ready {s : State} (ready : s.mode = .ready) : s.mode ≠ .idle := by simp [ready]

theorem ne_idle_of_run {s : State} (run : s.mode = .run) : s.mode ≠ .idle := by simp [run]

theorem csbInv_ofData {s t : State} (h : t.data = s.data) (inv : s.CsbInv) : t.CsbInv := by
  cases s; cases t
  obtain ⟨rfl, rfl, rfl, rfl, rfl, rfl, rfl⟩ := data_eq_iff.1 h
  exact ⟨inv.idle, inv.checked, inv.derived, inv.cursors, inv.written, inv.canonical, inv.inRange⟩

/-- In IDLE nothing of the run is left. -/
theorem csbInv_idle {s : State} (mode : s.mode = .idle) (derived : s.derived = .zero) (csb : s.csb = .empty)
    (seq : s.seq = .zero) (counters : s.counters = .zero) : s.CsbInv where
  idle _ := ⟨derived, csb, seq, counters⟩
  checked active := absurd mode active
  derived active := absurd mode active
  cursors active := absurd mode active
  written active := absurd mode active
  canonical := by rw [csb]; rfl
  inRange := by rw [csb]; nofun

/-- Outside IDLE the configuration, the derived registers and the buffer matter. -/
theorem csbInv_active {s : State} (active : s.mode ≠ .idle) (checked : firstFailingCheck s.cfg = 0)
    (derived : s.derived = derivedOf s.cfg) (buffer : s.csb.Ok s.derived.cap) : s.CsbInv where
  idle idle := absurd idle active
  checked _ := checked
  derived _ := derived
  cursors _ := buffer.cursors
  written _ := buffer.written
  canonical := buffer.canonical
  inRange := buffer.inRange

theorem State.CsbInv.buffer {s : State} (inv : s.CsbInv) (active : s.mode ≠ .idle) : s.csb.Ok s.derived.cap :=
  ⟨inv.cursors active, inv.written active, inv.canonical, inv.inRange⟩

theorem State.CsbInv.accepted {s : State} (inv : s.CsbInv) (active : s.mode ≠ .idle) : s.cfg.Accepted :=
  accepted_of_checks (inv.checked active)

/-- Outside IDLE an operation that leaves the mode outside it, the configuration and the derived registers has only
the buffer to keep. -/
theorem State.CsbInv.of_buffer {s t : State} (inv : s.CsbInv) (active : s.mode ≠ .idle) (mode : t.mode ≠ .idle)
    (cfg : t.cfg = s.cfg) (derived : t.derived = s.derived) (buffer : t.csb.Ok s.derived.cap) : t.CsbInv :=
  csbInv_active mode (cfg ▸ inv.checked active) (by rw [derived, cfg, inv.derived active]) (derived ▸ buffer)

theorem computeFrame_csbInv {s : State} (inv : s.CsbInv) (active : s.mode ≠ .idle) : (computeFrame s).CsbInv :=
  inv.of_buffer active active rfl rfl (fifoPop_ok _ (inv.buffer active))

theorem samplesOf_length_le (l : List Byte) : 2 * (samplesOf l).length ≤ l.length := by
  induction l using samplesOf.induct with
  | case1 lo hi t ih => simp only [samplesOf, List.length_cons]; omega
  | case2 l short => simp [samplesOf]

/-- The payload of a datagram fits the buffer (R109, check 11). -/
theorem payload_fits {s : State} (inv : s.CsbInv) (active : s.mode ≠ .idle) (d : List Byte) :
    (payload d s).length ≤ s.derived.cap := by
  have accepted := inv.accepted active
  have samples := samplesOf_length_le ((d.take (effectiveLen d s)).drop 8)
  have fits := accepted.pelem_le
  rw [← inv.derived active] at fits
  have pelem : s.derived.pelem = (s.cfg.packSz.toNat - s.cfg.headerSz.toNat) / 2 := by rw [inv.derived active]; rfl
  rw [accepted.header] at pelem
  rw [List.length_drop, List.length_take] at samples
  have read : effectiveLen d s ≤ s.cfg.packSz.toNat := Nat.min_le_right ..
  rw [payload]
  omega

@[simp] theorem received_mode (d : List Byte) (s : State) : (received d s).mode = s.mode := fifoPush_mode ..
@[simp] theorem received_cfg (d : List Byte) (s : State) : (received d s).cfg = s.cfg := fifoPush_cfg ..
@[simp] theorem received_derived (d : List Byte) (s : State) : (received d s).derived = s.derived := fifoPush_derived ..
@[simp] theorem received_mem (d : List Byte) (s : State) : (received d s).mem = s.mem := fifoPush_mem ..

theorem received_csbInv {s : State} (inv : s.CsbInv) (active : s.mode ≠ .idle) (d : List Byte) :
    (received d s).CsbInv :=
  inv.of_buffer active (by rwa [received_mode]) (received_cfg d s) (received_derived d s)
    (fifoPush_ok (payload_fits inv active d) (inv.buffer active))

/-- Every effect keeps the buffer's invariant. -/
theorem effect_csbInv {s u : State} {i : Instr} (effect : Effect s i u) (inv : s.CsbInv) : u.CsbInv := by
  cases effect with
  | quiet i => exact inv
  | init idle checks => exact csbInv_active nofun checks rfl (Csb.ok_empty (accepted_of_checks checks).cap_pos)
  | start ready => exact inv.of_buffer (ne_idle_of_ready ready) nofun rfl rfl (inv.buffer (ne_idle_of_ready ready))
  | stop run => exact inv.of_buffer (ne_idle_of_run run) nofun rfl rfl (inv.buffer (ne_idle_of_run run))
  | deinit => exact csbInv_idle rfl rfl rfl rfl rfl
  | fifoPush n xs ready fits =>
    have active := ne_idle_of_ready ready
    exact inv.of_buffer active (by rwa [fifoPush_mode]) (fifoPush_cfg xs s) (fifoPush_derived xs s)
      (fifoPush_ok fits (inv.buffer active))
  | fifoPop n ready =>
    have active := ne_idle_of_ready ready
    exact inv.of_buffer active active rfl rfl (fifoPop_ok n.toNat (inv.buffer active))
  | engineRun ready enough => exact computeFrame_csbInv inv (ne_idle_of_ready ready)
  | malformed d run =>
    have active := ne_idle_of_run run
    exact inv.of_buffer active active rfl rfl (inv.buffer active)
  | accepted d run wellFormed =>
    have pushed := received_csbInv inv (ne_idle_of_run run) d
    rcases acceptDatagram_cases d s with h | ⟨-, h⟩ <;> rw [h]
    · exact pushed
    · exact computeFrame_csbInv pushed (by rw [received_mode]; exact ne_idle_of_run run)
  | configure off c v idle =>
    obtain ⟨derived, csb, seq, counters⟩ := inv.idle idle
    exact csbInv_idle idle derived csb seq counters
  | pushbufWrite k v inRange =>
    exact ⟨inv.idle, inv.checked, inv.derived, inv.cursors, inv.written, inv.canonical, inv.inRange⟩

end Sys2Proof.Machine
end

section
/-! The obligation on the buffer's invariant. -/
namespace Sys2Proof.Proofs
open Sys2Proof Sys2Proof.Machine

/-- Settles O59: the invariant reads only the data of the block, on which a step is a reset or an effect. -/
theorem stepKeepsCsbInvariant : Obligations.StepKeepsCsbInvariant := by
  intro s t inv next
  exact step_keeps csbInv_ofData (fun _ => csbInv_idle rfl rfl rfl rfl rfl) effect_csbInv inv next

end Sys2Proof.Proofs
end

section
/-! SUPPORT. The windows of the bus arrays lie apart (R61); what a store into one of them and the erasure of the
last two leave of every element, and that both keep elements whole. -/
namespace Sys2Proof.Machine

/-! ### The windows -/

/-- The first address beyond a window's region (R61). -/
def windowLimit (w : Window) : Nat := w.base + 0x10000000

theorem windowEnd_le_limit (w : Window) : elemAddr w (windowLen w) ≤ windowLimit w := by
  have cap := Config.capMax_le
  have fft := Config.fftNMax_le
  cases w <;> simp only [elemAddr, windowLimit, Window.base, Window.elemSize, BusSize.bytes, windowLen] <;> omega

theorem elemAddr_succ (w : Window) (i : Nat) : elemAddr w (i + 1) = elemAddr w i + w.elemSize.bytes := by
  rw [elemAddr, elemAddr, Nat.mul_succ, Nat.add_assoc]

theorem elemAddr_mono (w : Window) {i j : Nat} (h : i ≤ j) : elemAddr w i ≤ elemAddr w j :=
  Nat.add_le_add_left (Nat.mul_le_mul_left _ h) _

theorem base_le_elemAddr (w : Window) (i : Nat) : w.base ≤ elemAddr w i := Nat.le_add_right ..

/-- An element in range lies below its window's limit. -/
theorem elem_le_limit {w : Window} {i : Nat} (h : i < windowLen w) :
    elemAddr w i + w.elemSize.bytes ≤ windowLimit w := by
  rw [← elemAddr_succ]
  exact (elemAddr_mono w h).trans (windowEnd_le_limit w)

theorem windows_apart {w v : Window} (h : w ≠ v) : windowLimit w ≤ v.base ∨ windowLimit v ≤ w.base := by
  cases w <;> cases v <;> simp_all [windowLimit, Window.base]

theorem elemSize_pos (w : Window) : 0 < w.elemSize.bytes := by cases w <;> decide

/-- The elements of an array written from its start. -/
def Memory.fill (m : Memory) (w : Window) (vs : List Nat) : Memory := m.storeElems (elemAddr w 0) w.elemSize.bytes vs

theorem fill_end (w : Window) (n : Nat) : elemAddr w 0 + w.elemSize.bytes * n = elemAddr w n := by
  simp [elemAddr]

/-! ### Bytes and elements after a fill -/

theorem Memory.byte_fill_outside (m : Memory) {w : Window} {vs : List Nat} (fits : vs.length ≤ windowLen w) {b : Nat}
    (h : b < w.base ∨ windowLimit w ≤ b) : (m.fill w vs).byte b = m.byte b := by
  have last := (elemAddr_mono w fits).trans (windowEnd_le_limit w)
  have first := base_le_elemAddr w 0
  apply m.byte_storeElems_outside
  rw [fill_end]
  omega

theorem Memory.load_fill_other (m : Memory) {w v : Window} {vs : List Nat} {i : Nat} (other : w ≠ v)
    (fits : vs.length ≤ windowLen w) (inRange : i < windowLen v) :
    (m.fill w vs).load (elemAddr v i) v.elemSize.bytes = m.load (elemAddr v i) v.elemSize.bytes := by
  have apart := windows_apart other
  have first := base_le_elemAddr v i
  have last := elem_le_limit inRange
  exact Memory.load_congr fun b h1 h2 => m.byte_fill_outside fits (by omega)

theorem Memory.load_fill_beyond (m : Memory) {w : Window} {vs : List Nat} {i : Nat} (h : vs.length ≤ i) :
    (m.fill w vs).load (elemAddr w i) w.elemSize.bytes = m.load (elemAddr w i) w.elemSize.bytes := by
  have beyond := elemAddr_mono w h
  apply m.load_storeElems_outside
  rw [fill_end]
  exact .inr beyond

theorem Memory.load_fill (m : Memory) {w : Window} {vs : List Nat} {i : Nat} (h : i < vs.length) :
    (m.fill w vs).load (elemAddr w i) w.elemSize.bytes = some (vs[i] % 256 ^ w.elemSize.bytes) := by
  rw [← fill_end]
  exact m.load_storeElems _ _ vs h

/-! ### Whole elements -/

theorem Memory.wholeElements_nil : Memory.wholeElements [] := nofun

theorem Memory.mem_store {m : Memory} {a n v : Nat} {x : Host.Cell} (h : x ∈ m.store a n v) :
    (a ≤ x.1 ∧ x.1 < a + n) ∨ x ∈ m := by
  induction n generalizing m a v with
  | zero => exact .inr h
  | succ n ih =>
    rcases ih h with place | old
    · left; omega
    · rcases Cells.mem_insert old with rfl | old
      · exact .inl ⟨le_rfl, by dsimp only; omega⟩
      · exact .inr old

theorem Memory.isSome_load_store {m : Memory} (a n v : Nat) {b k : Nat} (h : (m.load b k).isSome = true) :
    ((m.store a n v).load b k).isSome = true := by
  rw [Memory.load_isSome_iff] at h ⊢
  intro c h1 h2
  rw [Memory.byte_store]
  split
  · rfl
  · exact h c h1 h2

/-- A store of an element in range keeps elements whole. -/
theorem Memory.wholeElements_store {m : Memory} {w : Window} {i : Nat} (v : Nat) (array : w ≠ .regs)
    (inRange : i < windowLen w) (whole : m.wholeElements) :
    (m.store (elemAddr w i) w.elemSize.bytes v).wholeElements := by
  intro x hx
  rcases Memory.mem_store hx with ⟨h1, h2⟩ | old
  · exact ⟨w, i, array, inRange, h1, h2, by rw [Memory.load_store_self]; rfl⟩
  · obtain ⟨w', i', array', inRange', h1, h2, specified⟩ := whole x old
    exact ⟨w', i', array', inRange', h1, h2, Memory.isSome_load_store _ _ _ specified⟩

theorem Memory.wholeElements_storeElems {m : Memory} {w : Window} {i : Nat} (vs : List Nat) (array : w ≠ .regs)
    (fits : i + vs.length ≤ windowLen w) (whole : m.wholeElements) :
    (m.storeElems (elemAddr w i) w.elemSize.bytes vs).wholeElements := by
  induction vs generalizing m i with
  | nil => exact whole
  | cons v vs ih =>
    rw [List.length_cons] at fits
    rw [Memory.storeElems, ← elemAddr_succ]
    exact ih (by omega) (Memory.wholeElements_store v array (by omega) whole)

theorem Memory.wholeElements_fill {m : Memory} {w : Window} {vs : List Nat} (array : w ≠ .regs)
    (fits : vs.length ≤ windowLen w) (whole : m.wholeElements) : (m.fill w vs).wholeElements :=
  Memory.wholeElements_storeElems vs array (by omega) whole

/-- The erasure of INIT and DEINIT takes whole windows: SPEC_OUT and FREQ. -/
theorem window_erased_or_kept (w : Window) :
    (0x30000000 ≤ w.base ∧ windowLimit w ≤ 0x50000000) ∨ windowLimit w ≤ 0x30000000 := by
  cases w <;> decide

theorem Memory.wholeElements_erase {m : Memory} (whole : m.wholeElements) :
    Memory.wholeElements (Cells.eraseRange m 0x30000000 0x50000000) := by
  intro x hx
  obtain ⟨old, outside⟩ := Cells.mem_eraseRange.1 hx
  obtain ⟨w, i, array, inRange, h1, h2, specified⟩ := whole x old
  have first := base_le_elemAddr w i
  have last := elem_le_limit inRange
  refine ⟨w, i, array, inRange, h1, h2, ?_⟩
  rwa [Memory.load_eraseRange_outside]
  rcases window_erased_or_kept w with erased | kept <;> omega

theorem Memory.load_erased {m : Memory} {w : Window} {i : Nat}
    (erased : 0x30000000 ≤ w.base ∧ windowLimit w ≤ 0x50000000) (inRange : i < windowLen w) :
    Memory.load (Cells.eraseRange m 0x30000000 0x50000000) (elemAddr w i) w.elemSize.bytes = none := by
  have first := base_le_elemAddr w i
  have last := elem_le_limit inRange
  have size := elemSize_pos w
  exact Memory.load_eraseRange_inside m (by omega) (by omega) size

end Sys2Proof.Machine
end

section
/-! SUPPORT. What the effects leave of the configuration, the counters and the bus arrays. -/
namespace Sys2Proof.Machine

/-! ### The configuration -/

/-- Only a register write in IDLE changes the configuration (R22, R101). -/
theorem effect_cfg {s u : State} {i : Instr} (effect : Effect s i u)
    (frozen : s.mode ≠ .idle ∨ ∀ off v, i ≠ .hostRegWrite off v) : u.cfg = s.cfg := by
  cases effect with
  | fifoPush n xs ready fits => exact fifoPush_cfg xs s
  | accepted d run wellFormed =>
    rcases acceptDatagram_cases d s with h | ⟨-, h⟩ <;> rw [h] <;> exact received_cfg d s
  | configure off c v idle => exact absurd idle (frozen.resolve_right fun other => other off v rfl)
  | _ => rfl

/-! ### The counters -/

/-- Each of the six counters is at most what it is in `d` (R202). -/
structure Counters.Le (c d : Counters) : Prop where
  gapEvents : c.gapEvents ≤ d.gapEvents
  lostEst : c.lostEst ≤ d.lostEst
  ovfEvents : c.ovfEvents ≤ d.ovfEvents
  ovfSamples : c.ovfSamples ≤ d.ovfSamples
  malformed : c.malformed ≤ d.malformed
  frames : c.frames ≤ d.frames

theorem Counters.Le.refl (c : Counters) : c.Le c :=
  ⟨BitVec.le_refl _, BitVec.le_refl _, BitVec.le_refl _, BitVec.le_refl _, BitVec.le_refl _, BitVec.le_refl _⟩

theorem Counters.Le.trans {c d e : Counters} (h : c.Le d) (k : d.Le e) : c.Le e where
  gapEvents := BitVec.le_trans h.gapEvents k.gapEvents
  lostEst := BitVec.le_trans h.lostEst k.lostEst
  ovfEvents := BitVec.le_trans h.ovfEvents k.ovfEvents
  ovfSamples := BitVec.le_trans h.ovfSamples k.ovfSamples
  malformed := BitVec.le_trans h.malformed k.malformed
  frames := BitVec.le_trans h.frames k.frames

theorem toNat_satAdd (c : Word) (n : Nat) : (satAdd c n).toNat = min (c.toNat + n) (2 ^ 64 - 1) := by
  rw [satAdd, BitVec.toNat_ofNat]
  omega

theorem le_satAdd (c : Word) (n : Nat) : c ≤ satAdd c n := by
  have := c.isLt
  rw [BitVec.le_def, toNat_satAdd]
  omega

theorem Counters.le_addGap (c : Counters) (gap : Nat) : c.Le (c.addGap gap) :=
  { Counters.Le.refl c with gapEvents := le_satAdd .., lostEst := le_satAdd .. }

theorem Counters.le_addOverflow (c : Counters) (lost : Nat) : c.Le (c.addOverflow lost) :=
  { Counters.Le.refl c with ovfEvents := le_satAdd .., ovfSamples := le_satAdd .. }

theorem Counters.le_addMalformed (c : Counters) : c.Le c.addMalformed :=
  { Counters.Le.refl c with malformed := le_satAdd .. }

theorem Counters.le_addFrame (c : Counters) : c.Le c.addFrame :=
  { Counters.Le.refl c with frames := le_satAdd .. }

theorem gapDetect_cases (q : SeqState) (cur : Word) (c : Counters) :
    gapDetect q cur c = c.addGap (cur.toNat - q.prev.toNat) ∨ gapDetect q cur c = c := by
  unfold gapDetect
  split
  · exact .inl rfl
  · exact .inr rfl

theorem le_gapDetect (q : SeqState) (cur : Word) (c : Counters) : c.Le (gapDetect q cur c) := by
  rcases gapDetect_cases q cur c with h | h <;> rw [h]
  · exact c.le_addGap _
  · exact .refl c

theorem le_fifoPush_counters (xs : List Sample) (s : State) : s.counters.Le (fifoPush xs s).counters := by
  rw [fifoPush_counters]
  split
  · exact s.counters.le_addOverflow _
  · exact .refl _

theorem le_received_counters (d : List Byte) (s : State) : s.counters.Le (received d s).counters :=
  (le_gapDetect s.seq (parseSeq d) s.counters).trans (le_fifoPush_counters (payload d s) (numbered d s))

theorem effect_counters {s u : State} {i : Instr} (effect : Effect s i u) (notInit : i ≠ .init)
    (notDeinit : i ≠ .deinit) : s.counters.Le u.counters := by
  cases effect with
  | init => exact absurd rfl notInit
  | deinit => exact absurd rfl notDeinit
  | fifoPush n xs ready fits => exact le_fifoPush_counters xs s
  | engineRun ready enough => exact s.counters.le_addFrame
  | malformed d run => exact s.counters.le_addMalformed
  | accepted d run wellFormed =>
    have counted := le_received_counters d s
    rcases acceptDatagram_cases d s with h | ⟨-, h⟩ <;> rw [h]
    · exact counted
    · exact counted.trans (received d s).counters.le_addFrame
  | _ => exact .refl _

/-! ### The bus arrays -/

/-- The elements of one frame (R178). -/
def frameElems (s : State) : List Nat :=
  (List.range s.cfg.fftN.toNat).map fun m =>
    (specNum s.cfg.fftN.toNat s.cfg.fftBatch.toNat (fifoPop s.derived.nraw s).1
      (fifoPop s.derived.nraw s).2.draws m).toNat

/-- The elements of the frequency vector (R181). -/
def freqElems (r : CfgRegs) : List Nat :=
  (List.range r.fftN.toNat).map fun m => (freqBin r.sampleRate r.centerFreq r.fftN.toNat m).toNat

theorem computeFrame_mem (s : State) : (computeFrame s).mem = s.mem.fill .specOut (frameElems s) := rfl

theorem popped_mem (n : Nat) (s : State) :
    (popped n s).mem = s.mem.fill .popBuf ((fifoPop n s).1.map BitVec.toNat) := rfl

theorem constructed_mem (s : State) :
    (constructed s).mem = Memory.fill (Cells.eraseRange s.mem 0x30000000 0x50000000) .freq (freqElems s.cfg) := rfl

@[simp] theorem frameElems_length (s : State) : (frameElems s).length = s.cfg.fftN.toNat := by simp [frameElems]

@[simp] theorem freqElems_length (r : CfgRegs) : (freqElems r).length = r.fftN.toNat := by simp [freqElems]

theorem frameElems_fit {s : State} (h : s.cfg.Accepted) : (frameElems s).length ≤ windowLen .specOut := by
  rw [frameElems_length]
  exact h.le_max

theorem freqElems_fit {r : CfgRegs} (h : r.Accepted) : (freqElems r).length ≤ windowLen .freq := by
  rw [freqElems_length]
  exact h.le_max

/-- A pop fits POP_BUF: the queue holds at most C elements. -/
theorem popped_fit (n : Nat) {s : State} (inv : s.CsbInv) (active : s.mode ≠ .idle) :
    ((fifoPop n s).1.map BitVec.toNat).length ≤ windowLen .popBuf := by
  obtain ⟨avail, -⟩ := inv.cursors active
  have cap := (inv.accepted active).cap_le
  rw [← inv.derived active] at cap
  rw [List.length_map, fifoPop_length, windowLen]
  omega

/-- The instructions that may write an array (R46 to R49). -/
inductive Owns : Window → Instr → Prop
  | pushbufWrite (k : BitVec 27) (v : Sample) : Owns .pushBuf (.pushbufWrite k v)
  | fifoPop (n : BitVec 32) : Owns .popBuf (.fifoPop n)
  | rxDatagram (d : List Byte) : Owns .specOut (.rxDatagram d)
  | engineRun : Owns .specOut .engineRun
  | initSpec : Owns .specOut .init
  | deinitSpec : Owns .specOut .deinit
  | initFreq : Owns .freq .init
  | deinitFreq : Owns .freq .deinit

/-- A byte of a window that is not the one written is outside what is written. -/
theorem outside_of_other {w v : Window} {a : Nat} (other : w ≠ v) (low : v.base ≤ a) (high : a < windowLimit v) :
    a < w.base ∨ windowLimit w ≤ a := by
  rcases windows_apart other with apart | apart <;> omega

theorem byte_erase_kept {m : Memory} {w : Window} {a : Nat} (notSpec : w ≠ .specOut) (notFreq : w ≠ .freq)
    (low : w.base ≤ a) (high : a < windowLimit w) :
    Memory.byte (Cells.eraseRange m 0x30000000 0x50000000) a = m.byte a := by
  have spec := outside_of_other notSpec.symm low high
  have freq := outside_of_other notFreq.symm low high
  rw [Memory.byte_eraseRange, if_neg]
  simp only [windowLimit, Window.base] at spec freq
  omega

/-- An array's bytes are changed by the instructions that own it alone. -/
theorem effect_byte {s u : State} {i : Instr} {w : Window} {a : Nat} (effect : Effect s i u) (inv : s.CsbInv)
    (notOwner : ¬ Owns w i) (low : w.base ≤ a) (high : a < windowLimit w) : u.mem.byte a = s.mem.byte a := by
  have ne {v : Window} (owner : Owns v i) : v ≠ w := by rintro rfl; exact notOwner owner
  have outside {v : Window} (owner : Owns v i) := outside_of_other (ne owner) low high
  cases effect with
  | init idle checks =>
    rw [constructed_mem, Memory.byte_fill_outside _ (freqElems_fit (accepted_of_checks checks)) (outside .initFreq)]
    exact byte_erase_kept (ne .initSpec).symm (ne .initFreq).symm low high
  | deinit => exact byte_erase_kept (ne .deinitSpec).symm (ne .deinitFreq).symm low high
  | fifoPush n xs ready fits => rw [fifoPush_mem]
  | fifoPop n ready =>
    rw [popped_mem, Memory.byte_fill_outside _ (popped_fit _ inv (ne_idle_of_ready ready)) (outside (.fifoPop n))]
  | engineRun ready enough =>
    rw [computeFrame_mem, Memory.byte_fill_outside _ (frameElems_fit (inv.accepted (ne_idle_of_ready ready)))
      (outside .engineRun)]
  | accepted d run wellFormed =>
    have cfg := inv.accepted (ne_idle_of_run run)
    rcases acceptDatagram_cases d s with h | ⟨-, h⟩ <;> rw [h]
    · rw [received_mem]
    · rw [computeFrame_mem, Memory.byte_fill_outside _ (frameElems_fit (by rwa [received_cfg]))
        (outside (.rxDatagram d)), received_mem]
  | pushbufWrite k v inRange =>
    have last := elem_le_limit (w := .pushBuf) inRange
    have first := base_le_elemAddr .pushBuf k.toNat
    have apart := outside (.pushbufWrite k v)
    exact s.mem.byte_store_outside _ (by change _ ∨ _ + Window.pushBuf.elemSize.bytes ≤ _; omega)
  | _ => rfl

end Sys2Proof.Machine
end

section
/-! The obligations on what instructions leave unchanged. -/
namespace Sys2Proof.Proofs
open Sys2Proof Sys2Proof.Machine

/-- Settles O47: outside IDLE no effect changes the configuration; in IDLE the premise excludes the writes of CMD
and of the configuration. -/
theorem configurationFrozen : Obligations.ConfigurationFrozen := by
  intro i s t next frozen
  by_cases cmd : ∃ v, i = .hostRegWrite 0 v
  · obtain ⟨v, rfl⟩ := cmd
    obtain ⟨j, u, effect, data⟩ := exec_effect next
    obtain ⟨-, cfg, -⟩ := data_eq_iff.1 data
    rw [cfg]
    exact effect_cfg effect (.inl (frozen.resolve_right fun other => other 0 v rfl))
  · obtain ⟨u, effect, data⟩ := exec_hasEffect s (not_exists.1 cmd) t next
    obtain ⟨-, cfg, -⟩ := data_eq_iff.1 data
    rw [cfg]
    exact effect_cfg effect frozen

/-- Settles O50: counters change by saturating additions, but for INIT and DEINIT. -/
theorem countersNeverFall : Obligations.CountersNeverFall := by
  intro i s t wellFormed notInit notDeinit next
  obtain ⟨u, effect, data⟩ := exec_hasEffect s (ne_cmdWrite_of_wellFormed wellFormed) t next
  obtain ⟨-, -, -, -, -, counters, -⟩ := data_eq_iff.1 data
  obtain ⟨gapEvents, lostEst, ovfEvents, ovfSamples, malformed, frames⟩ := effect_counters effect notInit notDeinit
  rw [counters]
  exact ⟨gapEvents, lostEst, ovfEvents, ovfSamples, malformed, frames⟩

/-- Settles O52: the four arrays are four windows, each with its owners. -/
theorem arraysHaveOneWriter : Obligations.ArraysHaveOneWriter := by
  intro i s t wellFormed inv next
  obtain ⟨u, effect, data⟩ := exec_hasEffect s (ne_cmdWrite_of_wellFormed wellFormed) t next
  obtain ⟨-, -, -, -, -, -, mem⟩ := data_eq_iff.1 data
  rw [mem]
  refine ⟨fun notWrite a low high => ?_, fun notPop a low high => ?_,
    fun notDatagram notRun notInit notDeinit a low high => ?_, fun notInit notDeinit a low high => ?_⟩
  · refine effect_byte (w := .pushBuf) effect inv ?_ low high
    rintro ⟨⟩
    exact notWrite _ _ rfl
  · refine effect_byte (w := .popBuf) effect inv ?_ low high
    rintro ⟨⟩
    exact notPop _ rfl
  · refine effect_byte (w := .specOut) effect inv ?_ low high
    rintro (_ | _)
    exacts [notDatagram _ rfl, notRun rfl, notInit rfl, notDeinit rfl]
  · refine effect_byte (w := .freq) effect inv ?_ low high
    rintro (_ | _)
    exacts [notInit rfl, notDeinit rfl]

end Sys2Proof.Proofs
end

section
/-! SUPPORT. The values of a frame (R180): the normalised power of every batch is at most 1, so the reference lies
from DB_FLOOR to 0 and a drawn element within SPEC_TOL_DB of that range. -/
namespace Sys2Proof.Machine

theorem refElem_sq_le (raw : List Sample) (j : Nat) : refElem raw j ^ 2 ≤ (fullScale : ℝ) ^ 2 := by
  have low := BitVec.le_toInt (raw.getD j 0)
  have high := BitVec.toInt_lt (x := raw.getD j 0)
  have scale : (fullScale : ℝ) = 32768 := by norm_num [fullScale]
  rw [scale, refElem]
  apply sq_le_sq'
  · exact_mod_cast low
  · exact_mod_cast high.le

/-- The squared magnitude of a sample is at most FSP (R5, R171). -/
theorem normSq_refZ_le (raw : List Sample) (j : Nat) : Complex.normSq (refZ raw j) ≤ fsp := by
  have re := refElem_sq_le raw (2 * j)
  have im := refElem_sq_le raw (2 * j + 1)
  rw [refZ, Complex.normSq_mk, fsp]
  push_cast
  linarith

theorem norm_refWindow_le (n : Nat) (raw : List Sample) (b t : Nat) :
    ‖refWindow n raw b t‖ ≤ Real.sqrt fsp := by
  rw [Complex.norm_def]
  exact Real.sqrt_le_sqrt (normSq_refZ_le raw _)

theorem norm_twiddle (n k t : Nat) :
    ‖Complex.exp (-2 * (Real.pi : ℂ) * Complex.I * (k : ℂ) * (t : ℂ) / (n : ℂ))‖ = 1 := by
  have angle : -2 * (Real.pi : ℂ) * Complex.I * (k : ℂ) * (t : ℂ) / (n : ℂ) =
      ((-2 * Real.pi * k * t / n : ℝ) : ℂ) * Complex.I := by push_cast; ring
  rw [angle, Complex.norm_exp_ofReal_mul_I]

/-- A bin of the transform is at most the sum of the magnitudes (R173). -/
theorem norm_refDft_le {n : Nat} {x : Nat → ℂ} {r : ℝ} (h : ∀ t, ‖x t‖ ≤ r) (k : Nat) : ‖refDft n x k‖ ≤ n * r := by
  calc ‖refDft n x k‖ ≤ ∑ t ∈ Finset.range n, ‖x t‖ := by
        refine (norm_sum_le _ _).trans_eq (Finset.sum_congr rfl fun t _ => ?_)
        rw [norm_mul, norm_twiddle, mul_one]
    _ ≤ ∑ t ∈ Finset.range n, r := Finset.sum_le_sum fun t _ => h t
    _ = n * r := by simp

theorem refPower_le (n : Nat) {b : Nat} (windows : 1 ≤ b) (raw : List Sample) (k : Nat) :
    refPower n b raw k ≤ (n : ℝ) ^ 2 * fsp := by
  have window (w : Nat) : Complex.normSq (refDft n (refWindow n raw w) k) ≤ (n : ℝ) ^ 2 * fsp := by
    rw [Complex.normSq_eq_norm_sq]
    calc ‖refDft n (refWindow n raw w) k‖ ^ 2 ≤ (n * Real.sqrt fsp) ^ 2 :=
          pow_le_pow_left₀ (norm_nonneg _) (norm_refDft_le (norm_refWindow_le n raw w) k) 2
      _ = (n : ℝ) ^ 2 * fsp := by rw [mul_pow, Real.sq_sqrt (Nat.cast_nonneg _)]
  have positive : (0 : ℝ) < b := by exact_mod_cast windows
  have total := Finset.sum_le_card_nsmul (Finset.range b) _ _ fun w _ => window w
  rw [Finset.card_range, nsmul_eq_mul] at total
  rw [refPower, one_div_mul_eq_div, div_le_iff₀ positive]
  linarith

theorem refPn_le_one (n : Nat) {b : Nat} (windows : 1 ≤ b) (raw : List Sample) (k : Nat) : refPn n b raw k ≤ 1 := by
  rw [refPn, div_div]
  exact div_le_one_of_le₀ (refPower_le n windows raw k) (by positivity)

theorem logb_eps : 10 * Real.logb 10 eps = dbFloor := by
  rw [eps, ← Real.rpow_intCast, Real.logb_rpow (by norm_num) (by norm_num), dbFloor]
  norm_num

/-- The reference lies from DB_FLOOR to 0 (R180). -/
theorem refFrame_mem (n : Nat) {b : Nat} (windows : 1 ≤ b) (raw : List Sample) (m : Nat) :
    dbFloor ≤ refFrame n b raw m ∧ refFrame n b raw m ≤ 0 := by
  have power := refPn_le_one n windows raw (centredBin n m)
  rw [refFrame, refDb]
  constructor
  · rw [← logb_eps]
    gcongr
    · norm_num
    · exact eps_pos
    · exact le_max_right ..
  · have nonpos := Real.logb_nonpos (b := 10) (by norm_num) (eps_pos.le.trans (le_max_right _ _))
      (max_le power eps_le_one)
    linarith

/-- Every element of the frame of a legal batch is a value a frame can have (R179, R180). -/
theorem specNum_frameValue {n b : Nat} {raw : List Sample} (k : Nat) {m : Nat}
    (legal : LegalBatch Config.capMax Config.fftNMax n b raw) (hm : m < n) : FrameValue (specNum n b raw k m) := by
  obtain ⟨finite, accurate, band, -⟩ := specNum_conforms k legal
  refine ⟨finite m hm, ?_⟩
  rcases le_or_gt Config.specPnMin (refPn n b raw (centredBin n m)) with strong | weak
  · obtain ⟨low, high⟩ := refFrame_mem n legal.windows raw m
    obtain ⟨below, above⟩ := abs_le.1 (accurate m hm strong)
    constructor <;> linarith
  · obtain ⟨low, high⟩ := band m hm weak
    have threshold := Real.logb_nonpos (b := 10) (by norm_num) Config.specPnMin_pos.le Config.specPnMin_le
    exact ⟨low, by linarith⟩

end Sys2Proof.Machine
end

section
/-! SUPPORT. The memory's invariant (R46 to R49, R61 to R63) and the range of SPEC_OUT (R180), effect by effect. -/
namespace Sys2Proof.Machine

/-! ### Canonical form and whole elements -/

/-- The memory is canonical and holds whole elements. -/
def Memory.Ok (m : Memory) : Prop := m.wf = true ∧ m.wholeElements

theorem Memory.Ok.fill {m : Memory} (ok : m.Ok) {w : Window} {vs : List Nat} (array : w ≠ .regs)
    (fits : vs.length ≤ windowLen w) : (m.fill w vs).Ok :=
  ⟨Memory.wf_storeElems _ _ _ ok.1, Memory.wholeElements_fill array fits ok.2⟩

theorem Memory.Ok.erase {m : Memory} (ok : m.Ok) : Memory.Ok (Cells.eraseRange m 0x30000000 0x50000000) :=
  ⟨Memory.wf_eraseRange _ _ ok.1, Memory.wholeElements_erase ok.2⟩

theorem State.MemInv.ok {s : State} (mem : s.MemInv) : s.mem.Ok := ⟨mem.canonical, mem.whole⟩

theorem effect_memOk {s u : State} {i : Instr} (effect : Effect s i u) (inv : s.CsbInv) (ok : s.mem.Ok) :
    u.mem.Ok := by
  cases effect with
  | init idle checks => exact ok.erase.fill nofun (freqElems_fit (accepted_of_checks checks))
  | deinit => exact ok.erase
  | fifoPush n xs ready fits => rwa [fifoPush_mem]
  | fifoPop n ready => exact ok.fill nofun (popped_fit _ inv (ne_idle_of_ready ready))
  | engineRun ready enough => exact ok.fill nofun (frameElems_fit (inv.accepted (ne_idle_of_ready ready)))
  | accepted d run wellFormed =>
    have cfg := inv.accepted (ne_idle_of_run run)
    rcases acceptDatagram_cases d s with h | ⟨-, h⟩ <;> rw [h]
    · rwa [received_mem]
    · rw [computeFrame_mem, received_mem]
      exact ok.fill nofun (frameElems_fit (by rwa [received_cfg]))
  | pushbufWrite k v inRange =>
    exact ⟨Memory.wf_store _ _ _ ok.1, Memory.wholeElements_store (w := .pushBuf) _ nofun inRange ok.2⟩
  | _ => exact ok

/-! ### Which elements are specified -/

/-- An element in range of an array that the instruction does not own is what it was. -/
theorem effect_element {s u : State} {i : Instr} {w : Window} {k : Nat} (effect : Effect s i u) (inv : s.CsbInv)
    (notOwner : ¬ Owns w i) (inRange : k < windowLen w) : u.element w k = s.element w k := by
  have first := base_le_elemAddr w k
  have last := elem_le_limit inRange
  exact Memory.load_congr fun b h1 h2 => effect_byte effect inv notOwner (by omega) (by omega)

/-- The invariant depends on the mode, the configuration and the count of frames besides the memory. -/
theorem State.MemInv.of_mem {s u : State} (inv : s.MemInv) (mem : u.mem = s.mem) (mode : u.mode = s.mode)
    (cfg : u.cfg = s.cfg) (frames : u.counters.frames = s.counters.frames) : u.MemInv := by
  obtain ⟨canonical, whole, spec, freq⟩ := inv
  constructor <;> simpa only [State.element, mem, mode, cfg, frames]

theorem memInv_ofData {s t : State} (h : t.data = s.data) (inv : s.MemInv) : t.MemInv := by
  obtain ⟨mode, cfg, -, -, -, counters, mem⟩ := data_eq_iff.1 h
  exact inv.of_mem mem mode cfg (congrArg Counters.frames counters)

/-- An effect that owns neither SPEC_OUT nor FREQ, and keeps what their elements depend on, keeps the invariant. -/
theorem State.MemInv.of_notOwner {s u : State} {i : Instr} (mem : s.MemInv) (inv : s.CsbInv) (effect : Effect s i u)
    (notSpec : ¬ Owns .specOut i) (notFreq : ¬ Owns .freq i) (mode : u.mode ≠ .idle ↔ s.mode ≠ .idle)
    (cfg : s.mode ≠ .idle → u.cfg = s.cfg) (frames : u.counters.frames = s.counters.frames) : u.MemInv := by
  obtain ⟨canonical, whole⟩ := effect_memOk effect inv mem.ok
  refine ⟨canonical, whole, fun k hk => ?_, fun k hk => ?_⟩
  · rw [effect_element effect inv notSpec hk, mem.spec k hk, mode, frames]
    exact and_congr_right fun active => by rw [cfg active]
  · rw [effect_element effect inv notFreq hk, mem.freq k hk, mode]
    exact and_congr_right fun active => by rw [cfg active]

theorem memInv_idle {s : State} (idle : s.mode = .idle) (ok : s.mem.Ok)
    (spec : ∀ k < Config.fftNMax, s.element .specOut k = none)
    (freq : ∀ k < Config.fftNMax, s.element .freq k = none) : s.MemInv where
  canonical := ok.1
  whole := ok.2
  spec k hk := by simp [spec k hk, idle]
  freq k hk := by simp [freq k hk, idle]

theorem tornDown_element {s : State} {w : Window} {k : Nat}
    (erased : 0x30000000 ≤ w.base ∧ windowLimit w ≤ 0x50000000) (inRange : k < windowLen w) :
    (tornDown s).element w k = none := Memory.load_erased erased inRange

theorem constructed_element_spec {s : State} (checks : firstFailingCheck s.cfg = 0) {k : Nat}
    (inRange : k < Config.fftNMax) : (constructed s).element .specOut k = none := by
  rw [State.element, constructed_mem,
    Memory.load_fill_other _ (by decide) (freqElems_fit (accepted_of_checks checks)) inRange]
  exact Memory.load_erased (by decide) inRange

theorem isSome_load_fill_iff {m : Memory} {w : Window} {vs : List Nat} {k : Nat} :
    ((m.fill w vs).load (elemAddr w k) w.elemSize.bytes).isSome = true ↔
      k < vs.length ∨ (m.load (elemAddr w k) w.elemSize.bytes).isSome = true := by
  rcases Nat.lt_or_ge k vs.length with below | beyond
  · simp [Memory.load_fill _ below, below]
  · simp [Memory.load_fill_beyond _ beyond, beyond.not_gt]

theorem constructed_memInv {s : State} (ok : s.mem.Ok) (checks : firstFailingCheck s.cfg = 0) :
    (constructed s).MemInv where
  canonical := (ok.erase.fill (by decide) (freqElems_fit (accepted_of_checks checks))).1
  whole := (ok.erase.fill (by decide) (freqElems_fit (accepted_of_checks checks))).2
  spec k hk := by
    rw [constructed_element_spec checks hk]
    exact ⟨nofun, fun h => absurd rfl h.2.1⟩
  freq k hk := by
    have erased := Memory.load_erased (m := s.mem) (w := .freq) (i := k) (by decide) hk
    rw [State.element, constructed_mem, isSome_load_fill_iff, erased, freqElems_length]
    simp [constructed]

theorem addFrame_frames_ne_zero (c : Counters) : c.addFrame.frames ≠ 0 := by
  intro zero
  have counted := congrArg BitVec.toNat zero
  change (satAdd c.frames 1).toNat = 0 at counted
  rw [toNat_satAdd] at counted
  omega

theorem computeFrame_memInv {s : State} (mem : s.MemInv) (cfg : s.cfg.Accepted) (active : s.mode ≠ .idle) :
    (computeFrame s).MemInv where
  canonical := (mem.ok.fill (by decide) (frameElems_fit cfg)).1
  whole := (mem.ok.fill (by decide) (frameElems_fit cfg)).2
  spec k hk := by
    have frames : (computeFrame s).counters.frames ≠ 0 := addFrame_frames_ne_zero _
    have old := mem.spec k hk
    rw [State.element] at old
    rw [State.element, computeFrame_mem, isSome_load_fill_iff, frameElems_length, old]
    constructor
    · rintro (below | ⟨-, -, below⟩) <;> exact ⟨active, frames, below⟩
    · exact fun h => .inl h.2.2
  freq k hk := by
    rw [State.element, computeFrame_mem, Memory.load_fill_other _ (by decide) (frameElems_fit cfg) hk]
    exact mem.freq k hk

theorem fifoPush_frames (xs : List Sample) (s : State) : (fifoPush xs s).counters.frames = s.counters.frames := by
  rw [fifoPush_counters]
  split <;> rfl

theorem received_frames (d : List Byte) (s : State) : (received d s).counters.frames = s.counters.frames := by
  rw [received, fifoPush_frames]
  change (gapDetect s.seq (parseSeq d) s.counters).frames = _
  rcases gapDetect_cases s.seq (parseSeq d) s.counters with h | h <;> rw [h]
  rfl

/-- An accepted datagram before the trigger writes no array. -/
theorem received_memInv {s : State} (inv : s.MemInv) (d : List Byte) : (received d s).MemInv :=
  inv.of_mem (received_mem d s) (received_mode d s) (received_cfg d s) (received_frames d s)

/-- Every effect keeps the memory's invariant. -/
theorem effect_memInv {s u : State} {i : Instr} (effect : Effect s i u) (inv : s.CsbInv) (mem : s.MemInv) :
    u.MemInv := by
  have keeps := mem.of_notOwner inv effect
  cases effect with
  | quiet i => exact mem
  | init idle checks => exact constructed_memInv mem.ok checks
  | start ready => exact keeps nofun nofun (iff_of_true nofun (ne_idle_of_ready ready)) (fun _ => rfl) rfl
  | stop run => exact keeps nofun nofun (iff_of_true nofun (ne_idle_of_run run)) (fun _ => rfl) rfl
  | deinit =>
    exact memInv_idle rfl mem.ok.erase
      (fun k hk => tornDown_element (by decide) hk) (fun k hk => tornDown_element (by decide) hk)
  | fifoPush n xs ready fits =>
    exact mem.of_mem (fifoPush_mem xs s) (fifoPush_mode xs s) (fifoPush_cfg xs s) (fifoPush_frames xs s)
  | fifoPop n ready => exact keeps nofun nofun .rfl (fun _ => rfl) rfl
  | engineRun ready enough =>
    exact computeFrame_memInv mem (inv.accepted (ne_idle_of_ready ready)) (ne_idle_of_ready ready)
  | malformed d run => exact mem.of_mem rfl rfl rfl rfl
  | accepted d run wellFormed =>
    have taken := received_memInv mem d
    have cfg := inv.accepted (ne_idle_of_run run)
    rcases acceptDatagram_cases d s with h | ⟨-, h⟩ <;> rw [h]
    · exact taken
    · exact computeFrame_memInv taken (by rwa [received_cfg]) (by rw [received_mode]; exact ne_idle_of_run run)
  | configure off c v idle => exact keeps nofun nofun .rfl (absurd idle) rfl
  | pushbufWrite k v inRange => exact keeps nofun nofun .rfl (fun _ => rfl) rfl

/-! ### The range of SPEC_OUT -/

theorem specInRange_ofData {s t : State} (h : t.data = s.data) (range : s.SpecInRange) : t.SpecInRange := by
  obtain ⟨-, -, -, -, -, -, mem⟩ := data_eq_iff.1 h
  intro k hk v hv
  rw [State.element, mem] at hv
  exact range k hk v hv

theorem specInRange_of_unspecified {s : State} (none : ∀ k < Config.fftNMax, s.element .specOut k = none) :
    s.SpecInRange := by
  intro k hk v hv
  rw [none k hk] at hv
  cases hv

/-- The batch of NRAW elements that a frame is made of is legal (R109, R32). -/
theorem legalBatch {s : State} (inv : s.CsbInv) (active : s.mode ≠ .idle) (enough : s.derived.nraw ≤ s.csb.avail) :
    LegalBatch Config.capMax Config.fftNMax s.cfg.fftN.toNat s.cfg.fftBatch.toNat (fifoPop s.derived.nraw s).1 := by
  have cfg := inv.accepted active
  exact {
    two_le := cfg.two_le
    even := cfg.even
    le_max := cfg.le_max
    windows := cfg.windows
    length := by rw [fifoPop_length, Nat.min_eq_left enough, inv.derived active]; rfl
    fits := cfg.nraw_le.trans cfg.cap_le }

/-- An element of SPEC_OUT holds its pattern whole. -/
theorem ofNat_toNat_mod (x : BitVec 32) : BitVec.ofNat 32 (x.toNat % 256 ^ Window.specOut.elemSize.bytes) = x := by
  rw [Nat.mod_eq_of_lt (show x.toNat < 256 ^ Window.specOut.elemSize.bytes from x.isLt), BitVec.ofNat_toNat,
    BitVec.setWidth_eq]

theorem computeFrame_specInRange {s : State} (inv : s.CsbInv) (active : s.mode ≠ .idle)
    (enough : s.derived.nraw ≤ s.csb.avail) (range : s.SpecInRange) : (computeFrame s).SpecInRange := by
  intro k hk v hv
  rw [State.element, computeFrame_mem] at hv
  rcases Nat.lt_or_ge k (frameElems s).length with below | beyond
  · rw [Memory.load_fill _ below] at hv
    cases hv
    rw [frameElems_length] at below
    have value := specNum_frameValue (fifoPop s.derived.nraw s).2.draws (legalBatch inv active enough) below
    simp only [frameElems, List.getElem_map, List.getElem_range]
    rwa [ofNat_toNat_mod]
  · rw [Memory.load_fill_beyond _ beyond] at hv
    exact range k hk v hv

/-- Every effect keeps the range: SPEC_OUT's owners clear it or write a frame. -/
theorem effect_specInRange {s u : State} {i : Instr} (effect : Effect s i u) (inv : s.CsbInv)
    (range : s.SpecInRange) : u.SpecInRange := by
  by_cases owner : Owns .specOut i
  · cases effect with
    | quiet i => exact range
    | init idle checks => exact specInRange_of_unspecified fun k hk => constructed_element_spec checks hk
    | deinit => exact specInRange_of_unspecified fun k hk => tornDown_element (by decide) hk
    | engineRun ready enough => exact computeFrame_specInRange inv (ne_idle_of_ready ready) enough range
    | malformed d run => exact range
    | accepted d run wellFormed =>
      have taken : (received d s).SpecInRange := by
        simpa only [State.SpecInRange, State.element, received_mem] using range
      have active := ne_idle_of_run run
      rcases acceptDatagram_cases d s with h | ⟨full, h⟩ <;> rw [h]
      · exact taken
      · exact computeFrame_specInRange (received_csbInv inv active d) (by rwa [received_mode]) full.ge taken
    | _ => cases owner
  · intro k hk v hv
    rw [effect_element effect inv owner hk] at hv
    exact range k hk v hv

end Sys2Proof.Machine
end

section
/-! The obligation on the memory's invariant. -/
namespace Sys2Proof.Proofs
open Sys2Proof Sys2Proof.Machine

/-- Settles O60: both invariants read only the data of the block, on which a step is a reset or an effect, and the
buffer's invariant carries the memory's. -/
theorem stepKeepsInvariant : Obligations.StepKeepsInvariant := by
  have resetCsb (s : State) : (hardwareReset s).CsbInv := csbInv_idle rfl rfl rfl rfl rfl
  constructor
  · intro s t inv next
    exact step_keeps (P := State.Inv) (fun data inv => ⟨csbInv_ofData data inv.1, memInv_ofData data inv.2⟩)
      (fun s => ⟨resetCsb s, memInv_idle rfl ⟨rfl, Memory.wholeElements_nil⟩ (fun _ _ => rfl) (fun _ _ => rfl)⟩)
      (fun effect inv => ⟨effect_csbInv effect inv.1, effect_memInv effect inv.1 inv.2⟩) inv next
  · intro s t inv range next
    exact (step_keeps (P := fun s => s.CsbInv ∧ s.SpecInRange)
      (fun data inv => ⟨csbInv_ofData data inv.1, specInRange_ofData data inv.2⟩)
      (fun s => ⟨resetCsb s, specInRange_of_unspecified fun _ _ => rfl⟩)
      (fun effect inv => ⟨effect_csbInv effect inv.1, effect_specInRange effect inv.1 inv.2⟩) ⟨inv, range⟩ next).2

end Sys2Proof.Proofs
end

section
/-! SUPPORT. The bits of ERR: a bus error and a command's end only set them, and CLR_ERR alone clears them (R53). -/
namespace Sys2Proof.Machine

/-- Each bit of ERR that is set in `e` is set in `f`. -/
structure ErrBits.Le (e f : ErrBits) : Prop where
  bus : e.bus = true → f.bus = true
  cmd : e.cmd = true → f.cmd = true
  cfg : e.cfg = true → f.cfg = true

theorem ErrBits.Le.refl (e : ErrBits) : e.Le e := ⟨id, id, id⟩

theorem ErrBits.le_withBus (e : ErrBits) : e.Le e.withBus := ⟨fun _ => rfl, id, id⟩

theorem ErrBits.le_afterCommand (e : ErrBits) (code : Status) : e.Le (e.afterCommand code) where
  bus := id
  cmd h := by simp [ErrBits.afterCommand, h]
  cfg h := by simp [ErrBits.afterCommand, h]

/-- An outcome that, where it is a next state, has the bits of ERR that `s` has. -/
def KeepsErr (s : State) (o : Host.Outcome State Fault Refusal) : Prop := ∀ t, o = .next t → s.err.Le t.err

theorem keepsErr_next {s t : State} (h : s.err.Le t.err) : KeepsErr s (.next t) := by
  rintro _ ⟨⟩; exact h

theorem keepsErr_of_eq {s t : State} (h : t.err = s.err) : KeepsErr s (.next t) :=
  keepsErr_next (h ▸ ErrBits.Le.refl t.err)

theorem keepsErr_busfault (s : State) : KeepsErr s (.next (busfault s)) := keepsErr_next s.err.le_withBus

/-- A command keeps the bits when its rule leaves ERR: the recording of its end only sets bits. -/
theorem runCommand_keepsErr {opc : Byte} {legal : Mode → Bool} {rule : State → CmdEnd} {s : State}
    (keeps : ∀ res t, rule s = .ok res t → t.err = s.err) : KeepsErr s (.next (runCommand opc legal rule s)) := by
  apply keepsErr_next
  rcases runCommand_cases opc legal rule s with ⟨-, res, t, hr, h⟩ | ⟨-, code, info, -, h⟩ | ⟨-, h⟩ <;>
    rw [h, recordStatus_err]
  · rw [keeps res t hr]; exact s.err.le_afterCommand _
  · exact s.err.le_afterCommand _
  · exact s.err.le_afterCommand _

theorem readArray_keepsErr (w : Window) (i : Nat) (s : State) : KeepsErr s (.next (readArray w i s)) := by
  rcases readArray_cases w i s with ⟨-, v, -, h⟩ | ⟨-, -, v, h⟩ | ⟨-, h⟩ <;> rw [h]
  · exact keepsErr_of_eq rfl
  · exact keepsErr_of_eq rfl
  · exact keepsErr_busfault s

theorem writeArray_keepsErr (w : Window) (i v : Nat) (s : State) : KeepsErr s (.next (writeArray w i v s)) := by
  rcases writeArray_cases w i v s with ⟨-, h⟩ | ⟨-, h⟩ <;> rw [h]
  · exact keepsErr_of_eq rfl
  · exact keepsErr_busfault s

theorem execHostRegRead_keepsErr (off : BitVec 9) (s : State) : KeepsErr s (execHostRegRead off s) := by
  rcases execHostRegRead_cases off s with ⟨r, -, h⟩ | ⟨-, h⟩ <;> rw [h]
  · exact keepsErr_of_eq rfl
  · exact keepsErr_busfault s

theorem execHostRegWrite_keepsErr {off : BitVec 9} (v : Word) (s : State) (h : off ≠ 0) :
    KeepsErr s (execHostRegWrite off v s) := by
  rcases execHostRegWrite_cases off v s h with ⟨c, -, -, e⟩ | e <;> rw [e]
  · exact keepsErr_of_eq rfl
  · exact keepsErr_busfault s

theorem received_err (d : List Byte) (s : State) : (received d s).err = s.err := fifoPush_err ..

/-- The ingestion loop reports nothing in ERR. -/
theorem ingest_err (d : List Byte) (s : State) : (ingest d s).err = s.err := by
  rcases ingest_cases d s with ⟨-, h⟩ | ⟨-, -, h⟩ | ⟨-, -, h⟩ <;> rw [h]
  rcases acceptDatagram_cases d s with e | ⟨-, e⟩ <;> rw [e] <;> exact received_err d s

/-- Every instruction but CLR_ERR and a write of CMD, which may be one, keeps the bits of ERR. -/
theorem exec_keepsErr {i : Instr} (s : State) (notClrErr : i ≠ .clrErr) (notCmd : ∀ v, i ≠ .hostRegWrite 0 v) :
    KeepsErr s (exec i s) := by
  cases i with
  | nop => exact runCommand_keepsErr (by rintro _ _ ⟨⟩; rfl)
  | start => exact runCommand_keepsErr (by rintro _ _ ⟨⟩; rfl)
  | stop => exact runCommand_keepsErr (by rintro _ _ ⟨⟩; rfl)
  | deinit => exact runCommand_keepsErr (by rintro _ _ ⟨⟩; rfl)
  | fifoPop n => exact runCommand_keepsErr (by rintro _ _ ⟨⟩; rfl)
  | clrErr => exact absurd rfl notClrErr
  | init =>
    refine runCommand_keepsErr fun _ t h => ?_
    obtain ⟨-, rfl⟩ := ruleInit_ok h
    rfl
  | fifoPush n =>
    refine runCommand_keepsErr fun _ t h => ?_
    obtain ⟨xs, k, -, rfl⟩ := ruleFifoPush_ok h
    exact fifoPush_err xs _
  | engineRun =>
    refine runCommand_keepsErr fun _ t h => ?_
    obtain ⟨-, rfl⟩ := ruleEngineRun_ok h
    rfl
  | rxDatagram d => exact keepsErr_of_eq (ingest_err d s)
  | rxTimeout len => exact keepsErr_of_eq rfl
  | hostRegRead off => exact execHostRegRead_keepsErr off s
  | hostRegWrite off v => exact execHostRegWrite_keepsErr v s fun zero => notCmd v (zero ▸ rfl)
  | pushbufWrite k v => exact writeArray_keepsErr _ _ _ s
  | pushbufRead k => exact readArray_keepsErr _ _ s
  | popbufRead k => exact readArray_keepsErr _ _ s
  | specRead k => exact readArray_keepsErr _ _ s
  | freqRead k => exact readArray_keepsErr _ _ s

end Sys2Proof.Machine
end

section
/-! The obligation on ERR. -/
namespace Sys2Proof.Proofs
open Sys2Proof Sys2Proof.Machine

/-- Settles O49: ERR changes by a bus error and by a command's end, which only set bits. -/
theorem errBitsSticky : Obligations.ErrBitsSticky := by
  intro i s t wellFormed notClrErr next
  obtain ⟨bus, cmd, cfg⟩ := exec_keepsErr s notClrErr (ne_cmdWrite_of_wellFormed wellFormed) t next
  exact ⟨bus, cmd, cfg⟩

end Sys2Proof.Proofs
end

section
/-! SUPPORT. Nothing the block does depends on CFG_LISTEN_PORT and CFG_RX_TIMEOUT_MS (R30, R31): every operation on a
state with other values there does what it does without, and keeps them. -/
namespace Sys2Proof.Machine

section
variable (port timeout : Word)

@[simp] theorem withPorts_mode (s : State) : (s.withPorts port timeout).mode = s.mode := rfl
@[simp] theorem withPorts_derived (s : State) : (s.withPorts port timeout).derived = s.derived := rfl
@[simp] theorem withPorts_mem (s : State) : (s.withPorts port timeout).mem = s.mem := rfl

/-- A command's end with the state it leaves at other values of the two registers. -/
def CmdEnd.withPorts : CmdEnd → CmdEnd
  | .ok result s => .ok result (s.withPorts port timeout)
  | .raise code info => .raise code info

/-! ### The shared operations -/

theorem readElement_withPorts (a n : Nat) (s : State) :
    readElement a n (s.withPorts port timeout) =
      ((readElement a n s).1, (readElement a n s).2.withPorts port timeout) := by
  rcases readElement_cases a n s with ⟨v, h, e⟩ | ⟨h, e⟩ <;>
    rw [e, readElement, withPorts_mem, h]
  rfl

theorem readSamples_withPorts (cnt a : Nat) (s : State) :
    readSamples cnt a (s.withPorts port timeout) =
      ((readSamples cnt a s).1, (readSamples cnt a s).2.withPorts port timeout) := by
  induction cnt generalizing a s with
  | zero => rfl
  | succ cnt ih => simp only [readSamples, readElement_withPorts, ih]

theorem readArray_withPorts (w : Window) (i : Nat) (s : State) :
    readArray w i (s.withPorts port timeout) = (readArray w i s).withPorts port timeout := by
  unfold readArray
  rw [readElement_withPorts]
  split <;> rfl

theorem writeArray_withPorts (w : Window) (i v : Nat) (s : State) :
    writeArray w i v (s.withPorts port timeout) = (writeArray w i v s).withPorts port timeout := by
  unfold writeArray
  split <;> rfl

theorem fifoPush_withPorts (xs : List Sample) (s : State) :
    fifoPush xs (s.withPorts port timeout) = (fifoPush xs s).withPorts port timeout := by
  by_cases overflow : s.csb.avail + xs.length > s.derived.cap
  · rw [fifoPush_of_overflow overflow, fifoPush_of_overflow (s := s.withPorts port timeout) overflow]; rfl
  · rw [fifoPush_of_fits overflow, fifoPush_of_fits (s := s.withPorts port timeout) overflow]; rfl

theorem computeFrame_withPorts (s : State) :
    computeFrame (s.withPorts port timeout) = (computeFrame s).withPorts port timeout := rfl

theorem trigger_withPorts (s : State) :
    trigger (s.withPorts port timeout) = (trigger s).withPorts port timeout := by
  by_cases full : s.csb.avail = s.derived.nraw
  · rw [trigger_of_full full, trigger_of_full (s := s.withPorts port timeout) full, computeFrame_withPorts]
  · rw [trigger_of_not_full full, trigger_of_not_full (s := s.withPorts port timeout) full]

theorem acceptDatagram_withPorts (d : List Byte) (s : State) :
    acceptDatagram d (s.withPorts port timeout) = (acceptDatagram d s).withPorts port timeout := by
  change trigger (fifoPush (payload d s) ((numbered d s).withPorts port timeout)) = _
  rw [fifoPush_withPorts, trigger_withPorts]
  rfl

theorem ingest_withPorts (d : List Byte) (s : State) :
    ingest d (s.withPorts port timeout) = (ingest d s).withPorts port timeout := by
  have same : isMalformed d (s.withPorts port timeout) = isMalformed d s := rfl
  unfold ingest
  rw [acceptDatagram_withPorts, withPorts_mode, same]
  split
  · rfl
  · split <;> rfl

/-! ### Commands -/

/-- A command does not depend on the two registers when its rule does not. -/
theorem runCommand_withPorts {opc : Byte} {legal : Mode → Bool} {rule : State → CmdEnd} {s : State}
    (blind : rule (s.withPorts port timeout) = (rule s).withPorts port timeout) :
    runCommand opc legal rule (s.withPorts port timeout) =
      (runCommand opc legal rule s).withPorts port timeout := by
  rcases runCommand_cases opc legal rule s with ⟨hl, res, t, hr, h⟩ | ⟨hl, code, info, hr, h⟩ | ⟨hl, h⟩ <;> rw [h]
  · exact runCommand_ok (s := s.withPorts port timeout) hl (blind.trans (congrArg _ hr))
  · exact runCommand_raise (s := s.withPorts port timeout) hl (blind.trans (congrArg _ hr))
  · exact runCommand_illegal (s := s.withPorts port timeout) hl

theorem ruleInit_withPorts (s : State) :
    ruleInit (s.withPorts port timeout) = (ruleInit s).withPorts port timeout := by
  have same : firstFailingCheck (s.withPorts port timeout).cfg = firstFailingCheck s.cfg := rfl
  unfold ruleInit
  rw [same]
  dsimp only
  split <;> rfl

theorem ruleFifoPush_withPorts (n : Nat) (s : State) :
    ruleFifoPush n (s.withPorts port timeout) = (ruleFifoPush n s).withPorts port timeout := by
  unfold ruleFifoPush
  simp only [withPorts_derived, readSamples_withPorts, fifoPush_withPorts]
  split <;> rfl

theorem ruleEngineRun_withPorts (s : State) :
    ruleEngineRun (s.withPorts port timeout) = (ruleEngineRun s).withPorts port timeout := by
  by_cases short : s.csb.avail < s.derived.nraw
  · rw [ruleEngineRun_of_short short, ruleEngineRun_of_short (s := s.withPorts port timeout) short]; rfl
  · rw [ruleEngineRun_of_enough short, ruleEngineRun_of_enough (s := s.withPorts port timeout) short]; rfl

/-! ### The register window -/

/-- The two registers for RXPORT (R30, R31). -/
def CfgReg.isPort : CfgReg → Bool
  | .listenPort => true
  | .rxTimeoutMs => true
  | _ => false

theorem regAt_port {off : BitVec 9} {c : CfgReg} (h : regAt off.toNat = some (.cfg c)) (notListen : off ≠ 0x078)
    (notTimeout : off ≠ 0x080) : c.isPort = false := by
  have key : ∀ o : BitVec 9, regAt o.toNat = some (.cfg .listenPort) ∨ regAt o.toNat = some (.cfg .rxTimeoutMs) →
      o = 0x078 ∨ o = 0x080 := by decide +kernel
  cases c with
  | listenPort => exact absurd (key off (.inl h)) (not_or.2 ⟨notListen, notTimeout⟩)
  | rxTimeoutMs => exact absurd (key off (.inr h)) (not_or.2 ⟨notListen, notTimeout⟩)
  | _ => rfl

theorem Reg.read_withPorts {r : Reg} (h : ∀ c, r = .cfg c → c.isPort = false) (s : State) :
    r.read (s.withPorts port timeout) = r.read s := by
  cases r with
  | cfg c =>
    have other := h c rfl
    cases c with
    | listenPort => cases other
    | rxTimeoutMs => cases other
    | _ => rfl
  | _ => rfl

theorem CfgReg.write_withPorts {c : CfgReg} (h : c.isPort = false) (v : Word) (s : State) :
    ({ s.withPorts port timeout with cfg := c.write v (s.withPorts port timeout).cfg } : State) =
      State.withPorts { s with cfg := c.write v s.cfg } port timeout := by
  cases c with
  | listenPort => cases h
  | rxTimeoutMs => cases h
  | _ => rfl

theorem exec_hostRegRead {off : BitVec 9} {r : Reg} (h : regAt off.toNat = some r) (s : State) :
    exec (.hostRegRead off) s = .next (respondRead (r.read s) s) := by
  change execHostRegRead off s = _
  rw [execHostRegRead, h]

theorem exec_hostRegRead_reserved {off : BitVec 9} (h : regAt off.toNat = none) (s : State) :
    exec (.hostRegRead off) s = .next (busfault s) := by
  change execHostRegRead off s = _
  rw [execHostRegRead, h]

theorem exec_hostRegWrite {off : BitVec 9} {r : Reg} (h : regAt off.toNat = some r) (v : Word) (s : State) :
    exec (.hostRegWrite off v) s = writeReg r v s := by
  change execHostRegWrite off v s = _
  rw [execHostRegWrite, h]

theorem exec_hostRegWrite_reserved {off : BitVec 9} (h : regAt off.toNat = none) (v : Word) (s : State) :
    exec (.hostRegWrite off v) s = .next (busfault s) := by
  change execHostRegWrite off v s = _
  rw [execHostRegWrite, h]

theorem writeReg_cfg_idle {s : State} (idle : s.mode = .idle) (c : CfgReg) (v : Word) :
    writeReg (.cfg c) v s = .next (respondWrite { s with cfg := c.write v s.cfg }) := if_pos idle

theorem writeReg_cfg_active {s : State} (active : s.mode ≠ .idle) (c : CfgReg) (v : Word) :
    writeReg (.cfg c) v s = .next (busfault s) := if_neg active

/-! ### Instructions -/

/-- An instruction's next state is the same at other values of the two registers, but for these values. -/
def PortBlind (i : Instr) (s : State) : Prop :=
  ∀ t, exec i s = .next t → exec i (s.withPorts port timeout) = .next (t.withPorts port timeout)

theorem portBlind_of_next {i : Instr} {s : State} {f : State → State} (h : ∀ u, exec i u = .next (f u))
    (blind : f (s.withPorts port timeout) = (f s).withPorts port timeout) : PortBlind port timeout i s := by
  intro t next
  rw [h] at next ⊢
  cases next
  rw [blind]

/-- A command is a run of its rule. -/
theorem portBlind_of_rule {i : Instr} {s : State} {opc : Byte} {legal : Mode → Bool} {rule : State → CmdEnd}
    (h : ∀ u, exec i u = .next (runCommand opc legal rule u))
    (blind : rule (s.withPorts port timeout) = (rule s).withPorts port timeout) : PortBlind port timeout i s :=
  portBlind_of_next port timeout h (runCommand_withPorts port timeout blind)

theorem hostRegRead_portBlind {off : BitVec 9} (s : State) (notListen : off ≠ 0x078) (notTimeout : off ≠ 0x080) :
    PortBlind port timeout (.hostRegRead off) s := by
  cases hr : regAt off.toNat with
  | none => exact portBlind_of_next port timeout (exec_hostRegRead_reserved hr) rfl
  | some r =>
    have other : ∀ c, r = .cfg c → c.isPort = false := by
      rintro c rfl
      exact regAt_port hr notListen notTimeout
    refine portBlind_of_next port timeout (exec_hostRegRead hr) ?_
    rw [Reg.read_withPorts port timeout other]
    rfl

theorem hostRegWrite_portBlind {off : BitVec 9} (v : Word) (s : State) (notCmd : off ≠ 0) (notListen : off ≠ 0x078)
    (notTimeout : off ≠ 0x080) : PortBlind port timeout (.hostRegWrite off v) s := by
  cases hr : regAt off.toNat with
  | none => exact portBlind_of_next port timeout (exec_hostRegWrite_reserved hr v) rfl
  | some r =>
    intro t next
    rw [exec_hostRegWrite hr] at next ⊢
    cases r with
    | cmd => exact absurd (regAt_cmd off hr) notCmd
    | cfg c =>
      by_cases idle : s.mode = .idle
      · rw [writeReg_cfg_idle idle] at next
        cases next
        rw [writeReg_cfg_idle (s := s.withPorts port timeout) idle,
          CfgReg.write_withPorts port timeout (regAt_port hr notListen notTimeout)]
        rfl
      · rw [writeReg_cfg_active idle] at next
        cases next
        exact writeReg_cfg_active (s := s.withPorts port timeout) idle c v
    | _ => cases next; rfl

/-- Every instruction that accesses neither of the two registers, nor CMD by a register write, is blind to them. -/
theorem exec_portBlind {i : Instr} (s : State) (notCmd : ∀ v, i ≠ .hostRegWrite 0 v)
    (notReadListen : i ≠ .hostRegRead 0x078) (notReadTimeout : i ≠ .hostRegRead 0x080)
    (notWriteListen : ∀ v, i ≠ .hostRegWrite 0x078 v) (notWriteTimeout : ∀ v, i ≠ .hostRegWrite 0x080 v) :
    PortBlind port timeout i s := by
  cases i with
  | nop => exact portBlind_of_rule port timeout (fun _ => rfl) rfl
  | init => exact portBlind_of_rule port timeout (fun _ => rfl) (ruleInit_withPorts port timeout s)
  | start => exact portBlind_of_rule port timeout (fun _ => rfl) rfl
  | stop => exact portBlind_of_rule port timeout (fun _ => rfl) rfl
  | deinit => exact portBlind_of_rule port timeout (fun _ => rfl) rfl
  | clrErr => exact portBlind_of_rule port timeout (fun _ => rfl) rfl
  | fifoPush n => exact portBlind_of_rule port timeout (fun _ => rfl) (ruleFifoPush_withPorts port timeout n.toNat s)
  | fifoPop n => exact portBlind_of_rule port timeout (fun _ => rfl) rfl
  | engineRun => exact portBlind_of_rule port timeout (fun _ => rfl) (ruleEngineRun_withPorts port timeout s)
  | rxDatagram d => exact portBlind_of_next port timeout (fun _ => rfl) (ingest_withPorts port timeout d s)
  | rxTimeout len => exact portBlind_of_next port timeout (f := id) (fun _ => rfl) rfl
  | hostRegRead off =>
    exact hostRegRead_portBlind port timeout s (fun h => notReadListen (h ▸ rfl)) fun h => notReadTimeout (h ▸ rfl)
  | hostRegWrite off v =>
    exact hostRegWrite_portBlind port timeout v s (fun h => notCmd v (h ▸ rfl))
      (fun h => notWriteListen v (h ▸ rfl)) fun h => notWriteTimeout v (h ▸ rfl)
  | pushbufWrite k v =>
    exact portBlind_of_next port timeout (fun _ => rfl) (writeArray_withPorts port timeout .pushBuf k.toNat v.toNat s)
  | pushbufRead k =>
    exact portBlind_of_next port timeout (fun _ => rfl) (readArray_withPorts port timeout .pushBuf k.toNat s)
  | popbufRead k =>
    exact portBlind_of_next port timeout (fun _ => rfl) (readArray_withPorts port timeout .popBuf k.toNat s)
  | specRead k =>
    exact portBlind_of_next port timeout (fun _ => rfl) (readArray_withPorts port timeout .specOut k.toNat s)
  | freqRead k =>
    exact portBlind_of_next port timeout (fun _ => rfl) (readArray_withPorts port timeout .freq k.toNat s)

end

end Sys2Proof.Machine
end

section
/-! The obligation on the registers for RXPORT. -/
namespace Sys2Proof.Proofs
open Sys2Proof Sys2Proof.Machine

/-- Settles O51: no function of the model reads the two registers but the accesses the premises exclude. -/
theorem rxportRegistersHaveNoEffect : Obligations.RxportRegistersHaveNoEffect := by
  intro i s t port timeout wellFormed notReadListen notReadTimeout notWriteListen notWriteTimeout next
  exact exec_portBlind port timeout s (ne_cmdWrite_of_wellFormed wellFormed) notReadListen notReadTimeout
    notWriteListen notWriteTimeout t next

end Sys2Proof.Proofs
end

section
/-! SUPPORT. The frame of a host read (R69): a performed one changes the bus's answer and the draw counter, a bus error
ERR.BUS and the answer. -/
namespace Sys2Proof.Machine

/-- `t` is `s` after a host read: answered with data, perhaps with elements drawn, or refused as a bus error. -/
def AfterRead (s t : State) : Prop :=
  (∃ v n, t = respondRead v { s with draws := n }) ∨ t = busfault s

theorem afterRead_respondRead (v : Word) (s : State) : AfterRead s (respondRead v s) := .inl ⟨v, s.draws, rfl⟩

theorem afterRead_busfault (s : State) : AfterRead s (busfault s) := .inr rfl

theorem afterRead_readArray (w : Window) (i : Nat) (s : State) : AfterRead s (readArray w i s) := by
  rcases readArray_cases w i s with ⟨-, v, -, h⟩ | ⟨-, -, v, h⟩ | ⟨-, h⟩ <;> rw [h]
  · exact afterRead_respondRead _ s
  · exact .inl ⟨v, _, rfl⟩
  · exact afterRead_busfault s

theorem execHostRegRead_afterRead {off : BitVec 9} {s t : State} (next : execHostRegRead off s = .next t) :
    AfterRead s t := by
  rcases execHostRegRead_cases off s with ⟨r, -, h⟩ | ⟨-, h⟩ <;> rw [h] at next <;> cases next
  · exact afterRead_respondRead _ s
  · exact afterRead_busfault s

/-- Everything a host read can do: the register window draws nothing, and the four arrays share one read. -/
theorem exec_afterRead {i : Instr} {s t : State} (read : IsRead i) (next : exec i s = .next t) : AfterRead s t := by
  cases i with
  | hostRegRead off => exact execHostRegRead_afterRead next
  | pushbufRead k => cases next; exact afterRead_readArray _ _ s
  | popbufRead k => cases next; exact afterRead_readArray _ _ s
  | specRead k => cases next; exact afterRead_readArray _ _ s
  | freqRead k => cases next; exact afterRead_readArray _ _ s
  | _ => exact False.elim read

/-- An answer with data is not the bus's error response: its error flag is clear. -/
theorem respondRead_response_ne_errorAnswer (v : Word) (s : State) : (respondRead v s).response ≠ errorAnswer := by
  simp [errorAnswer]

end Sys2Proof.Machine
end

section
/-! The obligation on the side effects of host reads. -/
namespace Sys2Proof.Proofs
open Sys2Proof Sys2Proof.Machine

/-- Settles O45: a read either answers with data or is a bus error, and each has its own frame. -/
theorem readsHaveNoSideEffects : Obligations.ReadsHaveNoSideEffects := by
  intro i s t read next
  rcases exec_afterRead read next with ⟨v, n, rfl⟩ | rfl
  · exact .inl ⟨rfl, respondRead_response_ne_errorAnswer v _⟩
  · exact .inr rfl

end Sys2Proof.Proofs
end

section
/-! SUPPORT. Numbers and fields of concatenated bit vectors, which is how the encodings of R61, R82 and R86 are
written. -/
namespace Sys2Proof

/-- A concatenation as a number: the low part counts below the high part. -/
theorem toNat_append_eq {m n : Nat} (x : BitVec m) (y : BitVec n) : (x ++ y).toNat = x.toNat * 2 ^ n + y.toNat := by
  rw [BitVec.toNat_append, ← Nat.shiftLeft_add_eq_or_of_lt y.isLt, Nat.shiftLeft_eq]

theorem toNat_zero_append {m n : Nat} (x : BitVec n) : (0#m ++ x).toNat = x.toNat := by simp

theorem toNat_indexed {m n b : Nat} (t : BitVec m) (i : BitVec n) :
    (t ++ i ++ 0#b).toNat = (t.toNat * 2 ^ n + i.toNat) * 2 ^ b := by
  simp only [toNat_append_eq, BitVec.toNat_ofNat, Nat.zero_mod, Nat.add_zero]

/-- The field between a tag and zeros. -/
@[simp] theorem extractLsb'_indexed {m n b : Nat} (t : BitVec m) (i : BitVec n) :
    (t ++ i ++ 0#b).extractLsb' b n = i := by
  rw [BitVec.extractLsb'_append_eq_of_le le_rfl, Nat.sub_self, BitVec.extractLsb'_append_eq_right]

/-- A vector whose low bits are zero and whose high bits are a tag is the tag, its field between, and zeros. -/
theorem indexed_extractLsb' {m n b : Nat} {t : BitVec m} {a : BitVec (m + n + b)}
    (tag : a.toNat / 2 ^ (n + b) = t.toNat) (aligned : a.toNat % 2 ^ b = 0) :
    t ++ a.extractLsb' b n ++ 0#b = a := by
  apply BitVec.eq_of_toNat_eq
  calc (t ++ a.extractLsb' b n ++ 0#b).toNat
      = (a.toNat / 2 ^ b / 2 ^ n * 2 ^ n + a.toNat / 2 ^ b % 2 ^ n) * 2 ^ b := by
        rw [toNat_indexed, ← tag, BitVec.extractLsb'_toNat, Nat.shiftRight_eq_div_pow, Nat.div_div_eq_div_mul,
          ← pow_add, Nat.add_comm b n]
    _ = a.toNat := by rw [Nat.div_add_mod', Nat.div_mul_cancel (Nat.dvd_of_mod_eq_zero aligned)]

/-- A vector below `2 ^ n` is its `n` low bits under zeros. -/
theorem zero_append_extractLsb' {m n : Nat} {a : BitVec (m + n)} (small : a.toNat < 2 ^ n) :
    0#m ++ a.extractLsb' 0 n = a := by
  apply BitVec.eq_of_toNat_eq
  rw [toNat_zero_append, BitVec.extractLsb'_toNat, Nat.shiftRight_zero, Nat.mod_eq_of_lt small]

end Sys2Proof
end

section
/-! SUPPORT. The decoder and the encoder against each other, interface by interface: command words, RX events, and
bus transactions by the window of their address. -/
namespace Sys2Proof
open Sys2Proof.Machine

/-! ### Commands (R82 to R85) -/

/-- An operand is legal where the opcode reads it; elsewhere ARG is 0 (R83, R85). -/
def Opcode.LegalOperand (o : Opcode) (n : BitVec 32) : Prop := o.hasOperand = true ∨ n = 0

theorem decodeCmd_cmdWord {o : Opcode} {n : BitVec 32} (legal : o.LegalOperand n) :
    decodeCmd (cmdWord o n) = .ok (o.instr n) := by
  rw [decodeCmd, checkCmd_cmdWord o n legal]

/-- Only the words of legal commands are commands. -/
theorem decodeCmd_eq_ok {w : Word} {i : Instr} (h : decodeCmd w = .ok i) :
    ∃ o n, w = cmdWord o n ∧ o.LegalOperand n ∧ i = o.instr n := by
  rw [decodeCmd] at h
  split at h
  · cases h
  · next o n checked =>
    cases h
    obtain ⟨word, legal⟩ := (checkCmd_eq_ok w o n).1 checked
    exact ⟨o, n, word, legal, rfl⟩

/-- A word that fails its checks is rejected for the check that failed. -/
theorem decodeCmd_error {w : Word} {r : Reject} (h : checkCmd w = .error r) : decodeCmd w = .error r := by
  rw [decodeCmd, h]

/-- A write of ADDR 0, SIZE 8 is a command (R81). -/
theorem decode_write_zero (w : Word) : decode (.bus (.write 0 .b8 w)) = decodeCmd w :=
  decodeBus_write (w := .regs) rfl rfl

theorem decode_cmdWrite {o : Opcode} {n : BitVec 32} (legal : o.LegalOperand n) :
    decode (cmdWrite o n) = .ok (o.instr n) :=
  (decode_write_zero _).trans (decodeCmd_cmdWord legal)

/-- A legal command is carried by its word. -/
theorem encode_instr {o : Opcode} {n : BitVec 32} (legal : o.LegalOperand n) : encode (o.instr n) = cmdWrite o n := by
  rcases legal with operand | rfl
  · cases o with
    | fifoPush => rfl
    | fifoPop => rfl
    | _ => cases operand
  · cases o <;> rfl

theorem wellFormed_instr (o : Opcode) (n : BitVec 32) : (o.instr n).wellFormed = true := by cases o <;> rfl

/-! ### RX events (R86, R87) -/

@[simp] theorem rxKind_append (k : Byte) (l : BitVec 24) : rxKind (k ++ l) = k :=
  BitVec.extractLsb'_append_eq_left

@[simp] theorem rxLen_append (k : Byte) (l : BitVec 24) : rxLen (k ++ l) = l :=
  BitVec.extractLsb'_append_eq_right

theorem decodeRx_datagram {l : BitVec 24} {d : List Byte} (framed : d.length = l.toNat) :
    decodeRx ⟨0x00#8 ++ l, d⟩ = .ok (.rxDatagram d) := by
  simp [decodeRx, framed]

theorem decodeRx_timeout (l : BitVec 24) : decodeRx ⟨0x01#8 ++ l, []⟩ = .ok (.rxTimeout l) := by
  simp [decodeRx]

/-- Only a datagram with the bytes its LEN gives and a timeout without bytes are RX events of the spec. -/
theorem decodeRx_eq_ok {a : RxArrival} {i : Instr} (h : decodeRx a = .ok i) :
    (∃ (l : BitVec 24) (d : List Byte), a = ⟨0x00#8 ++ l, d⟩ ∧ d.length = l.toNat ∧ i = .rxDatagram d) ∨
    (∃ l : BitVec 24, a = ⟨0x01#8 ++ l, []⟩ ∧ i = .rxTimeout l) := by
  have desc_eq {k : Byte} (kind : (rxKind a.desc).toNat = k.toNat) : k ++ rxLen a.desc = a.desc := by
    rw [← BitVec.eq_of_toNat_eq kind]
    exact (rxDesc_fields a.desc).symm
  rw [decodeRx] at h
  split at h
  · next kind =>
    split at h <;> cases h
    next framed => exact .inl ⟨rxLen a.desc, a.bytes, by rw [desc_eq (k := 0x00#8) kind], framed, rfl⟩
  · next kind =>
    split at h <;> cases h
    next empty => exact .inr ⟨rxLen a.desc, by rw [desc_eq (k := 0x01#8) kind, ← empty], rfl⟩
  · cases h

/-! ### Windows and addresses (R61) -/

/-- The size in bytes of the region of the address space that is a window's. -/
def Window.span : Window → Nat
  | .regs => 0x200
  | .pushBuf => 0x10000000
  | .popBuf => 0x10000000
  | .specOut => 0x10000000
  | .freq => 0x10000000

/-- An element of the window lies at the address: in the window's region and aligned (R61, R62). -/
def Window.Holds (w : Window) (a : Nat) : Prop :=
  w.base ≤ a ∧ a < w.base + w.span ∧ a % w.elemSize.bytes = 0

/-- The regions of the windows are disjoint: an address in one of them lies in no other. -/
theorem windowOf_eq_some {a : Addr} {w : Window} :
    windowOf a = some w ↔ w.base ≤ a.toNat ∧ a.toNat < w.base + w.span := by
  rw [windowOf_eq]
  cases w <;> simp only [Window.base, Window.span] <;> split_ifs <;> simp <;> omega

theorem Window.holds_iff {w : Window} {a : Addr} :
    w.Holds a.toNat ↔ windowOf a = some w ∧ a.toNat % w.elemSize.bytes = 0 := by
  rw [windowOf_eq_some, Window.Holds, and_assoc]

/-- The addresses of an array's elements: a tag of four bits, an index of `n` bits, and `b` zeros. -/
structure Window.Layout (w : Window) (n b : Nat) (t : BitVec 4) : Prop where
  base : w.base = t.toNat * 2 ^ (n + b)
  span : w.span = 2 ^ (n + b)
  size : w.elemSize.bytes = 2 ^ b

theorem pushBuf_layout : Window.pushBuf.Layout 27 1 0x1#4 := ⟨rfl, rfl, rfl⟩
theorem popBuf_layout : Window.popBuf.Layout 27 1 0x2#4 := ⟨rfl, rfl, rfl⟩
theorem specOut_layout : Window.specOut.Layout 26 2 0x3#4 := ⟨rfl, rfl, rfl⟩
theorem freq_layout : Window.freq.Layout 25 3 0x4#4 := ⟨rfl, rfl, rfl⟩

/-- Every index gives the address of an element. -/
theorem Window.Layout.holds {w : Window} {n b : Nat} {t : BitVec 4} (layout : w.Layout n b t) (i : BitVec n) :
    w.Holds (t ++ i ++ 0#b).toNat := by
  have address : (t ++ i ++ 0#b).toNat = w.base + i.toNat * 2 ^ b := by
    rw [toNat_indexed, layout.base, Nat.add_mul, Nat.mul_assoc, ← pow_add]
  have inside : i.toNat * 2 ^ b < w.span := by
    rw [layout.span, pow_add]
    exact Nat.mul_lt_mul_of_pos_right i.isLt (Nat.two_pow_pos b)
  refine ⟨by omega, by omega, ?_⟩
  rw [layout.size, toNat_indexed, Nat.mul_mod_left]

/-- The address of an element is the tag, the index it carries, and zeros. -/
theorem Window.Layout.address {w : Window} {n b : Nat} {t : BitVec 4} (layout : w.Layout n b t)
    {a : BitVec (4 + n + b)} (holds : w.Holds a.toNat) : t ++ a.extractLsb' b n ++ 0#b = a := by
  obtain ⟨above, below, aligned⟩ := holds
  rw [layout.base] at above below
  rw [layout.span, ← Nat.succ_mul] at below
  rw [layout.size] at aligned
  exact indexed_extractLsb' (Nat.div_eq_of_lt_le above below) aligned

/-- Every offset that is a multiple of 8 gives the address of a register. -/
theorem regs_holds {off : BitVec 9} (aligned : off.toNat % 8 = 0) : Window.regs.Holds (0#23 ++ off).toNat := by
  rw [toNat_zero_append]
  exact ⟨Nat.zero_le _, (Nat.zero_add Window.regs.span).symm ▸ off.isLt, aligned⟩

theorem regs_address {a : Addr} (holds : Window.regs.Holds a.toNat) : 0#23 ++ a.extractLsb' 0 9 = a :=
  zero_append_extractLsb' (by simpa [Window.base, Window.span] using holds.2.1)

/-- The offset of a register's address is a multiple of 8. -/
theorem regs_offset_aligned {a : Addr} (holds : Window.regs.Holds a.toNat) : (a.extractLsb' 0 9).toNat % 8 = 0 := by
  have aligned : a.toNat % 8 = 0 := holds.2.2
  simp only [BitVec.extractLsb'_toNat, Nat.shiftRight_zero]
  omega

/-- CMD alone is at offset 0. -/
theorem regs_append_ne_zero {off : BitVec 9} (h : off ≠ 0) : (0#23 ++ off : Addr) ≠ 0 := fun zero =>
  h (by rw [← BitVec.extractLsb'_append_eq_right (a := 0#23) (b := off), zero]; rfl)

theorem regs_offset_ne_zero {a : Addr} (holds : Window.regs.Holds a.toNat) (h : a ≠ 0) : a.extractLsb' 0 9 ≠ 0 :=
  fun zero => h (by rw [← regs_address holds, zero]; rfl)

/-! ### Bus transactions -/

/-- The instruction that reads the element at an address of a window (R100 to R105). -/
def Window.readInstr (w : Window) (a : Addr) : Instr :=
  match w with
  | .regs => .hostRegRead (a.extractLsb' 0 9)
  | .pushBuf => .pushbufRead (a.extractLsb' 1 27)
  | .popBuf => .popbufRead (a.extractLsb' 1 27)
  | .specOut => .specRead (a.extractLsb' 2 26)
  | .freq => .freqRead (a.extractLsb' 3 25)

/-- A bus transaction that decodes passed the three checks on its address and size (R62, R193). -/
theorem decodeBus_eq_ok {t : BusTxn} {i : Instr} (h : decodeBus t = .ok i) :
    ∃ w : Window, t.size = w.elemSize ∧ w.Holds t.addr.toNat := by
  cases window : windowOf t.addr with
  | none => rw [decodeBus_unmapped window] at h; cases h
  | some w =>
    by_cases size : t.size = w.elemSize
    · by_cases aligned : t.addr.toNat % w.elemSize.bytes = 0
      · exact ⟨w, size, Window.holds_iff.2 ⟨window, aligned⟩⟩
      · rw [decodeBus_misaligned window size aligned] at h; cases h
    · rw [decodeBus_wrongSize window size] at h; cases h

/-- A read of an element's size at its address is the read of that element. -/
theorem decode_read {a : Addr} {w : Window} {i : Instr} (holds : w.Holds a.toNat) (element : w.readInstr a = i) :
    decode (.bus (.read a w.elemSize)) = .ok i := by
  obtain ⟨window, aligned⟩ := Window.holds_iff.1 holds
  rw [decode, decodeBus_read window aligned, ← element]
  cases w <;> rfl

/-- A write of a register other than CMD (R81). -/
theorem decode_write_regs {a : Addr} {off : BitVec 9} (holds : Window.regs.Holds a.toNat) (notCmd : a ≠ 0)
    (offset : a.extractLsb' 0 9 = off) (v : Word) : decode (.bus (.write a .b8 v)) = .ok (.hostRegWrite off v) := by
  obtain ⟨window, aligned⟩ := Window.holds_iff.1 holds
  rw [← offset]
  exact (decodeBus_write window aligned).trans (if_neg notCmd)

theorem decode_write_pushBuf {a : Addr} {k : BitVec 27} {v : Word} {x : Sample} (holds : Window.pushBuf.Holds a.toNat)
    (index : a.extractLsb' 1 27 = k) (sample : v.extractLsb' 0 16 = x) :
    decode (.bus (.write a .b2 v)) = .ok (.pushbufWrite k x) := by
  obtain ⟨window, aligned⟩ := Window.holds_iff.1 holds
  rw [← index, ← sample]
  exact decodeBus_write window aligned

/-- The other arrays are read-only (R103 to R105). -/
theorem decode_write_readOnly {a : Addr} {w : Window} (holds : w.Holds a.toNat) (notRegs : w ≠ .regs)
    (notPushBuf : w ≠ .pushBuf) (v : Word) : decode (.bus (.write a w.elemSize v)) = .error .readOnlyArray := by
  obtain ⟨window, aligned⟩ := Window.holds_iff.1 holds
  rw [decode, decodeBus_write window aligned]
  cases w with
  | regs => exact absurd rfl notRegs
  | pushBuf => exact absurd rfl notPushBuf
  | _ => rfl

/-- The read of the element at an address is carried by that address. -/
theorem encode_readInstr {a : Addr} {w : Window} (holds : w.Holds a.toNat) :
    encode (w.readInstr a) = .bus (.read a w.elemSize) := by
  cases w with
  | regs => rw [Window.readInstr, encode, regs_address holds]; rfl
  | pushBuf => rw [Window.readInstr, encode, pushBuf_layout.address holds]; rfl
  | popBuf => rw [Window.readInstr, encode, popBuf_layout.address holds]; rfl
  | specOut => rw [Window.readInstr, encode, specOut_layout.address holds]; rfl
  | freq => rw [Window.readInstr, encode, freq_layout.address holds]; rfl

theorem wellFormed_readInstr {a : Addr} {w : Window} (holds : w.Holds a.toNat) : (w.readInstr a).wellFormed = true := by
  cases w with
  | regs => exact decide_eq_true (regs_offset_aligned holds)
  | _ => rfl

/-- The operation is the encoding of the instruction, which is well-formed. -/
def Carries (o : Operation) (i : Instr) : Prop := encode i = o ∧ i.wellFormed = true

theorem decodeCmd_carries {w : Word} {i : Instr} (h : decodeCmd w = .ok i) : Carries (.bus (.write 0 .b8 w)) i := by
  obtain ⟨o, n, rfl, legal, rfl⟩ := decodeCmd_eq_ok h
  exact ⟨encode_instr legal, wellFormed_instr o n⟩

theorem decodeRx_carries {a : RxArrival} {i : Instr} (h : decodeRx a = .ok i) : Carries (.rx a) i := by
  rcases decodeRx_eq_ok h with ⟨l, d, rfl, framed, rfl⟩ | ⟨l, rfl, rfl⟩
  · exact ⟨by simp [encode, framed], decide_eq_true (framed ▸ l.isLt)⟩
  · exact ⟨rfl, rfl⟩

theorem read_carries {a : Addr} {n : BusSize} {i : Instr} (h : decode (.bus (.read a n)) = .ok i) :
    Carries (.bus (.read a n)) i := by
  obtain ⟨w, rfl : n = w.elemSize, holds : w.Holds a.toNat⟩ := decodeBus_eq_ok h
  obtain rfl := Except.ok.inj (h.symm.trans (decode_read holds rfl))
  exact ⟨encode_readInstr holds, wellFormed_readInstr holds⟩

theorem write_regs_carries {a : Addr} {v : Word} {i : Instr} (holds : Window.regs.Holds a.toNat)
    (h : decode (.bus (.write a .b8 v)) = .ok i) : Carries (.bus (.write a .b8 v)) i := by
  by_cases cmd : a = 0
  · subst cmd
    exact decodeCmd_carries ((decode_write_zero v).symm.trans h)
  · obtain rfl := Except.ok.inj (h.symm.trans (decode_write_regs holds cmd rfl v))
    exact ⟨by rw [encode, regs_address holds], Bool.and_eq_true_iff.2
      ⟨decide_eq_true (regs_offset_aligned holds), decide_eq_true (regs_offset_ne_zero holds cmd)⟩⟩

theorem write_pushBuf_carries {a : Addr} {v : Word} {i : Instr} (holds : Window.pushBuf.Holds a.toNat)
    (fits : v.toNat < 2 ^ 16) (h : decode (.bus (.write a .b2 v)) = .ok i) : Carries (.bus (.write a .b2 v)) i := by
  obtain rfl := Except.ok.inj (h.symm.trans (decode_write_pushBuf holds rfl rfl))
  refine ⟨?_, rfl⟩
  rw [encode, pushBuf_layout.address holds, zero_append_extractLsb' (m := 48) fits]

theorem write_carries {a : Addr} {n : BusSize} {v : Word} {i : Instr}
    (fits : (Operation.bus (.write a n v)).wellFormed = true) (h : decode (.bus (.write a n v)) = .ok i) :
    Carries (.bus (.write a n v)) i := by
  obtain ⟨w, rfl : n = w.elemSize, holds : w.Holds a.toNat⟩ := decodeBus_eq_ok h
  by_cases regs : w = .regs
  · subst regs
    exact write_regs_carries holds h
  by_cases pushBuf : w = .pushBuf
  · subst pushBuf
    exact write_pushBuf_carries holds (of_decide_eq_true fits) h
  rw [decode_write_readOnly holds regs pushBuf] at h
  cases h

/-! ### Command words that fail (R85) -/

/-- An OPC that is not in R84 is the first thing checked. -/
theorem checkCmd_of_illegal {w : Word} (h : opcodeOf (cmdOpc w) = none) :
    checkCmd w = .error (.illegalOpcode (cmdOpc w)) := by
  rw [checkCmd, h]

/-- A word whose OPC is in R84 passes its checks, or fails on a reserved field. -/
theorem checkCmd_of_opcode {w : Word} {o : Opcode} (h : opcodeOf (cmdOpc w) = some o) :
    checkCmd w = .ok (o, cmdArg w) ∨ checkCmd w = .error (.reservedField (cmdOpc w)) := by
  rw [checkCmd, h]
  dsimp only
  split_ifs
  · exact .inr rfl
  · exact .inr rfl
  · exact .inl rfl

/-- A word whose OPC is in R84 and that is no legal word of that opcode fails on a reserved field. -/
theorem checkCmd_of_reserved {w : Word} {o : Opcode} (h : opcodeOf (cmdOpc w) = some o)
    (illegal : ∀ n, o.LegalOperand n → w ≠ cmdWord o n) : checkCmd w = .error (.reservedField (cmdOpc w)) := by
  refine (checkCmd_of_opcode h).resolve_left fun passes => ?_
  obtain ⟨word, legal⟩ := (checkCmd_eq_ok w o _).1 passes
  exact illegal _ legal word

theorem opcodeOf_operandless {b : Byte} (h : b ∈ [0x00#8, 0x01#8, 0x02#8, 0x03#8, 0x04#8, 0x05#8, 0x20#8]) :
    ∃ o, opcodeOf b = some o ∧ o.hasOperand = false :=
  Option.map_eq_some_iff.1 ((by decide : ∀ b ∈ [0x00#8, 0x01#8, 0x02#8, 0x03#8, 0x04#8, 0x05#8, 0x20#8],
    (opcodeOf b).map Opcode.hasOperand = some false) b h)

theorem opcodeOf_operand {b : Byte} (h : b ∈ [0x10#8, 0x11#8]) : ∃ o, opcodeOf b = some o ∧ o.hasOperand = true :=
  Option.map_eq_some_iff.1 ((by decide : ∀ b ∈ [0x10#8, 0x11#8],
    (opcodeOf b).map Opcode.hasOperand = some true) b h)

/-- The legal word of a command without operand is its OPC (R84). -/
theorem cmdWord_operandless {o : Opcode} {n : BitVec 32} (operandless : o.hasOperand = false)
    (legal : o.LegalOperand n) : cmdWord o n = (cmdOpc (cmdWord o n)).setWidth 64 := by
  obtain rfl : n = 0 := legal.resolve_left (by simp [operandless])
  rw [cmdOpc_cmdWord]
  cases o <;> rfl

/-- The legal words of a command with an operand have its OPC, whatever their ARG, and zeros (R84). -/
theorem cmdWord_operand {o : Opcode} (n : BitVec 32) (operand : o.hasOperand = true) :
    cmdWord o n &&& 0xFFFF00000000FFFF = (cmdOpc (cmdWord o n)).setWidth 64 := by
  rw [cmdOpc_cmdWord]
  cases o with
  | fifoPush => exact Laws.EncodingMatchesTable.fifoPush n rfl
  | fifoPop => exact Laws.EncodingMatchesTable.fifoPop n rfl
  | _ => cases operand

/-- What a command that ends with an error other than CONFIG_INVALID records, and nothing else (R12, R106). -/
theorem recordStatus_error (opc : Byte) {code : Status} (s : State) (notOk : code ≠ .ok)
    (notCfg : code ≠ .configInvalid) :
    recordStatus opc code 0 s =
      { s with cmd := ⟨opc, code, 0⟩, err := { s.err with cmd := true }, response := answer 0 } := by
  simp [recordStatus, ErrBits.afterCommand, notOk, notCfg, answer]

/-- A command word that fails its checks records the code of the check that failed, and nothing else. -/
theorem perform_write_of_checkCmd_error {w : Word} {r : Reject} {code : Status} {s : State}
    (fails : checkCmd w = .error r) (rejected : performReject r s = .next (recordStatus (cmdOpc w) code 0 s))
    (notOk : code ≠ .ok) (notCfg : code ≠ .configInvalid) :
    perform (.bus (.write 0 .b8 w)) s =
      .next { s with cmd := ⟨cmdOpc w, code, 0⟩, err := { s.err with cmd := true }, response := answer 0 } := by
  rw [perform_of_decode_error ((decode_write_zero w).trans (decodeCmd_error fails)), rejected,
    recordStatus_error _ s notOk notCfg]

end Sys2Proof
end

section
/-! The obligations on the encodings. -/
namespace Sys2Proof.Proofs
open Sys2Proof Sys2Proof.Machine

/-- Settles O1: the command words, the RX descriptors and the addresses each decode to what they carry. -/
theorem decodeOfEncode : Obligations.DecodeOfEncode := by
  intro i wellFormed
  cases i with
  | nop => exact decode_cmdWrite (.inr rfl)
  | init => exact decode_cmdWrite (.inr rfl)
  | start => exact decode_cmdWrite (.inr rfl)
  | stop => exact decode_cmdWrite (.inr rfl)
  | deinit => exact decode_cmdWrite (.inr rfl)
  | clrErr => exact decode_cmdWrite (.inr rfl)
  | fifoPush n => exact decode_cmdWrite (.inl rfl)
  | fifoPop n => exact decode_cmdWrite (.inl rfl)
  | engineRun => exact decode_cmdWrite (.inr rfl)
  | rxDatagram d =>
    have short : d.length < 2 ^ 24 := of_decide_eq_true wellFormed
    exact decodeRx_datagram (by rw [BitVec.toNat_ofNat, Nat.mod_eq_of_lt short])
  | rxTimeout len => exact decodeRx_timeout len
  | hostRegRead off =>
    have aligned : off.toNat % 8 = 0 := of_decide_eq_true wellFormed
    exact decode_read (regs_holds aligned) (congrArg Instr.hostRegRead BitVec.extractLsb'_append_eq_right)
  | hostRegWrite off v =>
    obtain ⟨aligned, notCmd⟩ : off.toNat % 8 = 0 ∧ off ≠ 0 := by simpa [Instr.wellFormed] using wellFormed
    exact decode_write_regs (regs_holds aligned) (regs_append_ne_zero notCmd) BitVec.extractLsb'_append_eq_right v
  | pushbufWrite k v =>
    exact decode_write_pushBuf (pushBuf_layout.holds k) (extractLsb'_indexed _ k) BitVec.extractLsb'_append_eq_right
  | pushbufRead k =>
    exact decode_read (pushBuf_layout.holds k) (congrArg Instr.pushbufRead (extractLsb'_indexed _ k))
  | popbufRead k =>
    exact decode_read (popBuf_layout.holds k) (congrArg Instr.popbufRead (extractLsb'_indexed _ k))
  | specRead k =>
    exact decode_read (specOut_layout.holds k) (congrArg Instr.specRead (extractLsb'_indexed _ k))
  | freqRead k =>
    exact decode_read (freq_layout.holds k) (congrArg Instr.freqRead (extractLsb'_indexed _ k))

/-- Settles O2: the interface gives the format, and in each format only an instruction's own operation decodes to it. -/
theorem encodeOfDecode : Obligations.EncodeOfDecode := by
  intro o i fits decoded
  cases o with
  | rx a => exact decodeRx_carries decoded
  | bus t =>
    cases t with
    | read a n => exact read_carries decoded
    | write a n v => exact write_carries fits decoded

/-- Settles O4: the opcode is checked first, and then a word that is no legal word of its opcode is reserved. -/
theorem illegalCommandWordsFail : Obligations.IllegalCommandWordsFail := by
  intro w s
  refine ⟨?illegal, ?operandless, ?operand⟩
  case illegal =>
    intro unknown
    have fails := checkCmd_of_illegal ((opcodeOf_eq_none _).2 unknown)
    exact perform_write_of_checkCmd_error fails rfl nofun nofun
  case operandless =>
    intro known word
    obtain ⟨o, opcode, operandless⟩ := opcodeOf_operandless known
    have fails := checkCmd_of_reserved opcode fun n legal eq => word (eq ▸ cmdWord_operandless operandless legal)
    exact perform_write_of_checkCmd_error fails rfl nofun nofun
  case operand =>
    intro known word
    obtain ⟨o, opcode, operand⟩ := opcodeOf_operand known
    have fails := checkCmd_of_reserved opcode fun n _ eq => word (eq ▸ cmdWord_operand n operand)
    exact perform_write_of_checkCmd_error fails rfl nofun nofun

/-- Settles O3: each operation, written out, is the encoding of the instruction it stands for. -/
theorem writtenWordsDecode : Obligations.WrittenWordsDecode :=
  ⟨decodeOfEncode (.fifoPush 16) rfl, decodeOfEncode (.fifoPop 0xFFFFFFFF) rfl, decodeOfEncode .engineRun rfl,
    decodeOfEncode (.rxDatagram [0xAB, 0xCD]) rfl, decodeOfEncode (.rxTimeout 0xFFFFFF) rfl,
    decodeOfEncode (.hostRegRead 0x0F8) rfl, decodeOfEncode (.pushbufWrite 3 0xFFFF) rfl,
    decodeOfEncode (.freqRead 2) rfl⟩

end Sys2Proof.Proofs
end

section
/-! SUPPORT. The control commands, outcome by outcome: the state each leaves in its legal modes and outside them (R106
to R114), and the checks of INIT by number (R109). -/
namespace Sys2Proof.Machine

/-! ### How a command ends (R106) -/

/-- What a command that ends normally with RESULT 0 records: ERR is kept. -/
theorem recordStatus_ok (opc : Byte) (s : State) :
    recordStatus opc .ok 0 s = { s with cmd := ⟨opc, .ok, 0⟩, response := answer 0 } := by
  simp [recordStatus, ErrBits.afterCommand, answer]

/-- CONFIG_INVALID sets ERR.CFG besides ERR.CMD. -/
theorem recordStatus_configInvalid (opc : Byte) (k : Nat) (s : State) :
    recordStatus opc .configInvalid k s =
      { s with
        cmd := ⟨opc, .configInvalid, BitVec.ofNat 64 k⟩
        err := { s.err with cmd := true, cfg := true }
        response := answer 0 } := by
  simp [recordStatus, ErrBits.afterCommand, answer]

section
variable {i : Instr} {opc : Byte} {legal : Mode → Bool} {rule : State → CmdEnd} {s t : State}

/-- A command whose rule ends normally with RESULT 0 leaves the rule's state, recorded. -/
theorem exec_of_rule_ok (command : exec i s = .next (runCommand opc legal rule s)) (mode : legal s.mode = true)
    (ends : rule s = .ok 0 t) : exec i s = .next { t with cmd := ⟨opc, .ok, 0⟩, response := answer 0 } := by
  rw [command, runCommand_ok mode ends, recordStatus_ok]

/-- A command outside its modes records ILLEGAL_STATE, and changes nothing else. -/
theorem exec_of_illegalState (command : exec i s = .next (runCommand opc legal rule s))
    (mode : legal s.mode = false) :
    exec i s =
      .next { s with cmd := ⟨opc, .illegalState, 0⟩, err := { s.err with cmd := true }, response := answer 0 } := by
  rw [command, runCommand_illegal mode, recordStatus_error opc (code := .illegalState) s nofun nofun]

end

theorem onlyMode_eq_false_iff {m x : Mode} : onlyMode m x = false ↔ x ≠ m := decide_eq_false_iff_not

/-! ### Each command in its legal modes -/

theorem exec_nop (s : State) : exec .nop s = .next { s with cmd := ⟨0x00, .ok, 0⟩, response := answer 0 } :=
  exec_of_rule_ok rfl rfl rfl

theorem ruleInit_of_checks {s : State} (checks : firstFailingCheck s.cfg = 0) :
    ruleInit s = .ok 0 (constructed s) := if_neg (not_not.2 checks)

theorem exec_init {s : State} (idle : s.mode = .idle) (checks : firstFailingCheck s.cfg = 0) :
    exec .init s = .next { constructed s with cmd := ⟨0x01, .ok, 0⟩, response := answer 0 } :=
  exec_of_rule_ok rfl (onlyMode_iff.2 idle) (ruleInit_of_checks checks)

theorem exec_init_of_failing {s : State} (idle : s.mode = .idle) (failing : firstFailingCheck s.cfg ≠ 0) :
    exec .init s =
      .next { s with
        cmd := ⟨0x01, .configInvalid, BitVec.ofNat 64 (firstFailingCheck s.cfg)⟩
        err := { s.err with cmd := true, cfg := true }
        response := answer 0 } := by
  have raises : ruleInit s = .raise .configInvalid (firstFailingCheck s.cfg) := if_pos failing
  change Host.Outcome.next (runCommand 0x01 (onlyMode .idle) ruleInit s) = _
  rw [runCommand_raise (onlyMode_iff.2 idle) raises, recordStatus_configInvalid]

theorem exec_start {s : State} (ready : s.mode = .ready) :
    exec .start s = .next { s with mode := .run, cmd := ⟨0x02, .ok, 0⟩, response := answer 0 } :=
  exec_of_rule_ok (t := { s with mode := .run }) rfl (onlyMode_iff.2 ready) rfl

theorem exec_stop {s : State} (run : s.mode = .run) :
    exec .stop s = .next { s with mode := .ready, cmd := ⟨0x03, .ok, 0⟩, response := answer 0 } :=
  exec_of_rule_ok (t := { s with mode := .ready }) rfl (onlyMode_iff.2 run) rfl

theorem exec_deinit (s : State) :
    exec .deinit s = .next { tornDown s with cmd := ⟨0x04, .ok, 0⟩, response := answer 0 } :=
  exec_of_rule_ok rfl rfl rfl

theorem exec_clrErr (s : State) :
    exec .clrErr s =
      .next { s with err := ⟨false, false, false⟩, cmd := ⟨0x05, .ok, 0⟩, response := answer 0 } :=
  exec_of_rule_ok (t := { s with err := .clear }) rfl rfl rfl

/-! ### Each command outside its legal modes -/

theorem exec_init_of_not_idle {s : State} (mode : s.mode ≠ .idle) :
    exec .init s =
      .next { s with cmd := ⟨0x01, .illegalState, 0⟩, err := { s.err with cmd := true }, response := answer 0 } :=
  exec_of_illegalState rfl (onlyMode_eq_false_iff.2 mode)

theorem exec_start_of_not_ready {s : State} (mode : s.mode ≠ .ready) :
    exec .start s =
      .next { s with cmd := ⟨0x02, .illegalState, 0⟩, err := { s.err with cmd := true }, response := answer 0 } :=
  exec_of_illegalState rfl (onlyMode_eq_false_iff.2 mode)

theorem exec_stop_of_not_run {s : State} (mode : s.mode ≠ .run) :
    exec .stop s =
      .next { s with cmd := ⟨0x03, .illegalState, 0⟩, err := { s.err with cmd := true }, response := answer 0 } :=
  exec_of_illegalState rfl (onlyMode_eq_false_iff.2 mode)

/-- Outside RUN a datagram is dropped (R150). -/
theorem ingest_of_not_run {s : State} (mode : s.mode ≠ .run) (d : List Byte) : ingest d s = s := if_pos mode

/-! ### The checks of INIT by number (R109) -/

/-- When counting starts above 0, the answer 0 says that every check holds. -/
theorem firstFalse_eq_zero_iff {k : Nat} (positive : 0 < k) (l : List Bool) :
    firstFalse k l = 0 ↔ ∀ j < l.length, l[j]? = some true := by
  rcases firstFalse_cases k l with ⟨answer, holds⟩ | ⟨i, below, answer, fails, -⟩
  · exact iff_of_true answer holds
  · refine iff_of_false (by omega) fun holds => ?_
    simp [holds i below] at fails

/-- The answer `k + j` says that place `j` is the first that does not hold. -/
theorem firstFalse_eq_iff {k : Nat} (positive : 0 < k) (l : List Bool) (j : Nat) :
    firstFalse k l = k + j ↔ l[j]? = some false ∧ ∀ i < j, l[i]? = some true := by
  rcases firstFalse_cases k l with ⟨answer, holds⟩ | ⟨i, -, answer, fails, before⟩
  · refine iff_of_false (by omega) ?_
    rintro ⟨fails, -⟩
    obtain ⟨below, -⟩ := List.getElem?_eq_some_iff.1 fails
    simp [holds j below] at fails
  · rw [answer]
    constructor
    · intro same
      obtain rfl : i = j := by omega
      exact ⟨fails, before⟩
    · rintro ⟨fails', before'⟩
      rcases lt_trichotomy i j with less | rfl | less
      · simp [before' i less] at fails
      · rfl
      · simp [before j less] at fails'

theorem f64IsFinite_iff (x : Word) : f64IsFinite x = true ↔ x.extractLsb' 52 11 ≠ 0x7FF :=
  decide_eq_true_iff.trans (not_congr (BitVec.toNat_eq (y := 0x7FF#11)).symm)

theorem initChecks_length (r : CfgRegs) : (initChecks r).length = 13 := rfl

/-- Place `j` of the list is check `j + 1` of the table, each of the thirteen in the table's words. -/
theorem initChecks_getElem?_iff (r : CfgRegs) {j : Nat} (h : j < 13) :
    (initChecks r)[j]? = some true ↔ InitCheck r (j + 1) := by
  have header : r.headerSz.toNat = 8 ↔ r.headerSz = 8 := (BitVec.toNat_eq (y := 8)).symm
  interval_cases j <;>
    simp [initChecks, InitCheck, f64IsFinite_iff, f64Sign, header, and_assoc]

theorem initChecks_getElem?_eq_false_iff (r : CfgRegs) {j : Nat} (h : j < 13) :
    (initChecks r)[j]? = some false ↔ ¬ InitCheck r (j + 1) := by
  rw [← initChecks_getElem?_iff r h, List.getElem?_eq_getElem h]
  simp

/-- Every check holds exactly when none is the first to fail. -/
theorem firstFailingCheck_eq_zero_iff (r : CfgRegs) :
    firstFailingCheck r = 0 ↔ ∀ j < 13, InitCheck r (j + 1) := by
  rw [firstFailingCheck, firstFalse_eq_zero_iff Nat.one_pos, initChecks_length]
  exact forall₂_congr fun j h => initChecks_getElem?_iff r h

theorem firstFailingCheck_eq_succ_iff (r : CfgRegs) {j : Nat} (h : j < 13) :
    firstFailingCheck r = j + 1 ↔ ¬ InitCheck r (j + 1) ∧ ∀ i < j, InitCheck r (i + 1) := by
  rw [firstFailingCheck, Nat.add_comm j 1, firstFalse_eq_iff Nat.one_pos, initChecks_getElem?_eq_false_iff r h,
    Nat.add_comm 1 j]
  exact and_congr_right' (forall₂_congr fun i below => initChecks_getElem?_iff r (lt_trans below h))

/-! ### The memory INIT and DEINIT leave -/

theorem Cells.eraseRange_eq_self {α : Type} {l : List (Nat × α)} {lo hi : Nat}
    (h : ∀ x ∈ l, x.1 < lo ∨ hi ≤ x.1) : Cells.eraseRange l lo hi = l :=
  List.filter_eq_self.2 fun x hx => by simpa using h x hx

/-- INIT makes every element of FREQ below N its value of R181. -/
theorem constructed_load_freq (s : State) {k : Nat} (below : k < s.cfg.fftN.toNat) :
    (constructed s).mem.load (elemAddr .freq k) 8 =
      some (freqBin s.cfg.sampleRate s.cfg.centerFreq s.cfg.fftN.toNat k).toNat := by
  have filled := Memory.load_fill (Cells.eraseRange s.mem 0x30000000 0x50000000) (w := .freq) (vs := freqElems s.cfg)
    (i := k) (by rwa [freqElems_length])
  have value (x : Word) : x.toNat % 256 ^ Window.freq.elemSize.bytes = x.toNat := Nat.mod_eq_of_lt x.isLt
  simp only [freqElems, List.getElem_map, List.getElem_range, value] at filled
  exact filled

/-- INIT leaves the rest of FREQ unspecified. -/
theorem constructed_load_freq_beyond (s : State) {k : Nat} (inRange : k < Config.fftNMax)
    (beyond : s.cfg.fftN.toNat ≤ k) : (constructed s).mem.load (elemAddr .freq k) 8 = none :=
  (Memory.load_fill_beyond (w := .freq) (vs := freqElems s.cfg) _ (by rwa [freqElems_length])).trans
    (Memory.load_erased (by decide) inRange)

theorem constructed_byte {s : State} (checks : firstFailingCheck s.cfg = 0) {a : Nat}
    (outside : a < 0x30000000 ∨ 0x50000000 ≤ a) : (constructed s).mem.byte a = s.mem.byte a := by
  have freq : a < Window.freq.base ∨ windowLimit .freq ≤ a := by
    simp only [windowLimit, Window.base]
    omega
  rw [constructed_mem, Memory.byte_fill_outside _ (freqElems_fit (accepted_of_checks checks)) freq,
    Memory.byte_eraseRange, if_neg (by omega)]

/-- In IDLE no byte of SPEC_OUT and FREQ is specified (R46, R47). -/
theorem State.MemInv.outside_of_idle {s : State} (inv : s.MemInv) (idle : s.mode = .idle) {x : Host.Cell}
    (listed : x ∈ s.mem) : x.1 < 0x30000000 ∨ 0x50000000 ≤ x.1 := by
  obtain ⟨w, i, -, inRange, first, last, specified⟩ := inv.whole x listed
  have limit := elem_le_limit inRange
  cases w with
  | specOut => exact absurd idle ((inv.spec i inRange).1 specified).1
  | freq => exact absurd idle ((inv.freq i inRange).1 specified).1
  | _ =>
    simp only [windowLimit, Window.base] at limit
    omega

/-- In IDLE nothing is left to tear down. -/
theorem tornDown_of_idle {s : State} (inv : s.Inv) (idle : s.mode = .idle) : tornDown s = s := by
  obtain ⟨csbInv, memInv⟩ := inv
  obtain ⟨derived, csb, seq, counters⟩ := csbInv.idle idle
  have mem := Cells.eraseRange_eq_self fun x hx => memInv.outside_of_idle idle hx
  rw [tornDown, clearRun, ← idle, ← derived, ← csb, ← seq, ← counters, mem]

/-! ### MODE -/

/-- Of the effects, those of INIT, START, STOP and DEINIT alone change MODE (R114). -/
theorem effect_mode {s u : State} {i : Instr} (effect : Effect s i u) (notInit : i ≠ .init) (notStart : i ≠ .start)
    (notStop : i ≠ .stop) (notDeinit : i ≠ .deinit) : u.mode = s.mode := by
  cases effect with
  | init => exact absurd rfl notInit
  | start => exact absurd rfl notStart
  | stop => exact absurd rfl notStop
  | deinit => exact absurd rfl notDeinit
  | fifoPush n xs ready fits => exact fifoPush_mode xs s
  | accepted d run wellFormed =>
    rcases acceptDatagram_cases d s with h | ⟨-, h⟩ <;> rw [h] <;> exact received_mode d s
  | _ => rfl

theorem exec_mode {i : Instr} {s t : State} (next : exec i s = .next t) (wellFormed : i.wellFormed = true)
    (notInit : i ≠ .init) (notStart : i ≠ .start) (notStop : i ≠ .stop) (notDeinit : i ≠ .deinit) :
    t.mode = s.mode := by
  obtain ⟨u, effect, data⟩ := exec_hasEffect s (ne_cmdWrite_of_wellFormed wellFormed) t next
  obtain ⟨mode, -⟩ := data_eq_iff.1 data
  rw [mode]
  exact effect_mode effect notInit notStart notStop notDeinit

theorem mode_of_next {i : Instr} {s t u : State} {m : Mode} (next : exec i s = .next t)
    (leaves : exec i s = .next u) (mode : u.mode = m) : t.mode = m := by
  rw [leaves] at next
  cases next
  exact mode

end Sys2Proof.Machine
end

section
/-! The obligations on the control commands. -/
namespace Sys2Proof.Proofs
open Sys2Proof Sys2Proof.Machine

/-- The word of a command without operand, with any other bit set, records RESERVED_FIELD (R85). -/
theorem perform_reserved {w : Word} {b : Byte} (s : State) (opc : cmdOpc w = b) (word : w ≠ b.setWidth 64)
    (operandless : b ∈ [0x00#8, 0x01#8, 0x02#8, 0x03#8, 0x04#8, 0x05#8, 0x20#8]) :
    perform (.bus (.write 0 .b8 w)) s =
      .next { s with cmd := ⟨b, .reservedField, 0⟩, err := { s.err with cmd := true }, response := answer 0 } := by
  subst opc
  exact (illegalCommandWordsFail w s).2.1 operandless word

/-- Settles O5: NOP's rule leaves the state, and only the recording changes it. -/
theorem nopOnlyRecords : Obligations.NopOnlyRecords :=
  ⟨decodeOfEncode .nop rfl, exec_nop, fun _ s opc word => perform_reserved s opc word (by decide)⟩

/-- Settles O8, by the mode. -/
theorem startEntersRun : Obligations.StartEntersRun :=
  ⟨decodeOfEncode .start rfl, fun _ => exec_start, fun _ => exec_start_of_not_ready⟩

/-- Settles O9: the mode after STOP is READY, where a datagram is dropped. -/
theorem stopEntersReady : Obligations.StopEntersReady := by
  refine ⟨decodeOfEncode .stop rfl, fun _ => exec_stop, fun _ => exec_stop_of_not_run, ?dropped⟩
  case dropped =>
    intro s t d run next
    have ready : t.mode = .ready := mode_of_next next (exec_stop run) rfl
    exact congrArg _ (ingest_of_not_run (by simp [ready]) d)

/-- Settles O11: CLR_ERR's rule clears ERR, and the recording of OK sets no bit of it. -/
theorem clrErrClearsErr : Obligations.ClrErrClearsErr :=
  ⟨decodeOfEncode .clrErr rfl, exec_clrErr, fun _ s opc word => perform_reserved s opc word (by decide)⟩

/-- Settles O6: the number is one more than the place of the first check of the list that does not hold. -/
theorem firstFailingCheckIsFirst : Obligations.FirstFailingCheckIsFirst := by
  intro r
  have shift (n : Nat) : (∀ k, 1 ≤ k → k ≤ n → InitCheck r k) ↔ ∀ j < n, InitCheck r (j + 1) := by
    constructor
    · exact fun checks j below => checks (j + 1) (by omega) below
    · intro checks k low high
      have check := checks (k - 1) (by omega)
      rwa [Nat.sub_add_cancel low] at check
  refine ⟨(firstFailingCheck_eq_zero_iff r).trans (shift 13).symm, fun k low high => ?_⟩
  obtain ⟨j, rfl⟩ := Nat.exists_eq_add_of_le' low
  simp only [Nat.lt_succ_iff]
  rw [firstFailingCheck_eq_succ_iff r high, shift j]

/-- Settles O7: the state INIT constructs, window by window, and its two failures. -/
theorem initConstructsBuffer : Obligations.InitConstructsBuffer := by
  refine ⟨decodeOfEncode .init rfl, fun s idle checks => ?constructs, fun _ => exec_init_of_failing,
    fun _ => exec_init_of_not_idle⟩
  case constructs =>
    exact ⟨(constructed s).mem, exec_init idle checks, fun _ => constructed_element_spec checks,
      fun _ => constructed_load_freq s, fun _ => constructed_load_freq_beyond s, fun _ => constructed_byte checks⟩

/-- Settles O10: DEINIT erases the bytes from SPEC_OUT to the end of FREQ, of which IDLE has none. -/
theorem deinitReturnsToIdle : Obligations.DeinitReturnsToIdle := by
  refine ⟨decodeOfEncode .deinit rfl, fun s => ⟨(tornDown s).mem, exec_deinit s, fun a low high => ?erased,
    fun a outside => ?kept⟩, fun _ s opc word => perform_reserved s opc word (by decide), fun s inv idle => ?idle⟩
  case erased => exact (Memory.byte_eraseRange s.mem _ _ a).trans (if_pos ⟨low, high⟩)
  case kept => exact (Memory.byte_eraseRange s.mem _ _ a).trans (if_neg (by omega))
  case idle => rw [exec_deinit, tornDown_of_idle inv idle]

/-- Settles O46: the four commands by their modes, and every other instruction by its effect. -/
theorem modeTransitions : Obligations.ModeTransitions := by
  refine ⟨fun i s t wellFormed next => ?instruction, hardwareReset_mode⟩
  cases i with
  | init =>
    dsimp only
    split_ifs with legal
    · exact mode_of_next next (exec_init legal.1 legal.2) rfl
    · by_cases idle : s.mode = .idle
      · exact mode_of_next next (exec_init_of_failing idle fun checks => legal ⟨idle, checks⟩) rfl
      · exact mode_of_next next (exec_init_of_not_idle idle) rfl
  | start =>
    dsimp only
    split_ifs with ready
    · exact mode_of_next next (exec_start ready) rfl
    · exact mode_of_next next (exec_start_of_not_ready ready) rfl
  | stop =>
    dsimp only
    split_ifs with run
    · exact mode_of_next next (exec_stop run) rfl
    · exact mode_of_next next (exec_stop_of_not_run run) rfl
  | deinit => exact mode_of_next next (exec_deinit s) rfl
  | _ => exact exec_mode next wellFormed nofun nofun nofun nofun

end Sys2Proof.Proofs
end

section
/-! SUPPORT. The host's bus transactions, outcome by outcome: the accesses of the register window, the reads and the
write of the bus arrays, and the transactions that no instruction carries (R61 to R63, R100 to R105, R193). -/
namespace Sys2Proof.Machine

/-! ### Transactions that no instruction carries -/

/-- A transaction in a window, of another size than the window's elements or unaligned, is a bus error (R62). -/
theorem perform_misfit {t : BusTxn} {w : Window} (s : State) (window : windowOf t.addr = some w)
    (misfit : t.size ≠ w.elemSize ∨ t.addr.toNat % w.elemSize.bytes ≠ 0) :
    perform (.bus t) s = .next (busfault s) := by
  by_cases size : t.size = w.elemSize
  · have unaligned := misfit.resolve_left (not_not.2 size)
    exact perform_of_decode_error (o := .bus t) (decodeBus_misaligned window size unaligned) s
  · exact perform_of_decode_error (o := .bus t) (decodeBus_wrongSize window size) s

/-- Every write of POP_BUF, SPEC_OUT and FREQ is a bus error (R103 to R105). -/
theorem perform_write_readOnly {a : Addr} {w : Window} (n : BusSize) (v : Word) (s : State)
    (window : windowOf a = some w) (notRegs : w ≠ .regs) (notPushBuf : w ≠ .pushBuf) :
    perform (.bus (.write a n v)) s = .next (busfault s) := by
  by_cases misfit : n ≠ w.elemSize ∨ a.toNat % w.elemSize.bytes ≠ 0
  · exact perform_misfit (t := .write a n v) s window misfit
  · simp only [not_or, not_not] at misfit
    obtain ⟨rfl, aligned⟩ := misfit
    exact perform_of_decode_error
      (decode_write_readOnly (Window.holds_iff.2 ⟨window, aligned⟩) notRegs notPushBuf v) s

/-! ### Elements of the bus arrays -/

theorem readArray_of_specified {w : Window} {k v : Nat} {s : State} (inRange : k < windowLen w)
    (specified : s.mem.load (elemAddr w k) w.elemSize.bytes = some v) :
    readArray w k s = respondRead (BitVec.ofNat 64 v) s := by
  rw [readArray, if_pos inRange, readElement_of_specified specified]

/-- A draw has the width of the element (R69). -/
theorem readArray_of_unspecified {w : Window} {k : Nat} {s : State} (inRange : k < windowLen w)
    (unspecified : s.mem.load (elemAddr w k) w.elemSize.bytes = none) :
    ∃ v : BitVec (8 * w.elemSize.bytes),
      readArray w k s = respondRead (v.setWidth 64) { s with draws := s.draws + 1 } := by
  refine ⟨(Config.freeElement s.draws).setWidth _, ?_⟩
  have drawn : readElement (elemAddr w k) w.elemSize.bytes s =
      (BitVec.ofNat 64 ((Config.freeElement s.draws).toNat % 256 ^ w.elemSize.bytes),
        { s with draws := s.draws + 1 }) := by rw [readElement, unspecified]
  have bits : 256 ^ w.elemSize.bytes = 2 ^ (8 * w.elemSize.bytes) := by rw [pow_mul]; norm_num
  have value : BitVec.ofNat 64 ((Config.freeElement s.draws).toNat % 256 ^ w.elemSize.bytes) =
      ((Config.freeElement s.draws).setWidth (8 * w.elemSize.bytes)).setWidth 64 := by
    rw [bits, ← BitVec.toNat_setWidth, BitVec.ofNat_toNat]
  rw [readArray, if_pos inRange, drawn, value]

theorem readArray_of_beyond {w : Window} {k : Nat} (s : State) (beyond : windowLen w ≤ k) :
    readArray w k s = busfault s := if_neg (by omega)

theorem writeArray_of_inRange {w : Window} {k : Nat} (v : Nat) (s : State) (inRange : k < windowLen w) :
    writeArray w k v s = respondWrite { s with mem := s.mem.store (elemAddr w k) w.elemSize.bytes v } :=
  if_pos inRange

theorem writeArray_of_beyond {w : Window} {k : Nat} (v : Nat) (s : State) (beyond : windowLen w ≤ k) :
    writeArray w k v s = busfault s := if_neg (by omega)

section
variable {i : Instr} {w : Window} {k : Nat} {s : State}

/-- The two answers of an instruction that reads an element in range: the element, or a draw. -/
theorem exec_read_of_inRange (read : exec i s = .next (readArray w k s)) (inRange : k < windowLen w) :
    (∀ v, s.mem.load (elemAddr w k) w.elemSize.bytes = some v →
      exec i s = .next { s with response := answer (BitVec.ofNat 64 v) }) ∧
    (s.mem.load (elemAddr w k) w.elemSize.bytes = none → ∃ v : BitVec (8 * w.elemSize.bytes),
      exec i s = .next { s with response := answer (v.setWidth 64), draws := s.draws + 1 }) := by
  refine ⟨fun v specified => ?_, fun unspecified => ?_⟩
  · rw [read, readArray_of_specified inRange specified]
    rfl
  · obtain ⟨v, drawn⟩ := readArray_of_unspecified inRange unspecified
    exact ⟨v, by rw [read, drawn]; rfl⟩

theorem exec_read_of_beyond (read : exec i s = .next (readArray w k s)) (beyond : windowLen w ≤ k) :
    exec i s = .next (busfault s) := by rw [read, readArray_of_beyond s beyond]

end

/-! ### The register window -/

/-- The offsets that R22 does not list are those without a register. -/
theorem regAt_of_reserved {off : Nat} (reserved : off ∉ registerOffsets) : regAt off = none := by
  unfold regAt
  split <;> simp_all [registerOffsets]

theorem mem_configOffsets_of_regAt {off : Nat} {c : CfgReg} (h : regAt off = some (.cfg c)) :
    off ∈ configOffsets := by
  unfold regAt at h
  split at h <;> simp_all [configOffsets]

/-- CMD_STATUS holds CODE in its low byte and OPC in the next (R51). -/
theorem CmdRegs.statusWord_eq (c : CmdRegs) :
    c.statusWord = BitVec.ofNat 64 (c.opc.toNat * 256 + c.code.toByte.toNat) := by
  have number : c.statusWord.toNat = c.opc.toNat * 256 + c.code.toByte.toNat := by
    rw [CmdRegs.statusWord, toNat_append_eq, toNat_zero_append, show 2 ^ 8 = 256 from rfl]
  rw [← number, BitVec.ofNat_toNat, BitVec.setWidth_eq]

/-- ERR holds BUS, CMD and CFG in its three low bits (R53). -/
theorem ErrBits.toWord_eq (e : ErrBits) :
    e.toWord = BitVec.ofNat 64 (e.bus.toNat + 2 * e.cmd.toNat + 4 * e.cfg.toNat) := by
  obtain ⟨bus, cmd, cfg⟩ := e
  cases bus <;> cases cmd <;> cases cfg <;> rfl

theorem seqValid_word_eq (b : Bool) : 0#63 ++ BitVec.ofBool b = BitVec.ofNat 64 b.toNat := by cases b <;> rfl

/-- A read of a register answers its value and changes nothing else. -/
theorem exec_hostRegRead_value {off : BitVec 9} {r : Reg} {v : Word} {s : State} (register : regAt off.toNat = some r)
    (value : r.read s = v) : exec (.hostRegRead off) s = .next { s with response := answer v } := by
  rw [exec_hostRegRead register, value]
  rfl

/-- A write of a configuration register in IDLE stores it. -/
theorem exec_hostRegWrite_cfg {off : BitVec 9} {c : CfgReg} {s : State} (idle : s.mode = .idle)
    (register : regAt off.toNat = some (.cfg c)) (v : Word) :
    exec (.hostRegWrite off v) s = .next { s with cfg := c.write v s.cfg, response := answer 0 } := by
  rw [exec_hostRegWrite register, writeReg_cfg_idle idle]
  rfl

/-- A write of any other register, and of a configuration register outside IDLE, is a bus error. -/
theorem exec_hostRegWrite_refused {off : BitVec 9} {s : State} (v : Word) (notCmd : off ≠ 0)
    (notConfig : off.toNat ∈ configOffsets → s.mode ≠ .idle) :
    exec (.hostRegWrite off v) s = .next (busfault s) := by
  rcases execHostRegWrite_cases off v s notCmd with ⟨c, register, idle, -⟩ | refused
  · exact absurd idle (notConfig (mem_configOffsets_of_regAt register))
  · exact refused

/-- An opcode's instruction runs the opcode's rule. -/
theorem exec_instr (o : Opcode) (n : BitVec 32) (s : State) : exec (o.instr n) s = runOpcode o n s := by
  cases o <;> rfl

/-- The command word's meaning is that of a write of it to CMD (R81, R101). -/
theorem perform_write_zero (w : Word) (s : State) : perform (.bus (.write 0 .b8 w)) s = execCommandWord w s := by
  cases checked : checkCmd w with
  | error r =>
    rw [perform_of_decode_error ((decode_write_zero w).trans (decodeCmd_error checked)), execCommandWord_error checked]
  | ok p =>
    have decoded : decodeCmd w = .ok (p.1.instr p.2) := by rw [decodeCmd, checked]
    rw [perform_of_decode ((decode_write_zero w).trans decoded), execCommandWord_ok checked, exec_instr]

end Sys2Proof.Machine
end

section
/-! The obligations on the host accesses. -/
namespace Sys2Proof.Proofs
open Sys2Proof Sys2Proof.Machine

/-- Settles O38: each of the 28 registers by its offset; a transaction in the window that no read carries is a
misfit. -/
theorem registerReads : Obligations.RegisterReads := by
  refine ⟨fun s => ?registers, fun s off reserved => ?reserved, fun s a n inside misfit => ?misfit⟩
  case registers =>
    intro reads
    have reg (r : Reg) {off : BitVec 9} (register : regAt off.toNat = some r) : reads off (r.read s) :=
      exec_hostRegRead_value register rfl
    exact ⟨reg .cmd rfl, exec_hostRegRead_value rfl s.cmd.statusWord_eq, reg .result rfl, reg .mode rfl,
      exec_hostRegRead_value rfl s.err.toWord_eq,
      reg (.cfg .packSz) rfl, reg (.cfg .headerSz) rfl, reg (.cfg .fftN) rfl, reg (.cfg .fftBatch) rfl,
      reg (.cfg .capMult) rfl, reg (.cfg .sampleRate) rfl, reg (.cfg .centerFreq) rfl, reg (.cfg .listenPort) rfl,
      reg (.cfg .rxTimeoutMs) rfl,
      reg .fifoCapacity rfl, reg .fifoAvail rfl, reg .fifoWptr rfl, reg .fifoRptr rfl,
      reg .seqPrev rfl, exec_hostRegRead_value rfl (seqValid_word_eq s.seq.valid),
      reg .gapEvents rfl, reg .lostEst rfl, reg .ovfEvents rfl, reg .ovfSamples rfl, reg .malformedCount rfl,
      reg .frameCount rfl, reg .batchRaw rfl, reg .payloadElems rfl⟩
  case reserved => exact exec_hostRegRead_reserved (regAt_of_reserved reserved) s
  case misfit =>
    exact perform_misfit (w := .regs) s (windowOf_eq_some.2 ⟨Nat.zero_le _, inside⟩) misfit

/-- Settles O39: offset 0 is CMD, the nine offsets of the configuration are stored in IDLE, and all else is refused. -/
theorem registerWrites : Obligations.RegisterWrites := by
  refine ⟨fun s w => ?command, fun s v idle => ?config, fun s off v refused => ?refused,
    fun s a n v inside misfit => ?misfit⟩
  case command =>
    have meaning : exec (.hostRegWrite 0x000 w) s = perform (.bus (.write 0 .b8 w)) s := (perform_write_zero w s).symm
    refine ⟨meaning, fun i decoded => ?_⟩
    rw [meaning, perform_of_decode ((decode_write_zero w).trans decoded)]
  case config =>
    have stores (c : CfgReg) {off : BitVec 9} (register : regAt off.toNat = some (.cfg c)) :=
      exec_hostRegWrite_cfg idle register v
    exact ⟨stores .packSz rfl, stores .headerSz rfl, stores .fftN rfl, stores .fftBatch rfl, stores .capMult rfl,
      stores .sampleRate rfl, stores .centerFreq rfl, stores .listenPort rfl, stores .rxTimeoutMs rfl⟩
  case refused =>
    have notCmd : off ≠ 0 := by
      rintro rfl
      simp [configOffsets] at refused
    exact exec_hostRegWrite_refused v notCmd fun config => (refused.resolve_right fun other => other.2 config).2
  case misfit =>
    exact perform_misfit (w := .regs) s (windowOf_eq_some.2 ⟨Nat.zero_le _, inside⟩) misfit

/-- Settles O40: PUSH_BUF is the one array the host writes. -/
theorem pushBufAccess : Obligations.PushBufAccess := by
  refine ⟨fun s k v inRange => ?write, fun s k inRange => ?read, fun s k v beyond => ⟨?writeBeyond, ?readBeyond⟩,
    fun s a n v low high misfit => ?misfit⟩
  case write =>
    refine ⟨s.mem.store (elemAddr .pushBuf k.toNat) 2 v.toNat, ?_, ?_, fun b outside => ?_⟩
    · exact congrArg _ (writeArray_of_inRange (w := .pushBuf) v.toNat s inRange)
    · have stored := s.mem.load_store_self (elemAddr .pushBuf k.toNat) 2 v.toNat
      rwa [Nat.mod_eq_of_lt (show v.toNat < 256 ^ 2 from v.isLt)] at stored
    · exact s.mem.byte_store_outside _ outside
  case read => exact exec_read_of_inRange (w := .pushBuf) rfl inRange
  case writeBeyond => exact congrArg _ (writeArray_of_beyond (w := .pushBuf) v.toNat s beyond)
  case readBeyond => exact exec_read_of_beyond (w := .pushBuf) rfl beyond
  case misfit =>
    have window : windowOf a = some .pushBuf := windowOf_eq_some.2 ⟨low, high⟩
    exact ⟨perform_misfit (t := .read a n) s window misfit, perform_misfit (t := .write a n v) s window misfit⟩

/-- Settles O41: POP_BUF is read as every array, and written by no transaction. -/
theorem popBufReads : Obligations.PopBufReads := by
  refine ⟨fun s k inRange => exec_read_of_inRange (w := .popBuf) rfl inRange,
    fun s k beyond => exec_read_of_beyond (w := .popBuf) rfl beyond, fun s a n v low high => ?_⟩
  have window : windowOf a = some .popBuf := windowOf_eq_some.2 ⟨low, high⟩
  exact ⟨perform_misfit (t := .read a n) s window, perform_write_readOnly n v s window nofun nofun⟩

/-- Settles O42: SPEC_OUT is read as every array, and written by no transaction. -/
theorem specOutReads : Obligations.SpecOutReads := by
  refine ⟨fun s k inRange => exec_read_of_inRange (w := .specOut) rfl inRange,
    fun s k beyond => exec_read_of_beyond (w := .specOut) rfl beyond, fun s a n v low high => ?_⟩
  have window : windowOf a = some .specOut := windowOf_eq_some.2 ⟨low, high⟩
  exact ⟨perform_misfit (t := .read a n) s window, perform_write_readOnly n v s window nofun nofun⟩

/-- Settles O43: FREQ is read as every array, and written by no transaction; a draw fills all 64 bits of the answer. -/
theorem freqReads : Obligations.FreqReads := by
  refine ⟨fun s k inRange => ?inRange, fun s k beyond => exec_read_of_beyond (w := .freq) rfl beyond,
    fun s a n v low high => ?refused⟩
  case inRange =>
    obtain ⟨specified, unspecified⟩ := exec_read_of_inRange (w := .freq) (i := .freqRead k) (s := s) rfl inRange
    refine ⟨specified, fun none => ?_⟩
    obtain ⟨v, drawn⟩ := unspecified none
    exact ⟨v.setWidth 64, drawn⟩
  case refused =>
    have window : windowOf a = some .freq := windowOf_eq_some.2 ⟨low, high⟩
    exact ⟨perform_misfit (t := .read a n) s window, perform_write_readOnly n v s window nofun nofun⟩

end Sys2Proof.Proofs
end

section
/-! SUPPORT. The Circular Sample Buffer as a queue (R130, R135), and the FIFO commands outcome by outcome (R136, R137):
what each push and pop leaves of the queue, of POP_BUF and of the record. -/
namespace Sys2Proof.Machine

/-! ### The queue (R130) -/

@[simp] theorem queue_length (s : State) : s.queue.length = s.csb.avail := by simp [State.queue]

@[simp] theorem queue_getElem (s : State) {k : Nat} (h : k < s.queue.length) :
    s.queue[k] = Cells.lookup s.csb.store ((s.csb.rptr + k) % s.derived.cap) := by simp [State.queue]

/-- Places less than `c` apart are at different positions of STORE. -/
theorem add_mod_ne_add_mod {c k j : Nat} (r : Nat) (before : k < j) (near : j - k < c) :
    (r + k) % c ≠ (r + j) % c := by
  intro same
  have divides : c ∣ (r + j) - (r + k) := (Nat.modEq_iff_dvd' (by omega)).1 same
  have := Nat.le_of_dvd (by omega) divides
  omega

/-- After a push STORE holds, at the places counted from the old read cursor, the old queue and then the pushed
elements, but for the places overwritten. -/
theorem lookup_fifoPush {s : State} {xs : List Sample} (ok : s.csb.cursorsOk s.derived.cap)
    (fits : xs.length ≤ s.derived.cap) {k : Nat} (h : k < (s.queue ++ xs.map some).length)
    (kept : s.csb.avail + xs.length - s.derived.cap ≤ k) :
    Cells.lookup (fifoPush xs s).csb.store ((s.csb.rptr + k) % s.derived.cap) = (s.queue ++ xs.map some)[k] := by
  obtain ⟨-, -, -, relation⟩ := ok
  have place (j : Nat) : (s.csb.wptr + j) % s.derived.cap = (s.csb.rptr + (s.csb.avail + j)) % s.derived.cap := by
    rw [relation, Nat.mod_add_mod, Nat.add_assoc]
  obtain ⟨stored, unread⟩ := lookup_storeSamples s.derived.cap s.csb.store s.csb.wptr xs fits
    ((s.csb.rptr + k) % s.derived.cap)
  rw [fifoPush_store]
  rw [List.length_append, queue_length, List.length_map] at h
  by_cases old : k < s.csb.avail
  · rw [List.getElem_append_left (by rwa [queue_length]), queue_getElem]
    exact unread fun j pushed => place j ▸ add_mod_ne_add_mod _ (by omega) (by omega)
  · rw [List.getElem_append_right (by rw [queue_length]; omega), List.getElem_map]
    refine stored (k - s.queue.length) _ (List.getElem?_eq_getElem _) ?_
    rw [place, queue_length, Nat.add_sub_cancel' (by omega)]

/-- R135 for a push: the old queue followed by the pushed elements, without the oldest that exceed the capacity. -/
theorem fifoPush_queue {s : State} {xs : List Sample} (ok : s.csb.cursorsOk s.derived.cap)
    (fits : xs.length ≤ s.derived.cap) :
    (fifoPush xs s).queue = (s.queue ++ xs.map some).drop (s.csb.avail + xs.length - s.derived.cap) := by
  apply List.ext_getElem
  · simp only [queue_length, fifoPush_avail, List.length_drop, List.length_append, List.length_map]
    omega
  · intro k _ below
    rw [List.length_drop] at below
    rw [queue_getElem, List.getElem_drop, ← lookup_fifoPush ok fits (by omega) (by omega), fifoPush_rptr_eq xs ok,
      fifoPush_derived, Nat.mod_add_mod, Nat.add_assoc]

/-- R135 for the elements of a pop. -/
theorem fifoPop_fst_queue (n : Nat) {s : State} (written : s.csb.unreadWritten s.derived.cap) :
    (fifoPop n s).1.map some = s.queue.take (min n s.csb.avail) := by
  apply List.ext_getElem
  · simp
  · intro k below _
    rw [List.length_map, fifoPop_length] at below
    obtain ⟨x, stored⟩ := Option.isSome_iff_exists.1 (written k (by omega))
    obtain ⟨_, element⟩ := List.getElem?_eq_some_iff.1 (fifoPop_written n s below stored)
    rw [List.getElem_map, element, List.getElem_take, queue_getElem, stored]

/-- R135 for what a pop leaves. -/
theorem fifoPop_snd_queue (n : Nat) (s : State) : (fifoPop n s).2.queue = s.queue.drop (min n s.csb.avail) := by
  apply List.ext_getElem
  · simp
  · intro k _ _
    rw [queue_getElem, List.getElem_drop, queue_getElem, fifoPop_snd_csb, fifoPop_snd_derived]
    dsimp only
    rw [Nat.mod_add_mod, Nat.add_assoc]

/-! ### The words of the FIFO commands (R82 to R85) -/

/-- A command with an operand is its OPC and RSV0 as the low half-word, below ARG. -/
theorem decode_operandWord {o : Opcode} {low : BitVec 16} (operand : o.hasOperand = true) (half : 0#8 ++ o.byte = low)
    (n : BitVec 32) : decode (.bus (.write 0 .b8 (0#16 ++ n ++ low))) = .ok (o.instr n) := by
  have word : 0#16 ++ n ++ low = cmdWord o n := by
    rw [← half, cmdWord, BitVec.append_assoc']
    rfl
  rw [word]
  exact decode_cmdWrite (.inl operand)

/-- The word of a command with an operand, with a reserved field that is not 0, records RESERVED_FIELD. -/
theorem perform_reserved_operand {w : Word} {b : Byte} (s : State) (opc : cmdOpc w = b)
    (operand : b ∈ [0x10#8, 0x11#8]) (reserved : cmdRsv0 w ≠ 0 ∨ cmdRsv1 w ≠ 0) :
    perform (.bus (.write 0 .b8 w)) s =
      .next { s with cmd := ⟨b, .reservedField, 0⟩, err := { s.err with cmd := true }, response := answer 0 } := by
  subst opc
  obtain ⟨o, opcode, -⟩ := opcodeOf_operand operand
  have fails := checkCmd_of_reserved opcode fun n _ word => by simp [word] at reserved
  exact perform_write_of_checkCmd_error fails rfl nofun nofun

/-! ### FIFO_PUSH and FIFO_POP by mode and operand (R136, R137) -/

section
variable {i : Instr} {opc : Byte} {legal : Mode → Bool} {rule : State → CmdEnd} {s t : State}

/-- A command whose rule ends normally leaves the rule's state, with its RESULT recorded. -/
theorem exec_of_rule_result {res : Nat} (command : exec i s = .next (runCommand opc legal rule s))
    (mode : legal s.mode = true) (ends : rule s = .ok res t) :
    exec i s = .next { t with cmd := ⟨opc, .ok, BitVec.ofNat 64 res⟩, response := answer 0 } := by
  rw [command, runCommand_ok mode ends]
  simp [recordStatus, ErrBits.afterCommand, answer]

/-- A command whose rule raises a code other than CONFIG_INVALID records it with its RESULT, sets ERR.CMD, and changes
nothing else (R12, R106). -/
theorem exec_of_rule_raise {code : Status} {info : Nat} (command : exec i s = .next (runCommand opc legal rule s))
    (mode : legal s.mode = true) (raises : rule s = .raise code info) (notOk : code ≠ .ok)
    (notCfg : code ≠ .configInvalid) :
    exec i s =
      .next { s with
        cmd := ⟨opc, code, BitVec.ofNat 64 info⟩, err := { s.err with cmd := true }, response := answer 0 } := by
  rw [command, runCommand_raise mode raises]
  simp [recordStatus, ErrBits.afterCommand, answer, notOk, notCfg]

end

/-- The first `n` elements of PUSH_BUF, as FIFO_PUSH reads them. -/
def pushBufSamples (n : Nat) (s : State) : List Sample := (readSamples n (elemAddr .pushBuf 0) s).1

/-- The number of draws after the first `n` elements of PUSH_BUF have been read. -/
def pushBufDraws (n : Nat) (s : State) : Nat := (readSamples n (elemAddr .pushBuf 0) s).2.draws

theorem pushBufSamples_length (n : Nat) (s : State) : (pushBufSamples n s).length = n := readSamples_length ..

theorem pushBufSamples_specified {n k v : Nat} {s : State} (below : k < n)
    (specified : s.mem.load (elemAddr .pushBuf 0 + 2 * k) 2 = some v) :
    (pushBufSamples n s)[k]? = some (BitVec.ofNat 16 v) := readSamples_specified n _ s below specified

theorem pushBufDraws_of_specified {n : Nat} {s : State}
    (specified : ∀ k < n, (s.mem.load (elemAddr .pushBuf 0 + 2 * k) 2).isSome = true) :
    pushBufDraws n s = s.draws := congrArg State.draws (readSamples_no_draw n _ s specified)

theorem exec_fifoPush {s : State} {n : BitVec 32} (ready : s.mode = .ready) (fits : n.toNat ≤ s.derived.cap) :
    exec (.fifoPush n) s =
      .next { fifoPush (pushBufSamples n.toNat s) { s with draws := pushBufDraws n.toNat s } with
        cmd := ⟨0x10, .ok, n.setWidth 64⟩, response := answer 0 } := by
  have ends : ruleFifoPush n.toNat s =
      .ok n.toNat (fifoPush (pushBufSamples n.toNat s) { s with draws := pushBufDraws n.toNat s }) := by
    rw [ruleFifoPush, if_neg (by omega)]
    dsimp only
    rw [readSamples_snd]
    rfl
  rw [← BitVec.ofNat_toNat]
  exact exec_of_rule_result rfl (onlyMode_iff.2 ready) ends

theorem exec_fifoPush_of_too_large {s : State} {n : BitVec 32} (ready : s.mode = .ready)
    (large : s.derived.cap < n.toNat) :
    exec (.fifoPush n) s =
      .next { s with
        cmd := ⟨0x10, .pushTooLarge, BitVec.ofNat 64 s.derived.cap⟩
        err := { s.err with cmd := true }
        response := answer 0 } :=
  exec_of_rule_raise (rule := ruleFifoPush n.toNat) rfl (onlyMode_iff.2 ready) (if_pos large) nofun nofun

theorem exec_fifoPush_of_not_ready {s : State} (n : BitVec 32) (mode : s.mode ≠ .ready) :
    exec (.fifoPush n) s =
      .next { s with cmd := ⟨0x10, .illegalState, 0⟩, err := { s.err with cmd := true }, response := answer 0 } :=
  exec_of_illegalState rfl (onlyMode_eq_false_iff.2 mode)

theorem exec_fifoPop {s : State} (n : BitVec 32) (ready : s.mode = .ready) :
    exec (.fifoPop n) s =
      .next { popped n.toNat s with
        cmd := ⟨0x11, .ok, BitVec.ofNat 64 (min n.toNat s.csb.avail)⟩, response := answer 0 } := by
  have ends : ruleFifoPop n.toNat s = .ok (min n.toNat s.csb.avail) (popped n.toNat s) := by
    rw [← fifoPop_length]
    rfl
  exact exec_of_rule_result rfl (onlyMode_iff.2 ready) ends

theorem exec_fifoPop_of_not_ready {s : State} (n : BitVec 32) (mode : s.mode ≠ .ready) :
    exec (.fifoPop n) s =
      .next { s with cmd := ⟨0x11, .illegalState, 0⟩, err := { s.err with cmd := true }, response := answer 0 } :=
  exec_of_illegalState rfl (onlyMode_eq_false_iff.2 mode)

/-- POP_BUF[k] holds the `k`-th popped element. -/
theorem popped_load {n k : Nat} {x : Sample} {s : State} (element : (fifoPop n s).1[k]? = some x) :
    (popped n s).mem.load (elemAddr .popBuf 0 + 2 * k) 2 = some x.toNat := by
  obtain ⟨below, rfl⟩ := List.getElem?_eq_some_iff.1 element
  have stored := s.mem.load_storeElems (elemAddr .popBuf 0) 2 ((fifoPop n s).1.map BitVec.toNat)
    (j := k) (by rwa [List.length_map])
  rwa [List.getElem_map, Nat.mod_eq_of_lt (show _ < 256 ^ 2 from BitVec.isLt _)] at stored

/-- A pop writes no byte outside the elements of POP_BUF that it fills. -/
theorem popped_byte {n a : Nat} (s : State)
    (outside : a < elemAddr .popBuf 0 ∨ elemAddr .popBuf 0 + 2 * min n s.csb.avail ≤ a) :
    (popped n s).mem.byte a = s.mem.byte a :=
  s.mem.byte_storeElems_outside _ (by rwa [List.length_map, fifoPop_length])

end Sys2Proof.Machine
end

section
/-! The obligations on the Circular Sample Buffer. -/
namespace Sys2Proof.Proofs
open Sys2Proof Sys2Proof.Machine

/-- Settles O12, by the two branches of the push; the copy loop says what STORE holds in both. -/
theorem fifoPushEffect : Obligations.FifoPushEffect := by
  intro s xs fits
  have copied := lookup_storeSamples s.derived.cap s.csb.store s.csb.wptr xs fits
  refine ⟨storeSamples s.derived.cap s.csb.store s.csb.wptr xs, ?state, fun k x pushed => ?written, fun p => ?kept⟩
  case state =>
    split_ifs with overflow
    · exact fifoPush_of_overflow overflow
    · exact fifoPush_of_fits overflow
  case written => exact (copied _).1 k x pushed rfl
  case kept => exact (copied p).2

/-- Settles O13: the copy loop returns what STORE holds, and draws only where STORE holds nothing. -/
theorem fifoPopEffect : Obligations.FifoPopEffect := fun s n =>
  ⟨(fifoPop n s).1, (fifoPop n s).2.draws, rfl, fifoPop_length n s, fun _ below _ => fifoPop_written n s below,
    fun written => fifoPop_no_draw n s fun k below => written k (below.trans_le (Nat.min_le_right ..))⟩

/-- Settles O14: a push drops from the extended queue exactly what exceeds the capacity, a pop splits the queue. -/
theorem queueDropsOldest : Obligations.QueueDropsOldest := by
  refine ⟨fun s xs ok fits => ?push, fun s n _ written => ?pop⟩
  case push =>
    rw [fifoPush_queue ok fits]
    split_ifs with room
    · rw [Nat.sub_eq_zero_of_le room, List.drop_zero]
    · rw [lastElems, List.length_append, queue_length, List.length_map]
  case pop =>
    rw [queue_length]
    exact ⟨fifoPop_fst_queue n written, fifoPop_snd_queue n s⟩

/-- Settles O15: the clauses are the command's word, its outcomes by mode and operand, and its reserved fields. -/
theorem fifoPushCommand : Obligations.FifoPushCommand := by
  refine ⟨decode_operandWord (o := .fifoPush) rfl rfl, fun s n ready fits => ?pushes,
    fun _ _ => exec_fifoPush_of_too_large, fun _ n => exec_fifoPush_of_not_ready n,
    fun _ s opc => perform_reserved_operand s opc (by decide)⟩
  case pushes =>
    exact ⟨pushBufSamples n.toNat s, pushBufDraws n.toNat s, pushBufSamples_length _ s,
      fun _ below _ => pushBufSamples_specified below, pushBufDraws_of_specified, exec_fifoPush ready fits⟩

/-- Settles O16: what is popped is FifoPop's, and what is stored is the copy to POP_BUF. -/
theorem fifoPopCommand : Obligations.FifoPopCommand := by
  refine ⟨decode_operandWord (o := .fifoPop) rfl rfl, fun s n ready => ?pops, fun _ n => exec_fifoPop_of_not_ready n,
    fun _ s opc => perform_reserved_operand s opc (by decide)⟩
  case pops =>
    exact ⟨(fifoPop n.toNat s).1, (fifoPop n.toNat s).2.draws, (popped n.toNat s).mem, fifoPop_length _ s,
      fun _ below _ => fifoPop_written _ s below, exec_fifoPop n ready, fun _ _ => popped_load,
      fun _ => popped_byte s⟩

end Sys2Proof.Proofs
end

section
/-! SUPPORT. The RX events, outcome by outcome (R150 to R162): what the wire format says of a datagram's fields, which
datagrams are discarded, and what an accepted one leaves with and without the trigger. -/
namespace Sys2Proof.Machine

/-! ### Descriptors (R86, R87) -/

theorem decodeRx_reserved {a : RxArrival} (reserved : 0x02 ≤ (rxKind a.desc).toNat) :
    decodeRx a = .error .reservedKind := by
  rw [decodeRx]
  split
  · omega
  · omega
  · rfl

/-- The mask of the opcode table's RX rows selects KIND. -/
theorem rxKind_mask (desc : BitVec 32) : rxKind (desc &&& 0xFF000000) = rxKind desc := by
  rw [rxKind, BitVec.extractLsb'_and]
  exact BitVec.and_allOnes

theorem rxDesc_timeout {desc : BitVec 32} (row : desc &&& 0xFF000000 = 0x01000000) : desc = 0x01#8 ++ rxLen desc := by
  have kind : rxKind desc = 0x01#8 := by rw [← rxKind_mask, row]; rfl
  rw [← kind]
  exact rxDesc_fields desc

/-! ### Fields of a datagram (R65, R66, R159) -/

theorem bytesLE_take (n : Nat) (d : List Byte) :
    bytesLE (d.take n) = ∑ k ∈ Finset.range n, (d.getD k 0).toNat * 256 ^ k := by
  induction n generalizing d with
  | zero => rfl
  | succ n ih =>
    cases d with
    | nil => simp [bytesLE]
    | cons b t =>
      rw [List.take_succ_cons, bytesLE, ih, Finset.sum_range_succ', Finset.mul_sum, Nat.add_comm]
      refine congrArg₂ (· + ·) (Finset.sum_congr rfl fun k _ => ?_) (by simp)
      rw [List.getD_cons_succ, pow_succ']
      exact Nat.mul_left_comm ..

theorem parseSeq_eq_wireSeq (d : List Byte) : parseSeq d = BitVec.ofNat 64 (wireSeq d) :=
  congrArg (BitVec.ofNat 64) (bytesLE_take 8 d)

/-- A sequence number is read from the first eight bytes alone. -/
theorem parseSeq_take {p : Nat} (long : 8 ≤ p) (d : List Byte) : parseSeq (d.take p) = parseSeq d := by
  rw [parseSeq, List.take_take, Nat.min_eq_left long, parseSeq]

theorem samplesOf_eq_map_range (l : List Byte) :
    samplesOf l = (List.range (l.length / 2)).map fun j => l.getD (2 * j + 1) 0 ++ l.getD (2 * j) 0 := by
  induction l using samplesOf.induct with
  | case1 lo hi t ih =>
    have pairs : (lo :: hi :: t).length / 2 = t.length / 2 + 1 := by simp only [List.length_cons]; omega
    rw [samplesOf, ih, pairs, List.range_succ_eq_map, List.map_cons, List.map_map]
    rfl
  | case2 l short =>
    rcases l with _ | ⟨lo, _ | ⟨hi, t⟩⟩
    · rfl
    · simp [samplesOf]
    · exact absurd rfl (short lo hi t)

@[simp] theorem wireSamples_length (d : List Byte) (le : Nat) : (wireSamples d le).length = (le - 8) / 2 := by
  simp [wireSamples]

/-- The payload of a datagram is its samples on the wire, up to the effective length. -/
theorem payload_eq_wireSamples (d : List Byte) (s : State) : payload d s = wireSamples d (effectiveLen d s) := by
  have read : effectiveLen d s ≤ d.length := Nat.min_le_left ..
  have length : ((d.take (effectiveLen d s)).drop 8).length = effectiveLen d s - 8 := by
    rw [List.length_drop, List.length_take, Nat.min_eq_left read]
  have byte {k : Nat} (below : k < effectiveLen d s - 8) :
      ((d.take (effectiveLen d s)).drop 8).getD k 0 = d.getD (8 + k) 0 := by
    simp only [List.getD_eq_getElem?_getD, List.getElem?_drop]
    rw [List.getElem?_take_of_lt (by omega)]
  rw [payload, samplesOf_eq_map_range, length, wireSamples]
  refine List.map_congr_left fun j below => ?_
  rw [List.mem_range] at below
  rw [byte (by omega), byte (by omega), wireSample]
  congr 2
  omega

/-! ### Truncation (R153) -/

@[simp] theorem effectiveLen_take (d : List Byte) (s : State) :
    effectiveLen (d.take s.cfg.packSz.toNat) s = effectiveLen d s := by
  simp only [effectiveLen, List.length_take]
  omega

@[simp] theorem isMalformed_take (d : List Byte) (s : State) :
    isMalformed (d.take s.cfg.packSz.toNat) s = isMalformed d s := by
  rw [isMalformed, effectiveLen_take, isMalformed]

@[simp] theorem payload_take (d : List Byte) (s : State) : payload (d.take s.cfg.packSz.toNat) s = payload d s := by
  have read : effectiveLen d s ≤ s.cfg.packSz.toNat := Nat.min_le_right ..
  rw [payload, effectiveLen_take, List.take_take, Nat.min_eq_left read, payload]

theorem received_take {s : State} (long : 8 ≤ s.cfg.packSz.toNat) (d : List Byte) :
    received (d.take s.cfg.packSz.toNat) s = received d s := by
  rw [received, payload_take, numbered, parseSeq_take long, received, numbered]

/-! ### Discarded and accepted datagrams (R154, R155, R162) -/

theorem isMalformed_iff (d : List Byte) (s : State) :
    isMalformed d s = true ↔
      effectiveLen d s < s.cfg.headerSz.toNat ∨ (effectiveLen d s - s.cfg.headerSz.toNat) % 2 ≠ 0 := by
  simp [isMalformed]

theorem ingest_of_malformed {d : List Byte} {s : State} (run : s.mode = .run) (malformed : isMalformed d s = true) :
    ingest d s = { s with counters := s.counters.addMalformed } := by
  simp [ingest, run, malformed]

theorem ingest_of_wellFormed {d : List Byte} {s : State} (run : s.mode = .run) (wellFormed : isMalformed d s = false) :
    ingest d s = trigger (received d s) := by
  simp only [ingest, run, wellFormed]
  rfl

/-- With the header of an accepted configuration, a datagram of eight bytes and an even payload is accepted. -/
theorem isMalformed_eq_false {d : List Byte} {s : State} (header : s.cfg.headerSz.toNat = 8)
    (long : 8 ≤ effectiveLen d s) (even : (effectiveLen d s - 8) % 2 = 0) : isMalformed d s = false := by
  rw [Bool.eq_false_iff, Ne, isMalformed_iff, header]
  omega

theorem received_avail (d : List Byte) (s : State) :
    (received d s).csb.avail = min (s.csb.avail + (payload d s).length) s.derived.cap := fifoPush_avail ..

/-- The queue after an accepted datagram: its samples at the end, the oldest that exceed the capacity dropped. -/
theorem received_queue {s : State} (inv : s.CsbInv) (active : s.mode ≠ .idle) (d : List Byte) :
    (received d s).queue = lastElems s.derived.cap (s.queue ++ (payload d s).map some) := by
  have pushed := fifoPush_queue (s := numbered d s) (inv.cursors active) (payload_fits inv active d)
  rw [lastElems, List.length_append, queue_length, List.length_map]
  exact pushed

/-- The samples and the sequence number that an accepted datagram takes in are those on the wire. -/
theorem received_eq_fifoPush (d : List Byte) (s : State) :
    received d s = fifoPush (wireSamples d (effectiveLen d s))
      { s with
        seq := ⟨BitVec.ofNat 64 (wireSeq d), true⟩
        counters := gapDetect s.seq (BitVec.ofNat 64 (wireSeq d)) s.counters } := by
  rw [received, payload_eq_wireSamples, numbered, parseSeq_eq_wireSeq]

/-! ### A frame from the whole queue (R161) -/

/-- A pop of the whole queue, every element of it written, returns it and draws nothing. -/
theorem fifoPop_whole {s : State} (written : s.csb.unreadWritten s.derived.cap) :
    (fifoPop s.csb.avail s).1.map some = s.queue ∧
    (fifoPop s.csb.avail s).2 =
      { s with csb := { s.csb with rptr := (s.csb.rptr + s.csb.avail) % s.derived.cap, avail := 0 } } := by
  have draws : (fifoPop s.csb.avail s).2.draws = s.draws :=
    fifoPop_no_draw _ s fun k below => written k (below.trans_le (Nat.min_le_right ..))
  constructor
  · rw [fifoPop_fst_queue _ written, Nat.min_self, List.take_of_length_le (queue_length s).le]
  · calc (fifoPop s.csb.avail s).2
      _ = { s with csb := (fifoPop s.csb.avail s).2.csb, draws := (fifoPop s.csb.avail s).2.draws } := rfl
      _ = _ := by rw [draws, fifoPop_snd_csb, Nat.min_self, Nat.sub_self]

/-- The trigger makes one frame of the whole queue and empties the buffer. -/
theorem computeFrame_of_full {s : State} {r : DerivedRegs} (derived : s.derived = r)
    (written : s.csb.unreadWritten r.cap) (full : s.csb.avail = r.nraw) :
    ∃ raw : List Sample, raw.map some = s.queue ∧
      computeFrame s = spectrumCompute raw
        { s with csb := { s.csb with rptr := (s.csb.rptr + r.nraw) % r.cap, avail := 0 } } := by
  subst derived
  obtain ⟨elements, left⟩ := fifoPop_whole written
  rw [full] at elements left
  exact ⟨(fifoPop s.derived.nraw s).1, elements, by rw [computeFrame, left]⟩

/-- SPEC_OUT[m] after a frame (R178). -/
theorem spectrumCompute_element (raw : List Sample) (s : State) {m : Nat} (below : m < s.cfg.fftN.toNat) :
    (spectrumCompute raw s).element .specOut m =
      some (specNum s.cfg.fftN.toNat s.cfg.fftBatch.toNat raw s.draws m).toNat := by
  have stored := s.mem.load_fill (w := .specOut)
    (vs := (List.range s.cfg.fftN.toNat).map fun k =>
      (specNum s.cfg.fftN.toNat s.cfg.fftBatch.toNat raw s.draws k).toNat)
    (i := m) (by simpa using below)
  rw [List.getElem_map, List.getElem_range,
    Nat.mod_eq_of_lt (show _ < 256 ^ Window.specOut.elemSize.bytes from BitVec.isLt _)] at stored
  exact stored

end Sys2Proof.Machine
end

section
/-! SUPPORT. The cadence of full-size datagrams (R163): how the queue fills as they are delivered one after the other,
and the state in which the last of them leaves the block. -/
namespace Sys2Proof.Machine

/-! ### Full-size datagrams -/

/-- The payload of a full-size datagram is not empty, and an even number of bytes (R109, checks 2 and 4). -/
theorem packSz_of_checks {r : CfgRegs} (checks : firstFailingCheck r = 0) :
    8 < r.packSz.toNat ∧ (r.packSz.toNat - 8) % 2 = 0 := by
  have header := (accepted_of_checks checks).header
  have check := (firstFailingCheck_eq_zero_iff r).1 checks
  have longer : r.headerSz.toNat < r.packSz.toNat := check 1 (by decide)
  have even : ((r.packSz.toNat : Int) - r.headerSz.toNat) % 2 = 0 := check 3 (by decide)
  omega

theorem State.CsbInv.pelem {s : State} (inv : s.CsbInv) (active : s.mode ≠ .idle) :
    s.derived.pelem = (s.cfg.packSz.toNat - 8) / 2 := by
  rw [inv.derived active, derivedOf, (inv.accepted active).header]

theorem State.CsbInv.nraw_le_cap {s : State} (inv : s.CsbInv) (active : s.mode ≠ .idle) :
    s.derived.nraw ≤ s.derived.cap := by
  rw [inv.derived active]
  exact (inv.accepted active).nraw_le

theorem State.CsbInv.nraw_pos {s : State} (inv : s.CsbInv) (active : s.mode ≠ .idle) : 0 < s.derived.nraw := by
  have accepted := inv.accepted active
  rw [inv.derived active]
  exact Nat.mul_pos (Nat.mul_pos Nat.two_pos (Nat.two_pos.trans_le accepted.two_le)) accepted.windows

/-- With no room lacking, an accepted datagram counts no overflow. -/
theorem received_ovfEvents_of_fits {d : List Byte} {s : State}
    (room : s.csb.avail + (payload d s).length ≤ s.derived.cap) :
    (received d s).counters.ovfEvents = s.counters.ovfEvents := by
  have counters : (received d s).counters = gapDetect s.seq (parseSeq d) s.counters := by
    rw [received, fifoPush_of_fits (by simpa [numbered] using room)]
    rfl
  rw [counters]
  rcases gapDetect_cases s.seq (parseSeq d) s.counters with h | h <;> rw [h]
  rfl

section
variable {s t : State} {ds : List (List Byte)} {d : List Byte}

/-- The payload elements of full-size datagrams, in arrival order (R163). -/
def batchOf (s : State) (ds : List (List Byte)) : List Sample :=
  (ds.map fun d => wireSamples d s.cfg.packSz.toNat).flatten

theorem batchOf_append (s : State) (ds : List (List Byte)) (d : List Byte) :
    batchOf s (ds ++ [d]) = batchOf s ds ++ wireSamples d s.cfg.packSz.toNat := by
  simp [batchOf]

theorem batchOf_length (inv : s.CsbInv) (active : s.mode ≠ .idle) (ds : List (List Byte)) :
    (batchOf s ds).length = ds.length * s.derived.pelem := by
  simp [batchOf, inv.pelem active, Function.comp_def]

/-- `Filled s ds t`: `t` is as `s` in RUN was, but that its queue holds the payloads of `ds`, of which no frame has been
computed and none has been lost. -/
structure Filled (s : State) (ds : List (List Byte)) (t : State) : Prop where
  inv : t.CsbInv
  run : t.mode = .run
  cfg : t.cfg = s.cfg
  derived : t.derived = s.derived
  mem : t.mem = s.mem
  draws : t.draws = s.draws
  frames : t.counters.frames = s.counters.frames
  ovfEvents : t.counters.ovfEvents = s.counters.ovfEvents
  queue : t.queue = (batchOf s ds).map some

theorem filled_nil (inv : s.CsbInv) (run : s.mode = .run) (empty : s.csb.avail = 0) : Filled s [] s where
  inv := inv
  run := run
  cfg := rfl
  derived := rfl
  mem := rfl
  draws := rfl
  frames := rfl
  ovfEvents := rfl
  queue := List.eq_nil_of_length_eq_zero ((queue_length s).trans empty)

theorem Filled.avail (filled : Filled s ds t) : t.csb.avail = ds.length * s.derived.pelem := by
  have active := ne_idle_of_run filled.run
  rw [← queue_length, filled.queue, List.length_map, ← filled.derived, ← batchOf_length filled.inv active, batchOf,
    batchOf, filled.cfg]

theorem Filled.effectiveLen_eq (filled : Filled s ds t) (size : d.length = s.cfg.packSz.toNat) :
    effectiveLen d t = s.cfg.packSz.toNat := by
  rw [effectiveLen, size, filled.cfg, Nat.min_self]

theorem Filled.payload_eq (filled : Filled s ds t) (size : d.length = s.cfg.packSz.toNat) :
    payload d t = wireSamples d s.cfg.packSz.toNat := by
  rw [payload_eq_wireSamples, filled.effectiveLen_eq size]

/-- A full-size datagram for which there is room fills the queue further. -/
theorem Filled.append (filled : Filled s ds t) (size : d.length = s.cfg.packSz.toNat)
    (room : (ds.length + 1) * s.derived.pelem ≤ s.derived.cap) : Filled s (ds ++ [d]) (received d t) := by
  have active := ne_idle_of_run filled.run
  have fits : t.csb.avail + (payload d t).length ≤ t.derived.cap := by
    rwa [filled.avail, filled.payload_eq size, wireSamples_length, ← filled.cfg, ← filled.inv.pelem active,
      filled.derived, ← Nat.succ_mul]
  exact {
    inv := received_csbInv filled.inv active d
    run := (received_mode d t).trans filled.run
    cfg := (received_cfg d t).trans filled.cfg
    derived := (received_derived d t).trans filled.derived
    mem := (received_mem d t).trans filled.mem
    draws := (fifoPush_draws ..).trans filled.draws
    frames := (received_frames d t).trans filled.frames
    ovfEvents := (received_ovfEvents_of_fits fits).trans filled.ovfEvents
    queue := by
      have whole : (t.queue ++ (payload d t).map some).length - t.derived.cap = 0 := by
        rw [List.length_append, queue_length, List.length_map, Nat.sub_eq_zero_of_le fits]
      rw [received_queue filled.inv active, lastElems, whole, List.drop_zero, filled.queue, filled.payload_eq size,
        batchOf_append, List.map_append] }

/-- A full-size datagram is accepted. -/
theorem Filled.exec_rxDatagram (filled : Filled s ds t) (size : d.length = s.cfg.packSz.toNat) :
    exec (.rxDatagram d) t = .next (trigger (received d t)) := by
  have active := ne_idle_of_run filled.run
  obtain ⟨longer, even⟩ := packSz_of_checks (filled.inv.checked active)
  have accepted : isMalformed d t = false := by
    apply isMalformed_eq_false (filled.inv.accepted active).header <;> rw [filled.effectiveLen_eq size, ← filled.cfg]
    exacts [longer.le, even]
  exact congrArg Host.Outcome.next (ingest_of_wellFormed filled.run accepted)

/-- The frame of a queue of NRAW elements is that of the payloads delivered. -/
theorem Filled.computeFrame_eq (filled : Filled s ds t) (full : ds.length * s.derived.pelem = s.derived.nraw) :
    computeFrame t = spectrumCompute (batchOf s ds)
      { t with csb := { t.csb with rptr := (t.csb.rptr + t.derived.nraw) % t.derived.cap, avail := 0 } } := by
  have avail : t.csb.avail = t.derived.nraw := by rw [filled.avail, full, filled.derived]
  obtain ⟨raw, elements, frame⟩ := computeFrame_of_full rfl (filled.inv.written (ne_idle_of_run filled.run)) avail
  obtain rfl : raw = batchOf s ds := (Option.some_injective _).list_map (elements.trans filled.queue)
  exact frame

/-! ### Delivery -/

theorem deliver_append (next : deliver ds s = .next t) (d : List Byte) :
    deliver (ds ++ [d]) s = exec (.rxDatagram d) t := by
  induction ds generalizing s with
  | nil =>
    cases next
    rfl
  | cons e es ih => exact ih next

/-- Full-size datagrams with fewer than NRAW elements fill the queue. -/
theorem deliver_of_short (inv : s.CsbInv) (run : s.mode = .run) (empty : s.csb.avail = 0)
    (sizes : ∀ d ∈ ds, d.length = s.cfg.packSz.toNat) (short : ds.length * s.derived.pelem < s.derived.nraw) :
    ∃ t, deliver ds s = .next t ∧ Filled s ds t := by
  induction ds using List.reverseRecOn with
  | nil => exact ⟨s, rfl, filled_nil inv run empty⟩
  | append_singleton ds d ih =>
    rw [List.length_append, List.length_singleton] at short
    have before : ds.length * s.derived.pelem ≤ (ds.length + 1) * s.derived.pelem := Nat.mul_le_mul_right _ (by omega)
    obtain ⟨t, delivered, filled⟩ := ih (fun e he => sizes e (by simp [he])) (by omega)
    have size := sizes d (by simp)
    have more := filled.append size (short.le.trans (inv.nraw_le_cap (ne_idle_of_run run)))
    have notFull : (received d t).csb.avail ≠ (received d t).derived.nraw := by
      rw [more.avail, more.derived, List.length_append, List.length_singleton]
      omega
    refine ⟨received d t, ?_, more⟩
    rw [deliver_append delivered, filled.exec_rxDatagram size, trigger_of_not_full notFull]

/-- With exactly NRAW elements the last of the datagrams computes the frame. -/
theorem deliver_of_full (inv : s.CsbInv) (run : s.mode = .run) (empty : s.csb.avail = 0)
    (sizes : ∀ d ∈ ds, d.length = s.cfg.packSz.toNat) (full : ds.length * s.derived.pelem = s.derived.nraw) :
    ∃ t, deliver ds s = .next (computeFrame t) ∧ Filled s ds t := by
  have active := ne_idle_of_run run
  have positive := inv.nraw_pos active
  cases ds using List.reverseRecOn with
  | nil =>
    rw [List.length_nil, Nat.zero_mul] at full
    omega
  | append_singleton ds d =>
    have length : (ds ++ [d]).length = ds.length + 1 := List.length_append
    have pelem : 0 < s.derived.pelem := Nat.pos_of_mul_pos_left (full ▸ positive)
    obtain ⟨t, delivered, filled⟩ := deliver_of_short inv run empty (ds := ds) (fun e he => sizes e (by simp [he]))
      (by rw [← full, length, Nat.succ_mul]; omega)
    have size := sizes d (by simp)
    have more := filled.append size (by rw [← length, full]; exact inv.nraw_le_cap active)
    have reached : (received d t).csb.avail = (received d t).derived.nraw := by
      rw [more.avail, more.derived, full]
    refine ⟨received d t, ?_, more⟩
    rw [deliver_append delivered, filled.exec_rxDatagram size, trigger_of_full reached]

end

end Sys2Proof.Machine
end

section
/-! The obligations on the packet parser, the gap detector and the ingestion loop. -/
namespace Sys2Proof.Proofs
open Sys2Proof Sys2Proof.Machine

/-- Settles O28: the ingestion loop runs in RUN alone. -/
theorem datagramOutsideRunDropped : Obligations.DatagramOutsideRunDropped :=
  ⟨fun d _ mode => congrArg Host.Outcome.next (ingest_of_not_run mode d), fun _ _ => rfl⟩

/-- Settles O29: the decoder rejects the KIND whatever follows it, and the block drops what it rejects so. -/
theorem reservedKindDropped : Obligations.ReservedKindDropped :=
  fun a s reserved => perform_of_decode_error (o := .rx a) (decodeRx_reserved reserved) s

/-- Settles O30: a descriptor of the timeout's row is KIND 0x01 and its LEN. -/
theorem timeoutChangesNothing : Obligations.TimeoutChangesNothing := by
  intro desc s row
  have decoded : decodeRx ⟨desc, []⟩ = .ok (.rxTimeout (rxLen desc)) := by
    conv_lhs => rw [rxDesc_timeout row]
    exact decodeRx_timeout (rxLen desc)
  exact ⟨decoded, rfl⟩

/-- Settles O31, by the outcomes of the ingestion loop: each reads the effective length, the first eight bytes of an
accepted datagram and its payload, none of which the truncation changes. -/
theorem datagramTruncated : Obligations.DatagramTruncated := by
  intro d s inv
  refine congrArg Host.Outcome.next ?_
  rcases ingest_cases d s with ⟨mode, -⟩ | ⟨run, malformed, outcome⟩ | ⟨run, wellFormed, -⟩
  · rw [ingest_of_not_run mode, ingest_of_not_run mode]
  · rw [outcome, ingest_of_malformed run (by rwa [isMalformed_take])]
  · obtain ⟨longer, -⟩ := packSz_of_checks (inv.checked (ne_idle_of_run run))
    rw [ingest_of_wellFormed run wellFormed, ingest_of_wellFormed run (by rwa [isMalformed_take]),
      received_take longer.le]

/-- Settles O32: the two cases are those in which a datagram is malformed. -/
theorem malformedDatagramCounted : Obligations.MalformedDatagramCounted := by
  intro d s run cases
  have malformed : isMalformed d s = true := (isMalformed_iff d s).2 (cases.imp_right And.right)
  exact congrArg Host.Outcome.next (ingest_of_malformed run malformed)

/-- Settles O33: the two clauses are the branches of the gap detector. -/
theorem gapDetection : Obligations.GapDetection := by
  refine fun q cur c => ⟨fun valid gap => if_pos ⟨valid, gap⟩, fun none => if_neg ?_⟩
  rintro ⟨valid, gap⟩
  rcases none with invalid | near
  · simp [valid] at invalid
  · omega

/-- Settles O34: the datagram is received, and the two clauses are the branches of the trigger. -/
theorem datagramAccepted : Obligations.DatagramAccepted := by
  intro d s inv run long even
  have active := ne_idle_of_run run
  have wellFormed := isMalformed_eq_false (inv.accepted active).header long even
  have accepted : exec (.rxDatagram d) s = .next (trigger (received d s)) :=
    congrArg Host.Outcome.next (ingest_of_wellFormed run wellFormed)
  have avail := received_avail d s
  have queue := received_queue inv active d
  rw [payload_eq_wireSamples] at avail queue
  refine ⟨fun below => ?_, fun reached => ?_⟩
  · rw [accepted, trigger_of_not_full (by rwa [avail, received_derived]), received_eq_fifoPush]
    rfl
  · have full : (received d s).csb.avail = s.derived.nraw := avail.trans reached
    have written := (received_csbInv inv active d).written (by rwa [received_mode])
    rw [received_derived] at written
    obtain ⟨raw, elements, frame⟩ := computeFrame_of_full (received_derived d s) written full
    refine ⟨raw, elements.trans queue, ?_, ?_⟩
    · rw [← List.length_map (f := some), elements, queue_length, full]
    · rw [accepted, trigger_of_full (by rw [full, received_derived]), frame, received_eq_fifoPush]
      rfl

/-- Settles O35: the queue fills with the payloads until the last datagram, whose frame empties it. -/
theorem frameCadence : Obligations.FrameCadence := by
  intro s ds inv run empty divides count sizes
  have active := ne_idle_of_run run
  have full : ds.length * s.derived.pelem = s.derived.nraw := by
    rw [count, Nat.div_mul_cancel (Nat.dvd_of_mod_eq_zero divides)]
  refine ⟨fun j before => ?filling, ?last⟩
  case filling =>
    have length : (ds.take j).length = j := List.length_take_of_le before.le
    have pelem : 0 < s.derived.pelem := Nat.pos_of_mul_pos_left (full ▸ inv.nraw_pos active)
    obtain ⟨t, delivered, filled⟩ := deliver_of_short inv run empty (ds := ds.take j)
      (fun d taken => sizes d (List.mem_of_mem_take taken))
      (by rw [length, ← full]; exact Nat.mul_lt_mul_of_pos_right before pelem)
    exact ⟨t, delivered, by rw [filled.avail, length], filled.frames, filled.mem, filled.ovfEvents⟩
  case last =>
    obtain ⟨t, delivered, filled⟩ := deliver_of_full inv run empty sizes full
    have kept := computeFrame_csbInv filled.inv (ne_idle_of_run filled.run)
    rw [filled.computeFrame_eq full] at delivered kept
    refine ⟨_, delivered, kept, filled.run, filled.cfg, filled.derived, rfl, ?frames, filled.ovfEvents, ?draws,
      fun k below => ?element⟩
    case frames => exact congrArg (satAdd · 1) filled.frames
    case draws => exact congrArg (· + 1) filled.draws
    case element =>
      rw [spectrumCompute_element _ _ (by rwa [filled.cfg])]
      simp only [filled.cfg, filled.draws, batchOf]

end Sys2Proof.Proofs
end

section
/-! SUPPORT. The Power-Spectrum Engine as a machine: what SpectrumCompute writes (R178), the batches it is given, the
pattern of every element of a frame (R179), and ENGINE_RUN outcome by outcome (R182). -/
namespace Sys2Proof.Machine

/-! ### SpectrumCompute (R178) -/

/-- The frame is written to the first N elements of SPEC_OUT, and to no byte outside them. -/
theorem spectrumCompute_byte {s : State} {a : Nat} (raw : List Sample)
    (outside : a < elemAddr .specOut 0 ∨ elemAddr .specOut 0 + 4 * s.cfg.fftN.toNat ≤ a) :
    (spectrumCompute raw s).mem.byte a = s.mem.byte a :=
  s.mem.byte_storeElems_outside _ (by rwa [List.length_map, List.length_range])

/-- SPEC_OUT[m] after a frame, as the pattern it holds. -/
theorem spectrumCompute_pattern (raw : List Sample) {s : State} {m : Nat} (below : m < s.cfg.fftN.toNat) :
    BitVec.ofNat 32 (((spectrumCompute raw s).element .specOut m).getD 0) =
      specNum s.cfg.fftN.toNat s.cfg.fftBatch.toNat raw s.draws m := by
  rw [spectrumCompute_element raw s below, Option.getD_some, BitVec.ofNat_toNat, BitVec.setWidth_eq]

/-! ### Frames (R179) -/

/-- A batch of NRAW elements is legal, outside IDLE. -/
theorem legalBatch_of_length {s : State} {raw : List Sample} (inv : s.CsbInv) (active : s.mode ≠ .idle)
    (length : raw.length = s.derived.nraw) :
    LegalBatch Config.capMax Config.fftNMax s.cfg.fftN.toNat s.cfg.fftBatch.toNat raw := by
  have cfg := inv.accepted active
  exact {
    two_le := cfg.two_le
    even := cfg.even
    le_max := cfg.le_max
    windows := cfg.windows
    length := by rw [length, inv.derived active]; rfl
    fits := cfg.nraw_le.trans cfg.cap_le }

/-- Clearing the lowest exponent bit of an infinity or a NaN makes it finite. -/
theorem f32IsFinite_f32Finite (x : BitVec 32) : f32IsFinite (f32Finite x) = true := by
  unfold f32Finite
  split
  · assumption
  · rename_i infinite
    have exponent : x.extractLsb' 23 8 = 0xFF := by simpa [f32IsFinite] using infinite
    have cleared : (x ^^^ 0x00800000).extractLsb' 23 8 = 0xFE := by
      rw [BitVec.extractLsb'_xor, exponent]
      decide
    rw [f32IsFinite, cleared]
    decide

/-- Every element of a frame is finite, whatever was drawn. -/
theorem specNum_finite (n b : Nat) (raw : List Sample) (k m : Nat) : f32IsFinite (specNum n b raw k m) = true := by
  unfold specNum
  split
  · exact dbFloorBits_finite
  · exact f32IsFinite_f32Finite _

/-- The contract speaks of the first N elements alone. -/
theorem FrameConforms.congr {tol pnMin : ℝ} {n b : Nat} {raw : List Sample} {v v' : Nat → BitVec 32}
    (conforms : FrameConforms tol pnMin n b raw v) (same : ∀ m < n, v' m = v m) :
    FrameConforms tol pnMin n b raw v' := by
  obtain ⟨finite, accurate, band, floor⟩ := conforms
  refine ⟨fun m hm => ?_, fun m hm => ?_, fun m hm => ?_, fun zero m hm => ?_⟩ <;> rw [same m hm]
  exacts [finite m hm, accurate m hm, band m hm, floor zero m hm]

/-! ### ENGINE_RUN (R182) -/

/-- The frame of a buffer with NRAW elements or more is of the oldest NRAW, which are popped. -/
theorem computeFrame_of_enough {s : State} (enough : s.derived.nraw ≤ s.csb.avail) :
    computeFrame s = spectrumCompute (fifoPop s.derived.nraw s).1
      { s with
        csb := { s.csb with
          rptr := (s.csb.rptr + s.derived.nraw) % s.derived.cap, avail := s.csb.avail - s.derived.nraw }
        draws := (fifoPop s.derived.nraw s).2.draws } := by
  have left := fifoPop_snd_csb s.derived.nraw s
  rw [Nat.min_eq_left enough] at left
  rw [← left]
  rfl

theorem exec_engineRun {s : State} (ready : s.mode = .ready) (enough : s.derived.nraw ≤ s.csb.avail) :
    exec .engineRun s =
      .next { computeFrame s with
        cmd := ⟨0x20, .ok, BitVec.ofNat 64 s.derived.nraw⟩, response := answer 0 } :=
  exec_of_rule_result rfl (onlyMode_iff.2 ready) (ruleEngineRun_of_enough (not_lt.2 enough))

theorem exec_engineRun_of_short {s : State} (ready : s.mode = .ready) (short : s.csb.avail < s.derived.nraw) :
    exec .engineRun s =
      .next { s with
        cmd := ⟨0x20, .insufficientData, BitVec.ofNat 64 s.csb.avail⟩
        err := { s.err with cmd := true }
        response := answer 0 } :=
  exec_of_rule_raise rfl (onlyMode_iff.2 ready) (ruleEngineRun_of_short short) nofun nofun

theorem exec_engineRun_of_not_ready {s : State} (mode : s.mode ≠ .ready) :
    exec .engineRun s =
      .next { s with cmd := ⟨0x20, .illegalState, 0⟩, err := { s.err with cmd := true }, response := answer 0 } :=
  exec_of_illegalState rfl (onlyMode_eq_false_iff.2 mode)

end Sys2Proof.Machine
end

section
/-! The obligations on the engine. -/
namespace Sys2Proof.Proofs
open Sys2Proof Sys2Proof.Machine

/-- Settles O17: the frame is stored element by element from the start of SPEC_OUT. -/
theorem spectrumComputeEffect : Obligations.SpectrumComputeEffect := fun s raw =>
  ⟨(spectrumCompute raw s).mem, rfl, fun _ => spectrumCompute_element raw s, fun _ => spectrumCompute_byte raw⟩

/-- Settles O18: the clauses are the command's word, its outcomes by mode and AVAIL, and its reserved bits. -/
theorem engineRunCommand : Obligations.EngineRunCommand := by
  refine ⟨decodeOfEncode .engineRun rfl, fun s ready enough => ?runs, fun _ => exec_engineRun_of_short,
    fun _ => exec_engineRun_of_not_ready, fun _ s opc word => perform_reserved s opc word (by decide)⟩
  case runs =>
    have all : min s.derived.nraw s.csb.avail = s.derived.nraw := Nat.min_eq_left enough
    refine ⟨(fifoPop s.derived.nraw s).1, (fifoPop s.derived.nraw s).2.draws, by rw [fifoPop_length, all],
      fun k below _ => fifoPop_written _ s (by rwa [all]), ?_⟩
    rw [exec_engineRun ready enough, computeFrame_of_enough enough]

/-- Settles O19: every pattern that SpecNum answers is finite, and is the floor for a list of zeros. -/
theorem frameFiniteAndExactFloor : Obligations.FrameFiniteAndExactFloor := fun s raw _ below =>
  ⟨_, spectrumCompute_element raw s below, specNum_finite .., specNum_zero _ _ _ _⟩

/-- Settles O20: SPEC_OUT holds SpecNum of a legal batch, which meets the contract. -/
theorem frameMeetsContract : Obligations.FrameMeetsContract := fun s raw inv active length =>
  (specNum_conforms s.draws (legalBatch_of_length inv active length)).congr fun _ => spectrumCompute_pattern raw

end Sys2Proof.Proofs
end

section
/-! SUPPORT. What the exact reference is of particular batches: identical windows, pure tones, constant batches (R183 to
R185), and the batches of greatest power (R180). -/
namespace Sys2Proof.Machine

/-! ### The transform of a tone (R173) -/

/-- `exp(2 pi i / N)`. -/
noncomputable def rootOfUnity (n : Nat) : ℂ := Complex.exp (2 * Real.pi * Complex.I / n)

theorem rootOfUnity_primitive {n : Nat} (positive : 0 < n) : IsPrimitiveRoot (rootOfUnity n) n :=
  Complex.isPrimitiveRoot_exp n positive.ne'

theorem tone_eq_pow (n k t : Nat) :
    Complex.exp (2 * (Real.pi : ℂ) * Complex.I * (k : ℂ) * (t : ℂ) / (n : ℂ)) = (rootOfUnity n ^ k) ^ t := by
  rw [rootOfUnity, ← Complex.exp_nat_mul, ← Complex.exp_nat_mul]
  ring_nf

theorem twiddle_eq_pow (n k t : Nat) :
    Complex.exp (-2 * (Real.pi : ℂ) * Complex.I * (k : ℂ) * (t : ℂ) / (n : ℂ)) = ((rootOfUnity n ^ k)⁻¹) ^ t := by
  rw [inv_pow, ← tone_eq_pow, ← Complex.exp_neg]
  ring_nf

/-- Two different tones are orthogonal. -/
theorem sum_tones {n k0 k : Nat} (positive : 0 < n) (hk0 : k0 < n) (hk : k < n) :
    ∑ t ∈ Finset.range n, (rootOfUnity n ^ k0 * (rootOfUnity n ^ k)⁻¹) ^ t = if k = k0 then (n : ℂ) else 0 := by
  have root := rootOfUnity_primitive positive
  have nonzero : rootOfUnity n ^ k ≠ 0 := pow_ne_zero _ (root.ne_zero positive.ne')
  split_ifs with same
  · rw [same] at nonzero ⊢
    simp [mul_inv_cancel₀ nonzero]
  · have ratio : rootOfUnity n ^ k0 * (rootOfUnity n ^ k)⁻¹ ≠ 1 :=
      fun one => same (root.pow_inj hk hk0 (mul_inv_eq_one₀ nonzero |>.1 one).symm)
    have power : (rootOfUnity n ^ k0 * (rootOfUnity n ^ k)⁻¹) ^ n = 1 := by
      rw [mul_pow, inv_pow, pow_right_comm, pow_right_comm _ k, root.pow_eq_one, one_pow, one_pow, inv_one, mul_one]
    rw [geom_sum_eq ratio, power, sub_self, zero_div]

/-- The samples of a window are a tone at bin `k0` of amplitude `a`. -/
def IsTone (n : Nat) (a : ℂ) (k0 : Nat) (x : Nat → ℂ) : Prop := ∀ t < n, x t = a * (rootOfUnity n ^ k0) ^ t

/-- The transform of a tone is `N` times its amplitude at its bin and 0 elsewhere. -/
theorem IsTone.refDft_eq {n k0 k : Nat} {a : ℂ} {x : Nat → ℂ} (tone : IsTone n a k0 x) (positive : 0 < n)
    (hk0 : k0 < n) (hk : k < n) : refDft n x k = if k = k0 then n * a else 0 := by
  calc refDft n x k
      = a * ∑ t ∈ Finset.range n, (rootOfUnity n ^ k0 * (rootOfUnity n ^ k)⁻¹) ^ t := by
        rw [refDft, Finset.mul_sum]
        refine Finset.sum_congr rfl fun t ht => ?_
        rw [tone t (Finset.mem_range.1 ht), twiddle_eq_pow, mul_pow, mul_assoc]
    _ = if k = k0 then n * a else 0 := by
        rw [sum_tones positive hk0 hk, mul_ite, mul_zero, mul_comm]

/-! ### Averages of equal powers (R174) -/

theorem refPower_of_forall {n b : Nat} {raw : List Sample} {k : Nat} {p : ℝ} (windows : 0 < b)
    (equal : ∀ w < b, Complex.normSq (refDft n (refWindow n raw w) k) = p) : refPower n b raw k = p := by
  rw [refPower, Finset.sum_congr rfl fun w hw => equal w (Finset.mem_range.1 hw), Finset.sum_const,
    Finset.card_range, nsmul_eq_mul, ← mul_assoc, one_div_mul_cancel (by positivity), one_mul]

theorem refDft_congr {n : Nat} {x y : Nat → ℂ} (same : ∀ t < n, x t = y t) (k : Nat) : refDft n x k = refDft n y k :=
  Finset.sum_congr rfl fun t ht => by rw [same t (Finset.mem_range.1 ht)]

theorem refPower_of_identical {n b : Nat} {raw : List Sample} (windows : 0 < b)
    (identical : ∀ w < b, ∀ t < n, refWindow n raw w t = refWindow n raw 0 t) (k : Nat) :
    refPower n b raw k = refPower n 1 raw k := by
  have single : refPower n 1 raw k = Complex.normSq (refDft n (refWindow n raw 0) k) :=
    refPower_of_forall one_pos fun w hw => by rw [Nat.lt_one_iff.1 hw]
  rw [single]
  exact refPower_of_forall windows fun w hw => by rw [refDft_congr (identical w hw)]

/-! ### The reference of a batch of tones (R175 to R177) -/

/-- The centred index that shows bin `k0` is `(k0 + N/2) mod N`. -/
theorem centredBin_eq_iff {n m k0 : Nat} (even : n % 2 = 0) (hm : m < n) (hk0 : k0 < n) :
    centredBin n m = k0 ↔ m = (k0 + n / 2) % n := by
  have wrap (x : Nat) (hx : x < n) : (x + n / 2) % n = if x < n / 2 then x + n / 2 else x - n / 2 := by
    split_ifs
    · exact Nat.mod_eq_of_lt (by omega)
    · rw [Nat.mod_eq_sub_mod (by omega), Nat.mod_eq_of_lt (by omega)]
      omega
  rw [centredBin, wrap m hm, wrap k0 hk0]
  split_ifs <;> omega

theorem refPn_of_tones {n b k0 k : Nat} {raw : List Sample} {a : ℂ} (windows : 0 < b) (positive : 0 < n)
    (hk0 : k0 < n) (hk : k < n) (tones : ∀ w < b, IsTone n a k0 (refWindow n raw w)) :
    refPn n b raw k = if k = k0 then Complex.normSq a / fsp else 0 := by
  have power : refPower n b raw k = Complex.normSq (if k = k0 then n * a else 0) :=
    refPower_of_forall windows fun w hw => by rw [(tones w hw).refDft_eq positive hk0 hk]
  have size : (n : ℝ) ≠ 0 := by positivity
  rw [refPn, power]
  split_ifs
  · rw [map_mul, Complex.normSq_natCast, ← pow_two, mul_div_cancel_left₀ _ (pow_ne_zero 2 size)]
  · rw [map_zero, zero_div, zero_div]

theorem refFrame_of_tones {n b k0 m : Nat} {raw : List Sample} {a : ℂ} (windows : 0 < b) (even : n % 2 = 0)
    (hk0 : k0 < n) (hm : m < n) (tones : ∀ w < b, IsTone n a k0 (refWindow n raw w)) :
    refFrame n b raw m =
      if m = (k0 + n / 2) % n then 10 * Real.logb 10 (max (Complex.normSq a / (fsp : ℝ)) eps) else dbFloor := by
  have positive : 0 < n := by omega
  have bin : centredBin n m < n := Nat.mod_lt _ positive
  rw [refFrame, refDb, refPn_of_tones windows positive hk0 bin tones]
  simp only [centredBin_eq_iff even hm hk0]
  split_ifs
  · rfl
  · rw [max_eq_right eps_pos.le, logb_eps]

/-- A constant batch is a tone at bin 0 in every window. -/
theorem isTone_of_constant {n b w : Nat} {raw : List Sample} {c : ℂ} (constant : ∀ j < n * b, refZ raw j = c)
    (hw : w < b) : IsTone n c 0 (refWindow n raw w) := by
  intro t ht
  have inBatch : w * n + t < n * b := by
    calc w * n + t < (w + 1) * n := by rw [Nat.succ_mul]; omega
      _ ≤ n * b := by rw [Nat.mul_comm n]; exact Nat.mul_le_mul_right n hw
  rw [refWindow, constant _ inBatch, pow_zero, one_pow, mul_one]

theorem refFrame_of_constant {n b m : Nat} {raw : List Sample} {c : ℂ} (windows : 0 < b) (positive : 0 < n)
    (even : n % 2 = 0) (hm : m < n) (constant : ∀ j < n * b, refZ raw j = c) :
    refFrame n b raw m =
      if m = n / 2 then 10 * Real.logb 10 (max (Complex.normSq c / (fsp : ℝ)) eps) else dbFloor := by
  have centre : (0 + n / 2) % n = n / 2 := by rw [Nat.zero_add, Nat.mod_eq_of_lt (by omega)]
  rw [refFrame_of_tones windows even positive hm fun w => isTone_of_constant constant, centre]

/-! ### The batches of greatest power (R180) -/

theorem fsp_pos : (0 : ℝ) < fsp := by norm_num [fsp, fullScale]

theorem refFrame_eq_zero_iff {n b m : Nat} {raw : List Sample} (windows : 0 < b) :
    refFrame n b raw m = 0 ↔ refPn n b raw (centredBin n m) = 1 := by
  have low : eps < 1 := by norm_num [eps]
  have high := refPn_le_one n windows raw (centredBin n m)
  have positive : 0 < max (refPn n b raw (centredBin n m)) eps := eps_pos.trans_le (le_max_right ..)
  rw [refFrame, refDb]
  constructor
  · intro zero
    have one : max (refPn n b raw (centredBin n m)) eps = 1 :=
      Real.eq_one_of_pos_of_logb_eq_zero (b := 10) (by norm_num) positive (by linarith)
    exact (max_choice _ _).elim (fun h => h.symm.trans one) fun h => absurd (h.symm.trans one) low.ne
  · intro one
    rw [one, max_eq_left low.le, Real.logb_one, mul_zero]

theorem norm_refDft_le_sum (n : Nat) (x : Nat → ℂ) (k : Nat) : ‖refDft n x k‖ ≤ ∑ t ∈ Finset.range n, ‖x t‖ :=
  (norm_sum_le _ _).trans_eq (Finset.sum_congr rfl fun t _ => by rw [norm_mul, norm_twiddle, mul_one])

theorem normSq_refDft_le (n : Nat) (raw : List Sample) (w k : Nat) :
    Complex.normSq (refDft n (refWindow n raw w) k) ≤ (n * Real.sqrt fsp) ^ 2 := by
  rw [Complex.normSq_eq_norm_sq]
  exact pow_le_pow_left₀ (norm_nonneg _) (norm_refDft_le (norm_refWindow_le n raw w) k) 2

/-- The power is greatest when every window's is. -/
theorem norm_refDft_of_refPn_eq_one {n b k w : Nat} {raw : List Sample} (positive : 0 < n) (windows : 0 < b)
    (greatest : refPn n b raw k = 1) (hw : w < b) : ‖refDft n (refWindow n raw w) k‖ = n * Real.sqrt fsp := by
  have scale : (n * Real.sqrt fsp) ^ 2 = (n : ℝ) ^ 2 * fsp := by rw [mul_pow, Real.sq_sqrt fsp_pos.le]
  have size : (n : ℝ) ^ 2 * fsp ≠ 0 := by have := fsp_pos; positivity
  have total : ∑ w ∈ Finset.range b, Complex.normSq (refDft n (refWindow n raw w) k) =
      ∑ w ∈ Finset.range b, (n * Real.sqrt fsp) ^ 2 := by
    rw [refPn, div_div, div_eq_one_iff_eq size, refPower, one_div_mul_eq_div,
      div_eq_iff (by positivity)] at greatest
    rw [greatest, Finset.sum_const, Finset.card_range, nsmul_eq_mul, scale, mul_comm]
  have window := (Finset.sum_eq_sum_iff_of_le fun w _ => normSq_refDft_le n raw w k).1 total w (Finset.mem_range.2 hw)
  rw [Complex.normSq_eq_norm_sq] at window
  exact (pow_left_inj₀ (norm_nonneg _) (by positivity) two_ne_zero).1 window

/-- A window's power is greatest only when every sample's magnitude is. -/
theorem norm_refWindow_of_norm_refDft {n k w t : Nat} {raw : List Sample}
    (greatest : ‖refDft n (refWindow n raw w) k‖ = n * Real.sqrt fsp) (ht : t < n) :
    ‖refWindow n raw w t‖ = Real.sqrt fsp := by
  have each : ∀ t ∈ Finset.range n, ‖refWindow n raw w t‖ ≤ Real.sqrt fsp := fun t _ => norm_refWindow_le n raw w t
  have total : ∑ t ∈ Finset.range n, ‖refWindow n raw w t‖ = ∑ t ∈ Finset.range n, Real.sqrt fsp := by
    refine le_antisymm (Finset.sum_le_sum each) ?_
    rw [Finset.sum_const, Finset.card_range, nsmul_eq_mul, ← greatest]
    exact norm_refDft_le_sum n _ k
  exact (Finset.sum_eq_sum_iff_of_le each).1 total t (Finset.mem_range.2 ht)

/-- An s16 of magnitude FULL_SCALE is -32768: 32768 is out of its range. -/
theorem refElem_of_full_scale {raw : List Sample} {j : Nat} (full : refElem raw j ^ 2 = (fullScale : ℝ) ^ 2) :
    refElem raw j = -32768 := by
  have high : refElem raw j < 32768 := by
    rw [refElem]
    exact_mod_cast BitVec.toInt_lt (x := raw.getD j 0)
  have scale : (fullScale : ℝ) = 32768 := by norm_num [fullScale]
  rw [scale] at full
  exact (sq_eq_sq_iff_eq_or_eq_neg.1 full).resolve_left high.ne

/-- A sample has the greatest magnitude only at the most negative corner. -/
theorem refZ_of_full_scale {raw : List Sample} {j : Nat} (full : ‖refZ raw j‖ = Real.sqrt fsp) :
    refZ raw j = ⟨-32768, -32768⟩ := by
  have re := refElem_sq_le raw (2 * j)
  have im := refElem_sq_le raw (2 * j + 1)
  rw [Complex.norm_def, Real.sqrt_inj (Complex.normSq_nonneg _) fsp_pos.le, refZ, Complex.normSq_mk, fsp] at full
  push_cast at full
  rw [refZ, refElem_of_full_scale (by linarith), refElem_of_full_scale (by linarith)]

/-- Only the batch of the most negative corner has a bin of power 1. -/
theorem refZ_of_refPn_eq_one {n b k j : Nat} {raw : List Sample} (positive : 0 < n) (windows : 0 < b)
    (greatest : refPn n b raw k = 1) (hj : j < n * b) : refZ raw j = ⟨-32768, -32768⟩ := by
  have window := norm_refDft_of_refPn_eq_one positive windows greatest (Nat.div_lt_of_lt_mul hj)
  have sample := norm_refWindow_of_norm_refDft window (Nat.mod_lt j positive)
  rw [refWindow, Nat.div_add_mod'] at sample
  exact refZ_of_full_scale sample

theorem normSq_corner : Complex.normSq ⟨-32768, -32768⟩ = fsp := by
  norm_num [Complex.normSq_mk, fsp, fullScale]

/-- 0 dB is the DC bin of the full-scale constant batch, and no other element of any batch (R180). -/
theorem refFrame_eq_zero_iff_corner {n b m : Nat} {raw : List Sample} (windows : 0 < b) (positive : 0 < n)
    (even : n % 2 = 0) (hm : m < n) :
    refFrame n b raw m = 0 ↔ m = n / 2 ∧ ∀ j < n * b, refZ raw j = ⟨-32768, -32768⟩ := by
  have corner (constant : ∀ j < n * b, refZ raw j = ⟨-32768, -32768⟩) :
      refFrame n b raw m = if m = n / 2 then 0 else dbFloor := by
    rw [refFrame_of_constant windows positive even hm constant, normSq_corner, div_self fsp_pos.ne',
      max_eq_left eps_le_one, Real.logb_one, mul_zero]
  constructor
  · intro zero
    have constant : ∀ j < n * b, refZ raw j = ⟨-32768, -32768⟩ :=
      fun j => refZ_of_refPn_eq_one positive windows ((refFrame_eq_zero_iff windows).1 zero)
    refine ⟨?_, constant⟩
    by_contra other
    rw [corner constant, if_neg other] at zero
    norm_num [dbFloor] at zero
  · rintro ⟨centre, constant⟩
    rw [corner constant, if_pos centre]

end Sys2Proof.Machine
end

section
/-! The obligations on the reference. -/
namespace Sys2Proof.Proofs
open Sys2Proof Sys2Proof.Machine

/-- Settles O22: each bin of each window has the power of the first window's. -/
theorem identicalWindowsAverage : Obligations.IdenticalWindowsAverage := by
  intro n b raw m windows identical
  rw [refFrame, refFrame, refDb, refDb, refPn, refPn, refPower_of_identical windows identical]

/-- Settles O23: a constant batch is the tone at bin 0. -/
theorem constantBatchIsDc : Obligations.ConstantBatchIsDc := by
  intro n b raw c windows two_le even constant
  have frame {m : Nat} (hm : m < n) := refFrame_of_constant windows (by omega) even hm constant
  exact ⟨(frame (by omega)).trans (if_pos rfl), fun m hm other => (frame hm).trans (if_neg other)⟩

/-- Settles O24: different tones are orthogonal, so only the tone's own bin has power. -/
theorem pureToneHasOnePeak : Obligations.PureToneHasOnePeak := by
  intro n b raw a k0 windows two_le even hk0 tone
  have tones : ∀ w < b, IsTone n a k0 (refWindow n raw w) :=
    fun w hw t ht => (tone w hw t ht).trans (by rw [tone_eq_pow])
  have frame {m : Nat} (hm : m < n) := refFrame_of_tones windows even hk0 hm tones
  exact ⟨(frame (Nat.mod_lt _ (by omega))).trans (if_pos rfl), fun m hm other => (frame hm).trans (if_neg other)⟩

/-- Settles O21: the range holds of every batch, its top is the corner's alone, and a drawn element of a legal batch is
within the tolerance of the range. -/
theorem referenceRange : Obligations.ReferenceRange := by
  refine ⟨fun n b raw m _ windows => refFrame_mem n windows raw m,
    fun n b raw m two_le even windows hm => refFrame_eq_zero_iff_corner windows (by omega) even hm,
    fun s raw k inv active length below => ?element⟩
  case element =>
    exact ⟨_, spectrumCompute_element raw s below,
      specNum_frameValue s.draws (legalBatch_of_length inv active length) below⟩

end Sys2Proof.Proofs
end

section
/-! SUPPORT. The binary64 operations of BuildFreq (R181): which of them overflow, that none makes a NaN of finite
operands, and that rounding the value of a pattern gives the pattern back. -/
namespace Sys2Proof.Machine

/-! ### A finite pattern and its value -/

/-- A pattern is its three fields. -/
theorem f64Pack_fields (x : Word) : f64Pack (f64Sign x) (f64Exp x) (f64Frac x) = x := by
  have sign : BitVec.ofNat 1 (f64Sign x).toNat = x.extractLsb' 63 1 := by
    ext k hk
    obtain rfl : k = 0 := by omega
    cases h : f64Sign x <;> simp_all [f64Sign]
  rw [f64Pack, sign, f64Exp, f64Frac, BitVec.ofNat_toNat, BitVec.ofNat_toNat, BitVec.setWidth_eq, BitVec.setWidth_eq,
    BitVec.extractLsb'_append_extractLsb'_eq_extractLsb' (show 63 = 52 + 11 from rfl),
    BitVec.extractLsb'_append_extractLsb'_eq_extractLsb' (show 52 = 0 + 52 from rfl), BitVec.extractLsb'_eq_self]

theorem f64Exp_lt_of_finite {x : Word} (finite : f64IsFinite x = true) : f64Exp x < 0x7FF := by
  have exponent := (x.extractLsb' 52 11).isLt
  have := of_decide_eq_true finite
  unfold f64Exp at *
  omega

/-- A finite magnitude is at most the largest one (R8). -/
theorem f64Mag_le {x : Word} (finite : f64IsFinite x = true) : f64Mag x ≤ (2 ^ 53 - 1) * 2 ^ 2045 := by
  have exponent := f64Exp_lt_of_finite finite
  obtain ⟨m, small, value⟩ := f64Mag_eq_mul x
  rw [value]
  gcongr <;> omega

/-- The pattern of a finite pattern's sign and magnitude is that pattern. -/
theorem f64OfMag_f64Mag {x : Word} (finite : f64IsFinite x = true) : f64OfMag (f64Sign x) (f64Mag x) = x := by
  have frac := f64Frac_lt x
  have exponent := f64Exp_lt_of_finite finite
  by_cases subnormal : f64Exp x = 0
  · rw [f64Mag_of_exp_eq_zero subnormal, f64OfMag_subnormal _ frac, ← subnormal, f64Pack_fields]
  · have below : (2 ^ 52 + f64Frac x) * 2 ^ (f64Exp x - 1) < 2 ^ 2098 := by
      calc (2 ^ 52 + f64Frac x) * 2 ^ (f64Exp x - 1)
          < 2 ^ 53 * 2 ^ (f64Exp x - 1) := Nat.mul_lt_mul_of_pos_right (by omega) (Nat.two_pow_pos _)
        _ ≤ 2 ^ 2098 := by
          rw [← Nat.pow_add]
          gcongr <;> omega
    rw [f64Mag_of_exp_ne_zero subnormal, f64OfMag_normal _ (by omega) (by omega) below,
      Nat.sub_add_cancel (by omega), Nat.add_sub_cancel_left, f64Pack_fields]

/-- A magnitude is its own nearest. -/
theorem f64RoundMag_f64Mag (x : Word) : f64RoundMag (f64Mag x) 1 = f64Mag x := by
  by_contra other
  have nearest := (f64RoundMag_nearest (f64Mag x) one_pos x (Ne.symm other)).1
  simp only [missBy_eq_natAbs] at nearest
  omega

/-- Rounding the value of a finite pattern gives the pattern back. -/
theorem f64Round_f64Mag {x : Word} (finite : f64IsFinite x = true) : f64Round (f64Sign x) (f64Mag x) 1 = x := by
  rw [f64Round, f64RoundMag_f64Mag, f64OfMag_f64Mag finite]

/-- A finite pattern of value 0 is the zero of its sign. -/
theorem eq_f64Zero_of_f64Mag {x : Word} (finite : f64IsFinite x = true) (zero : f64Mag x = 0) :
    x = f64Zero (f64Sign x) := by
  rw [← f64OfMag_f64Mag finite, zero, f64OfMag_subnormal _ (by decide), f64Sign_f64Pack]
  rfl

/-! ### NaN and infinity -/

theorem f64IsNaN_of_finite {x : Word} (finite : f64IsFinite x = true) : f64IsNaN x = false := by
  have exponent := f64Exp_lt_of_finite finite
  rw [f64IsNaN, decide_eq_false (by omega), Bool.false_and]

theorem f64IsNaN_f64Inf (neg : Bool) : f64IsNaN (f64Inf neg) = false := by cases neg <;> decide

/-- A rounded value is finite or the infinity of its sign. -/
theorem f64Round_cases (neg : Bool) (num : Nat) {den : Nat} (positive : 0 < den) :
    f64IsFinite (f64Round neg num den) = true ∨ f64Round neg num den = f64Inf neg := by
  obtain ⟨finite, overflow⟩ := Proofs.f64RoundsToNearestEven neg num den positive
  rcases Nat.lt_or_ge num (den * ((2 ^ 54 - 1) * 2 ^ 2044)) with below | above
  · exact .inl (finite below).1
  · exact .inr (overflow above)

theorem f64IsNaN_f64Round (neg : Bool) (num : Nat) {den : Nat} (positive : 0 < den) :
    f64IsNaN (f64Round neg num den) = false := by
  rcases f64Round_cases neg num positive with finite | infinite
  · exact f64IsNaN_of_finite finite
  · rw [infinite, f64IsNaN_f64Inf]

/-! ### The three operations (R181) -/

/-- The largest finite magnitude is below the overflow threshold; for every exponent bound. -/
theorem largest_lt_threshold {m s : Nat} (exponent : m = s + 1) : (2 ^ 53 - 1) * 2 ^ m < (2 ^ 54 - 1) * 2 ^ s := by
  have positive := Nat.two_pow_pos s
  rw [exponent, Nat.pow_succ]
  omega

/-- A finite pattern divided by a whole number does not overflow, and keeps its sign. -/
theorem f64DivNat_represents {x : Word} {n : Nat} (finite : f64IsFinite x = true) (positive : 0 < n) :
    Represents (f64DivNat x n) (f64Sign x) (f64Digits (f64Mag x) n) (f64Shift (f64Mag x / n)) := by
  have below : f64Mag x < n * ((2 ^ 54 - 1) * 2 ^ 2044) := by
    calc f64Mag x ≤ (2 ^ 53 - 1) * 2 ^ 2045 := f64Mag_le finite
      _ < (2 ^ 54 - 1) * 2 ^ 2044 := largest_lt_threshold rfl
      _ ≤ n * ((2 ^ 54 - 1) * 2 ^ 2044) := Nat.le_mul_of_pos_left _ positive
  rw [f64DivNat, f64IsNaN_of_finite finite, if_neg nofun, if_neg (by simp [finite])]
  exact f64Round_represents _ positive below

theorem f64MulInt_of_finite {x : Word} (t : Int) (finite : f64IsFinite x = true) :
    f64MulInt t x = f64Round (Bool.xor (decide (t < 0)) (f64Sign x)) (t.natAbs * f64Mag x) 1 := by
  rw [f64MulInt, f64IsNaN_of_finite finite, if_neg nofun, if_neg (by simp [finite])]

theorem f64Add_of_finite {x y : Word} (hx : f64IsFinite x = true) (hy : f64IsFinite y = true) :
    f64Add x y =
      if f64Units x + f64Units y = 0 then f64Zero (f64Sign x && f64Sign y)
      else f64Round (decide (f64Units x + f64Units y < 0)) (f64Units x + f64Units y).natAbs 1 := by
  simp [f64Add, f64IsNaN_of_finite, hx, hy]

/-- A sum with a finite second operand is a NaN only where the first operand is. -/
theorem f64IsNaN_f64Add {x y : Word} (hx : f64IsNaN x = false) (hy : f64IsFinite y = true) :
    f64IsNaN (f64Add x y) = false := by
  by_cases finite : f64IsFinite x = true
  · rw [f64Add_of_finite finite hy]
    split_ifs
    · cases f64Sign x && f64Sign y <;> decide
    · exact f64IsNaN_f64Round _ _ one_pos
  · simp [f64Add, f64IsNaN_of_finite hy, hx, hy, finite]

theorem f64Units_eq_zero_iff (x : Word) : f64Units x = 0 ↔ f64Mag x = 0 := by
  unfold f64Units
  split <;> omega

/-- The exact value of a finite pattern rounds to the pattern, the sign of zero aside. -/
theorem f64Round_f64Units {x : Word} (finite : f64IsFinite x = true) (nonzero : f64Units x ≠ 0) :
    f64Round (decide (f64Units x < 0)) (f64Units x).natAbs 1 = x := by
  have mag : (f64Units x).natAbs = f64Mag x := by unfold f64Units; split <;> omega
  have sign : decide (f64Units x < 0) = f64Sign x := by
    unfold f64Units at *
    cases h : f64Sign x <;> simp_all
    omega
  rw [mag, sign, f64Round_f64Mag finite]

/-- Adding +0 keeps a finite pattern, but that -0 gives +0. -/
theorem f64Add_zero {x : Word} (finite : f64IsFinite x = true) :
    f64Add (f64Zero false) x = if x = f64Zero true then f64Zero false else x := by
  have units : f64Units (f64Zero false) = 0 := by decide
  have plus : f64Sign (f64Zero false) = false := by decide
  rw [f64Add_of_finite (by decide) finite, units, zero_add, plus, Bool.false_and]
  by_cases zero : f64Units x = 0
  · have value := eq_f64Zero_of_f64Mag finite ((f64Units_eq_zero_iff x).1 zero)
    rw [if_pos zero]
    split_ifs with minus
    · rfl
    · cases sign : f64Sign x
      · rw [value, sign]
      · exact absurd (sign ▸ value) minus
  · have notZero : x ≠ f64Zero true := by
      rintro rfl
      exact zero (by decide)
    rw [if_neg zero, if_neg notZero, f64Round_f64Units finite zero]

/-- The multiple by 0 of a finite pattern with sign 0 is +0. -/
theorem f64MulInt_zero {x : Word} (finite : f64IsFinite x = true) (plus : f64Sign x = false) :
    f64MulInt 0 x = f64Zero false := by
  rw [f64MulInt_of_finite 0 finite, plus, Int.natAbs_zero, Nat.zero_mul]
  decide

theorem f64IsNaN_f64MulInt (t : Int) {x : Word} (finite : f64IsFinite x = true) : f64IsNaN (f64MulInt t x) = false := by
  rw [f64MulInt_of_finite t finite]
  exact f64IsNaN_f64Round _ _ one_pos

end Sys2Proof.Machine
end

section
/-! The obligations on the frequency-bin vector. -/
namespace Sys2Proof.Proofs
open Sys2Proof Sys2Proof.Machine

/-- Settles O26: the spacing is finite, so 0 times it is +0, and a sum with +0 is exact. -/
theorem freqCentreIsCenterFreq : Obligations.FreqCentreIsCenterFreq := by
  intro fs fc n two_le _ finite plus _ centre
  have spacing := f64DivNat_represents finite (show 0 < n by omega)
  rw [freqBin, sub_self, f64MulInt_zero spacing.finite (spacing.sign.trans plus), f64Add_zero centre]

/-- Settles O27: the spacing and the centre frequency are finite, so there is neither zero times infinity nor a
difference of infinities. -/
theorem freqNeverNaN : Obligations.FreqNeverNaN := by
  intro fs fc n m two_le _ _ finite _ _ centre
  exact f64IsNaN_f64Add (f64IsNaN_f64MulInt _ (f64DivNat_represents finite (by omega)).finite) centre

end Sys2Proof.Proofs
end

section
/-! SUPPORT. Errors as commands report them (R12, R106, R190 to R192): every command is recorded at its end and its write
of CMD answered, whatever its code, and one that fails leaves the state it started from. -/
namespace Sys2Proof.Machine

/-! ### The end of a command (R12, R106, R191) -/

/-- Every opcode runs as a command with a legal word: refused outside its modes, recorded at its end. -/
theorem runOpcode_eq_runCommand (o : Opcode) (n : BitVec 32) (s : State) :
    ∃ opc legal rule, runOpcode o n s = .next (runCommand opc legal rule s) := by
  cases o <;> exact ⟨_, _, _, rfl⟩

theorem eq_instr_of_isCommand {i : Instr} (command : IsCommand i) : ∃ (o : Opcode) (n : BitVec 32), i = o.instr n := by
  cases i with
  | nop => exact ⟨.nop, 0, rfl⟩
  | init => exact ⟨.init, 0, rfl⟩
  | start => exact ⟨.start, 0, rfl⟩
  | stop => exact ⟨.stop, 0, rfl⟩
  | deinit => exact ⟨.deinit, 0, rfl⟩
  | clrErr => exact ⟨.clrErr, 0, rfl⟩
  | fifoPush n => exact ⟨.fifoPush, n, rfl⟩
  | fifoPop n => exact ⟨.fifoPop, n, rfl⟩
  | engineRun => exact ⟨.engineRun, 0, rfl⟩
  | _ => exact False.elim command

/-- A command that does not end with OK leaves the state it started from, recorded: its rule's state is dropped. -/
theorem runCommand_of_failed {opc : Byte} {legal : Mode → Bool} {rule : State → CmdEnd} {s : State}
    (failed : (runCommand opc legal rule s).cmd.code ≠ .ok) :
    ∃ code info, code ≠ .ok ∧ runCommand opc legal rule s = recordStatus opc code info s := by
  rcases runCommand_cases opc legal rule s with ⟨-, res, t, -, h⟩ | ⟨-, code, info, -, h⟩ | ⟨-, h⟩ <;>
    rw [h] at failed ⊢
  · exact absurd rfl failed
  · exact ⟨code, info, failed, rfl⟩
  · exact ⟨.illegalState, 0, failed, rfl⟩

/-! ### Answers -/

/-- The outcome is a next state, with the bus's answer to a performed transaction. -/
def Performed (o : Host.Outcome State Fault Refusal) : Prop := ∃ u v, o = .next u ∧ u.response = answer v

theorem performed_respondRead (v : Word) (s : State) : Performed (.next (respondRead v s)) := ⟨_, v, rfl, rfl⟩

theorem performed_respondWrite (s : State) : Performed (.next (respondWrite s)) := ⟨_, 0, rfl, rfl⟩

theorem performed_recordStatus (opc : Byte) (code : Status) (res : Nat) (s : State) :
    Performed (.next (recordStatus opc code res s)) := ⟨_, 0, rfl, rfl⟩

theorem performed_runCommand (opc : Byte) (legal : Mode → Bool) (rule : State → CmdEnd) (s : State) :
    Performed (.next (runCommand opc legal rule s)) := by
  rcases runCommand_cases opc legal rule s with ⟨-, res, t, -, h⟩ | ⟨-, code, info, -, h⟩ | ⟨-, h⟩ <;> rw [h] <;>
    exact performed_recordStatus ..

theorem performed_readArray {w : Window} {k : Nat} (s : State) (inRange : k < windowLen w) :
    Performed (.next (readArray w k s)) := by
  rcases readArray_cases w k s with ⟨-, v, -, h⟩ | ⟨-, -, v, h⟩ | ⟨beyond, -⟩
  · rw [h]; exact performed_respondRead ..
  · rw [h]; exact performed_respondRead ..
  · omega

/-- A command word fails a check on its opcode or on its reserved fields, and no other way (R85). -/
theorem checkCmd_eq_error {w : Word} {r : Reject} (fails : checkCmd w = .error r) :
    r = .illegalOpcode (cmdOpc w) ∨ r = .reservedField (cmdOpc w) := by
  cases opcode : opcodeOf (cmdOpc w) with
  | none => exact .inl (Except.error.inj (fails.symm.trans (checkCmd_of_illegal opcode)))
  | some o =>
    rcases checkCmd_of_opcode opcode with passes | reserved
    · rw [passes] at fails; cases fails
    · exact .inr (Except.error.inj (fails.symm.trans reserved))

/-- Every write of CMD is performed: a command that fails is answered as one that does not (R190). -/
theorem performed_execCommandWord (w : Word) (s : State) : Performed (execCommandWord w s) := by
  cases checked : checkCmd w with
  | error r =>
    rw [execCommandWord_error checked]
    rcases checkCmd_eq_error checked with rfl | rfl <;> exact performed_recordStatus ..
  | ok p =>
    rw [execCommandWord_ok checked]
    obtain ⟨opc, legal, rule, command⟩ := runOpcode_eq_runCommand p.1 p.2 s
    rw [command]
    exact performed_runCommand ..

end Sys2Proof.Machine
end

section
/-! SUPPORT. Errors as the bus and RXPORT meet them (R86, R190, R193, R198): the conditions of R193 window by window, and
that every transaction and every framed event ends in a next state. -/
namespace Sys2Proof.Machine

/-! ### Where an address lies (R61 to R63) -/

theorem mapped_iff {a : Addr} : mapped a.toNat ↔ windowOf a ≠ none := by
  rw [windowOf_eq, mapped]
  split_ifs <;> simp <;> omega

theorem sizeAt_of_windowOf {a : Addr} {w : Window} (window : windowOf a = some w) :
    sizeAt a.toNat = w.elemSize.bytes := by
  obtain ⟨above, below⟩ := windowOf_eq_some.1 window
  rw [sizeAt]
  cases w <;> simp only [Window.base, Window.span, Window.elemSize, BusSize.bytes] at above below ⊢ <;>
    split_ifs <;> omega

theorem busSize_bytes_inj {m n : BusSize} : m.bytes = n.bytes ↔ m = n := by
  cases m <;> cases n <;> simp [BusSize.bytes]

/-- The index of the element of a window that an address selects. -/
def elemIndex (w : Window) (a : Nat) : Nat := (a - w.base) / w.elemSize.bytes

theorem array_above {w : Window} {a : Nat} (array : w ≠ .regs) (holds : w.Holds a) : 0x10000000 ≤ a := by
  obtain ⟨above, -, -⟩ := holds
  cases w with
  | regs => exact absurd rfl array
  | _ =>
    simp only [Window.base] at above
    omega

/-- The index that the bits of an address carry. -/
theorem extractLsb'_eq_elemIndex {w : Window} {n b : Nat} {t : BitVec 4} (layout : w.Layout n b t)
    {a : BitVec (4 + n + b)} (holds : w.Holds a.toNat) : (a.extractLsb' b n).toNat = elemIndex w a.toNat := by
  have address := congrArg BitVec.toNat (layout.address holds)
  have number : a.toNat = w.base + (a.extractLsb' b n).toNat * 2 ^ b := by
    rw [← address, toNat_indexed, layout.base, Nat.add_mul, Nat.mul_assoc, ← pow_add]
  rw [elemIndex, layout.size]
  conv_rhs => rw [number]
  rw [Nat.add_sub_cancel_left, Nat.mul_div_cancel _ (Nat.two_pow_pos b)]

/-- The four arrays share one read: that of the element whose index the address carries. -/
theorem exec_readInstr {a : Addr} {w : Window} (array : w ≠ .regs) (holds : w.Holds a.toNat) (s : State) :
    exec (w.readInstr a) s = .next (readArray w (elemIndex w a.toNat) s) := by
  cases w with
  | regs => exact absurd rfl array
  | pushBuf => rw [← extractLsb'_eq_elemIndex pushBuf_layout holds]; rfl
  | popBuf => rw [← extractLsb'_eq_elemIndex popBuf_layout holds]; rfl
  | specOut => rw [← extractLsb'_eq_elemIndex specOut_layout holds]; rfl
  | freq => rw [← extractLsb'_eq_elemIndex freq_layout holds]; rfl

/-- An address lies beyond the elements of its array exactly when its index is out of range (R63). -/
theorem endOfArray_le_iff {w : Window} {a : Nat} (array : w ≠ .regs) (holds : w.Holds a) :
    endOfArray a ≤ a ↔ windowLen w ≤ elemIndex w a := by
  obtain ⟨above, below, aligned⟩ := holds
  rw [endOfArray, elemIndex]
  cases w with
  | regs => exact absurd rfl array
  | _ =>
    simp only [Window.base, Window.span, Window.elemSize, BusSize.bytes, windowLen] at above below aligned ⊢
    split_ifs <;> omega

/-! ### The register window (R22) -/

theorem regs_below {a : Nat} (holds : Window.regs.Holds a) : a < 0x200 := by
  simpa [Window.base, Window.span] using holds.2.1

/-- The offset of a register's address is the address. -/
theorem regs_offset_toNat {a : Addr} (holds : Window.regs.Holds a.toNat) : (a.extractLsb' 0 9).toNat = a.toNat := by
  rw [← toNat_zero_append (m := 23), regs_address holds]

theorem exists_regAt_of_listed {off : Nat} (listed : off ∈ registerOffsets) : ∃ r, regAt off = some r :=
  Option.isSome_iff_exists.1 ((by decide : ∀ off ∈ registerOffsets, (regAt off).isSome = true) off listed)

theorem exists_regAt_of_config {off : Nat} (config : off ∈ configOffsets) : ∃ c, regAt off = some (.cfg c) := by
  fin_cases config <;> exact ⟨_, rfl⟩

theorem mem_registerOffsets_of_config : ∀ off ∈ configOffsets, off ∈ registerOffsets := by decide

theorem lt_of_mem_configOffsets : ∀ off ∈ configOffsets, off < 0x200 := by decide

/-! ### The conditions of R193 -/

theorem busError_of_unmapped {s : State} {t : BusTxn} (unmapped : windowOf t.addr = none) : BusError s t :=
  .inl fun inside => mapped_iff.1 inside unmapped

/-- A transaction of another size than its window's elements, or unaligned, meets a condition (R62). -/
theorem busError_of_misfit {s : State} {t : BusTxn} {w : Window} (window : windowOf t.addr = some w)
    (misfit : t.size ≠ w.elemSize ∨ t.addr.toNat % w.elemSize.bytes ≠ 0) : BusError s t := by
  by_cases size : t.size = w.elemSize
  · exact .inr (.inr (.inl (by rw [size]; exact misfit.resolve_left (not_not.2 size))))
  · exact .inr (.inl (by rwa [sizeAt_of_windowOf window, ne_eq, busSize_bytes_inj]))

section
variable {s : State} {w : Window} {a : Addr}

/-- Of a transaction that fits an element, the conditions on the index, the register and the write are left. -/
theorem busError_iff_of_fits {t : BusTxn} (size : t.size = w.elemSize) (holds : w.Holds t.addr.toNat) :
    BusError s t ↔
      (0x10000000 ≤ t.addr.toNat ∧ endOfArray t.addr.toNat ≤ t.addr.toNat) ∨
      (t.addr.toNat < 0x200 ∧ t.addr.toNat ∉ registerOffsets) ∨
      (∃ a n v, t = .write a n v ∧
        ((a.toNat < 0x200 ∧ a.toNat ≠ 0 ∧ a.toNat ∉ configOffsets) ∨ 0x20000000 ≤ a.toNat)) ∨
      (∃ a n v, t = .write a n v ∧ a.toNat ∈ configOffsets ∧ s.mode ≠ .idle) := by
  obtain ⟨window, aligned⟩ := Window.holds_iff.1 holds
  have inside : mapped t.addr.toNat := mapped_iff.2 (by simp [window])
  rw [BusError, sizeAt_of_windowOf window, size]
  simp only [inside, aligned, not_true_eq_false, ne_eq, false_or]

theorem busError_read_iff (holds : w.Holds a.toNat) :
    BusError s (.read a w.elemSize) ↔
      (0x10000000 ≤ a.toNat ∧ endOfArray a.toNat ≤ a.toNat) ∨ (a.toNat < 0x200 ∧ a.toNat ∉ registerOffsets) := by
  refine (busError_iff_of_fits (t := .read a w.elemSize) rfl holds).trans ?_
  simp [BusTxn.addr]

theorem busError_write_iff {v : Word} (holds : w.Holds a.toNat) :
    BusError s (.write a w.elemSize v) ↔
      (0x10000000 ≤ a.toNat ∧ endOfArray a.toNat ≤ a.toNat) ∨ (a.toNat < 0x200 ∧ a.toNat ∉ registerOffsets) ∨
      ((a.toNat < 0x200 ∧ a.toNat ≠ 0 ∧ a.toNat ∉ configOffsets) ∨ 0x20000000 ≤ a.toNat) ∨
      (a.toNat ∈ configOffsets ∧ s.mode ≠ .idle) := by
  refine (busError_iff_of_fits (t := .write a w.elemSize v) rfl holds).trans ?_
  simp [BusTxn.addr]

theorem busError_read_regs_iff (holds : Window.regs.Holds a.toNat) :
    BusError s (.read a .b8) ↔ a.toNat ∉ registerOffsets := by
  have below := regs_below holds
  have notArray : ¬ 0x10000000 ≤ a.toNat := by omega
  exact (busError_read_iff (w := .regs) holds).trans (by simp [below, notArray])

theorem busError_read_array_iff (array : w ≠ .regs) (holds : w.Holds a.toNat) :
    BusError s (.read a w.elemSize) ↔ windowLen w ≤ elemIndex w a.toNat := by
  have above := array_above array holds
  have notRegs : ¬ a.toNat < 0x200 := by omega
  exact (busError_read_iff holds).trans (by simp [above, notRegs, endOfArray_le_iff array holds])

/-- Of the register window CMD is written in every mode and a configuration register in IDLE. -/
theorem busError_write_regs_iff {v : Word} (holds : Window.regs.Holds a.toNat) :
    BusError s (.write a .b8 v) ↔ a.toNat ≠ 0 ∧ (a.toNat ∈ configOffsets → s.mode ≠ .idle) := by
  have below := regs_below holds
  refine (busError_write_iff (w := .regs) holds).trans ?_
  by_cases cmd : a.toNat = 0
  · simp [cmd, registerOffsets, configOffsets]
  · by_cases config : a.toNat ∈ configOffsets
    · simp [cmd, config, mem_registerOffsets_of_config _ config, below, show ¬ 0x10000000 ≤ a.toNat by omega,
        show ¬ 0x20000000 ≤ a.toNat by omega]
    · simp [cmd, config, below]

theorem busError_write_pushBuf_iff {v : Word} (holds : Window.pushBuf.Holds a.toNat) :
    BusError s (.write a .b2 v) ↔ windowLen .pushBuf ≤ elemIndex .pushBuf a.toNat := by
  have above := array_above (w := .pushBuf) nofun holds
  have below : a.toNat < 0x20000000 := holds.2.1
  have notConfig : a.toNat ∉ configOffsets := fun config => by
    have := lt_of_mem_configOffsets _ config
    omega
  have notRegs : ¬ a.toNat < 0x200 := by omega
  have range := endOfArray_le_iff (w := .pushBuf) nofun holds
  exact (busError_write_iff (w := .pushBuf) holds).trans (by simp [above, notRegs, below, notConfig, range])

end

/-! ### Every transaction is a bus error or performed (R193) -/

/-- The block answers a transaction as R193 says: a bus error when one of the conditions holds, else performed. -/
def Judged (s : State) (t : BusTxn) : Prop :=
  (BusError s t → perform (.bus t) s = .next (busfault s)) ∧ (¬ BusError s t → Performed (perform (.bus t) s))

theorem judged_of_busfault {s : State} {t : BusTxn} (error : BusError s t)
    (refused : perform (.bus t) s = .next (busfault s)) : Judged s t := ⟨fun _ => refused, absurd error⟩

theorem judged_of_performed {s : State} {t : BusTxn} (noError : ¬ BusError s t)
    (performed : Performed (perform (.bus t) s)) : Judged s t := ⟨fun error => absurd error noError, fun _ => performed⟩

section
variable {w : Window} {a : Addr} (s : State)

theorem judged_read_regs (holds : Window.regs.Holds a.toNat) : Judged s (.read a .b8) := by
  have meaning : perform (.bus (.read a .b8)) s = exec (.hostRegRead (a.extractLsb' 0 9)) s :=
    perform_of_decode (decode_read holds rfl) s
  by_cases listed : a.toNat ∈ registerOffsets
  · refine judged_of_performed (fun error => (busError_read_regs_iff holds).1 error listed) ?_
    obtain ⟨r, register⟩ := exists_regAt_of_listed listed
    rw [meaning, exec_hostRegRead (by rwa [regs_offset_toNat holds])]
    exact performed_respondRead ..
  · refine judged_of_busfault ((busError_read_regs_iff holds).2 listed) ?_
    rw [meaning, exec_hostRegRead_reserved (by rw [regs_offset_toNat holds, regAt_of_reserved listed])]

theorem judged_read_array (array : w ≠ .regs) (holds : w.Holds a.toNat) : Judged s (.read a w.elemSize) := by
  have meaning : perform (.bus (.read a w.elemSize)) s = .next (readArray w (elemIndex w a.toNat) s) :=
    (perform_of_decode (decode_read holds rfl) s).trans (exec_readInstr array holds s)
  by_cases beyond : windowLen w ≤ elemIndex w a.toNat
  · refine judged_of_busfault ((busError_read_array_iff array holds).2 beyond) ?_
    rw [meaning, readArray_of_beyond s beyond]
  · refine judged_of_performed (fun error => beyond ((busError_read_array_iff array holds).1 error)) ?_
    rw [meaning]
    exact performed_readArray s (not_le.1 beyond)

theorem judged_write_regs (holds : Window.regs.Holds a.toNat) (v : Word) : Judged s (.write a .b8 v) := by
  by_cases cmd : a = 0
  · subst cmd
    refine judged_of_performed (fun error => ((busError_write_regs_iff holds).1 error).1 rfl) ?_
    rw [perform_write_zero]
    exact performed_execCommandWord v s
  have nonzero : a.toNat ≠ 0 := fun zero => cmd (BitVec.eq_of_toNat_eq zero)
  have meaning := perform_of_decode (decode_write_regs holds cmd rfl v) s
  by_cases stored : a.toNat ∈ configOffsets ∧ s.mode = .idle
  · obtain ⟨config, idle⟩ := stored
    refine judged_of_performed (fun error => ((busError_write_regs_iff holds).1 error).2 config idle) ?_
    obtain ⟨c, register⟩ := exists_regAt_of_config config
    rw [meaning, exec_hostRegWrite (by rwa [regs_offset_toNat holds]), writeReg_cfg_idle idle]
    exact performed_respondWrite _
  · have notIdle : a.toNat ∈ configOffsets → s.mode ≠ .idle := not_and.1 stored
    refine judged_of_busfault ((busError_write_regs_iff holds).2 ⟨nonzero, notIdle⟩) ?_
    rw [meaning]
    exact exec_hostRegWrite_refused v (regs_offset_ne_zero holds cmd) (by rwa [regs_offset_toNat holds])

theorem judged_write_pushBuf (holds : Window.pushBuf.Holds a.toNat) (v : Word) : Judged s (.write a .b2 v) := by
  have meaning : perform (.bus (.write a .b2 v)) s =
      .next (writeArray .pushBuf (elemIndex .pushBuf a.toNat) (v.extractLsb' 0 16).toNat s) := by
    rw [perform_of_decode (decode_write_pushBuf holds rfl rfl), ← extractLsb'_eq_elemIndex pushBuf_layout holds]
    rfl
  by_cases beyond : windowLen .pushBuf ≤ elemIndex .pushBuf a.toNat
  · refine judged_of_busfault ((busError_write_pushBuf_iff holds).2 beyond) ?_
    rw [meaning, writeArray_of_beyond _ s beyond]
  · refine judged_of_performed (fun error => beyond ((busError_write_pushBuf_iff holds).1 error)) ?_
    rw [meaning, writeArray_of_inRange _ s (not_le.1 beyond)]
    exact performed_respondWrite _

theorem judged_write_readOnly (holds : w.Holds a.toNat) (notRegs : w ≠ .regs) (notPushBuf : w ≠ .pushBuf) (v : Word) :
    Judged s (.write a w.elemSize v) := by
  have readOnly : 0x20000000 ≤ a.toNat := by
    obtain ⟨above, -, -⟩ := holds
    cases w with
    | regs => exact absurd rfl notRegs
    | pushBuf => exact absurd rfl notPushBuf
    | _ =>
      simp only [Window.base] at above
      omega
  obtain ⟨window, -⟩ := Window.holds_iff.1 holds
  exact judged_of_busfault ((busError_write_iff holds).2 (.inr (.inr (.inl (.inr readOnly)))))
    (perform_write_readOnly _ v s window notRegs notPushBuf)

/-- The split is that of the decoder: no window, a misfit, and then the window and the direction. -/
theorem judged (t : BusTxn) : Judged s t := by
  cases window : windowOf t.addr with
  | none =>
    exact judged_of_busfault (busError_of_unmapped window)
      (perform_of_decode_error (o := .bus t) (decodeBus_unmapped window) s)
  | some w =>
    by_cases misfit : t.size ≠ w.elemSize ∨ t.addr.toNat % w.elemSize.bytes ≠ 0
    · exact judged_of_busfault (busError_of_misfit window misfit) (perform_misfit s window misfit)
    simp only [not_or, not_not] at misfit
    obtain ⟨size, aligned⟩ := misfit
    have holds : w.Holds t.addr.toNat := Window.holds_iff.2 ⟨window, aligned⟩
    cases t with
    | read a n =>
      obtain rfl : n = w.elemSize := size
      by_cases regs : w = .regs
      · subst regs
        exact judged_read_regs s holds
      · exact judged_read_array s regs holds
    | write a n v =>
      obtain rfl : n = w.elemSize := size
      by_cases regs : w = .regs
      · subst regs
        exact judged_write_regs s holds v
      by_cases pushBuf : w = .pushBuf
      · subst pushBuf
        exact judged_write_pushBuf s holds v
      · exact judged_write_readOnly s holds regs pushBuf v

theorem perform_bus_next (t : BusTxn) : ∃ u, perform (.bus t) s = .next u := by
  obtain ⟨refuses, performs⟩ := judged s t
  by_cases error : BusError s t
  · exact ⟨_, refuses error⟩
  · obtain ⟨u, -, next, -⟩ := performs error
    exact ⟨u, next⟩

end

/-! ### RX events (R86, R151, R198) -/

/-- An event framed as R86 says is rejected, if at all, for its KIND. -/
theorem decodeRx_error_of_framed {a : RxArrival} {r : Reject} (framed : rxFramed a) (rejected : decodeRx a = .error r) :
    r = .reservedKind := by
  obtain ⟨datagram, timeout⟩ := framed
  rw [decodeRx] at rejected
  split at rejected
  · next kind =>
    rw [if_pos (datagram (BitVec.eq_of_toNat_eq kind))] at rejected
    cases rejected
  · next kind =>
    rw [if_pos (timeout (BitVec.eq_of_toNat_eq kind))] at rejected
    cases rejected
  · cases rejected
    rfl

theorem perform_rx_next {a : RxArrival} (framed : rxFramed a) (s : State) : ∃ u, perform (.rx a) s = .next u := by
  cases decoded : decodeRx a with
  | ok i =>
    rw [perform_of_decode (o := .rx a) decoded]
    rcases decodeRx_eq_ok decoded with ⟨-, d, -, -, rfl⟩ | ⟨l, -, rfl⟩
    · exact ⟨ingest d s, rfl⟩
    · exact ⟨s, rfl⟩
  | error r =>
    obtain rfl := decodeRx_error_of_framed framed decoded
    exact ⟨s, perform_of_decode_error (o := .rx a) decoded s⟩

end Sys2Proof.Machine
end

section
/-! The obligations on errors. -/
namespace Sys2Proof.Proofs
open Sys2Proof Sys2Proof.Machine

/-- Settles O48: what does not end with OK is recorded on the state the command started from. -/
theorem failedCommandChangesNothing : Obligations.FailedCommandChangesNothing := by
  intro i s t command next failed
  obtain ⟨o, n, rfl⟩ := eq_instr_of_isCommand command
  obtain ⟨opc, legal, rule, runs⟩ := runOpcode_eq_runCommand o n s
  rw [exec_instr, runs] at next
  cases next
  obtain ⟨code, info, notOk, recorded⟩ := runCommand_of_failed failed
  rw [recorded]
  exact ⟨rfl, by simp [ErrBits.afterCommand, notOk], rfl⟩

/-- Settles O44: a bus error is the one answer to a condition of R193, and a transaction that meets none is performed,
a command that fails among them. -/
theorem busErrorsRefused : Obligations.BusErrorsRefused := by
  intro t s
  obtain ⟨refuses, performs⟩ := judged s t
  exact ⟨refuses, performs⟩

/-- Settles O54, by the turn at the head of `order`: only an event that is not framed would be refused. -/
theorem stepAlwaysCompletes : Obligations.StepAlwaysCompletes := by
  intro s framed
  rcases step_cases s with ⟨-, h⟩ | ⟨rest, -, h⟩ | ⟨rest, -, -, h⟩ | ⟨rest, op, ops, -, -, h⟩ |
    ⟨rest, -, -, h⟩ | ⟨rest, ev, evs, -, stream, h⟩ <;> rw [h]
  · exact ⟨_, rfl⟩
  · exact ⟨_, rfl⟩
  · exact ⟨_, rfl⟩
  · exact perform_bus_next _ op
  · exact ⟨_, rfl⟩
  · exact perform_rx_next (framed ev (by simp [stream])) _

end Sys2Proof.Proofs
end

section
/-! SUPPORT. A step that stays within RUN (R215, R216): it completes a frame, from exactly NRAW elements, or leaves
FRAME_COUNT and SPEC_OUT as they were and loses no unread element. -/
namespace Sys2Proof.Machine

/-! ### From one state in RUN to the next -/

/-- No frame is computed from `s` to `u`, and the queue grows as far as the capacity lets it. -/
structure NoFrame (s u : State) : Prop where
  derived : u.derived = s.derived
  frames : u.counters.frames = s.counters.frames
  specOut : ∀ k < Config.fftNMax, u.element .specOut k = s.element .specOut k
  avail : s.csb.avail ≤ s.derived.cap → s.csb.avail ≤ u.csb.avail

/-- A push of `n` elements onto the queue of `s` completed a batch, and `u` counts its frame (R160, R161, R178). -/
def CompletesFrame (s u : State) : Prop :=
  (∃ n, min (s.csb.avail + n) s.derived.cap = s.derived.nraw) ∧ u.counters.frames = satAdd s.counters.frames 1

/-- What can become of a state in RUN without leaving RUN. -/
def WithinRun (s u : State) : Prop := NoFrame s u ∨ CompletesFrame s u

/-- It speaks of the data of the block only. -/
theorem WithinRun.of_data {s t r u : State} (within : WithinRun r u) (before : r.data = s.data)
    (after : t.data = u.data) : WithinRun s t := by
  obtain ⟨-, -, derived, csb, -, counters, mem⟩ := data_eq_iff.1 before
  obtain ⟨-, -, derived', csb', -, counters', mem'⟩ := data_eq_iff.1 after
  refine within.imp (fun still => ?_) (fun completes => ?_)
  · obtain ⟨keptDerived, frames, specOut, avail⟩ := still
    constructor <;> simpa only [State.element, ← derived, ← csb, ← counters, ← mem, derived', csb', counters', mem']
  · simpa only [CompletesFrame, ← derived, ← csb, ← counters, counters'] using completes

theorem noFrame_of_kept {s u : State} (derived : u.derived = s.derived) (csb : u.csb = s.csb)
    (frames : u.counters.frames = s.counters.frames) (mem : u.mem = s.mem) : NoFrame s u where
  derived := derived
  frames := frames
  specOut k _ := by rw [State.element, mem, State.element]
  avail _ := (congrArg Csb.avail csb).ge

theorem received_noFrame (d : List Byte) (s : State) : NoFrame s (received d s) where
  derived := received_derived d s
  frames := received_frames d s
  specOut k _ := by rw [State.element, received_mem, State.element]
  avail fits := by rw [received_avail]; omega

/-- A write of PUSH_BUF is outside SPEC_OUT (R61). -/
theorem pushbufWrite_noFrame {k : Nat} (v : Nat) (s : State) (inRange : k < windowLen .pushBuf) :
    NoFrame s { s with mem := s.mem.store (elemAddr .pushBuf k) 2 v } where
  derived := rfl
  frames := rfl
  specOut j _ := by
    have below : elemAddr .pushBuf k + 2 ≤ windowLimit .pushBuf := elem_le_limit inRange
    have apart : windowLimit .pushBuf ≤ Window.base .specOut := by decide
    exact s.mem.load_store_outside v (.inr ((below.trans apart).trans (base_le_elemAddr .specOut j)))
  avail _ := le_rfl

theorem acceptDatagram_withinRun (d : List Byte) (s : State) : WithinRun s (acceptDatagram d s) := by
  rcases acceptDatagram_cases d s with h | ⟨full, h⟩ <;> rw [h]
  · exact .inl (received_noFrame d s)
  · rw [received_avail, received_derived] at full
    exact .inr ⟨⟨_, full⟩, congrArg (satAdd · 1) (received_frames d s)⟩

/-- Of the effects on a state in RUN, STOP and DEINIT leave RUN. -/
theorem effect_withinRun {s u : State} {i : Instr} (effect : Effect s i u) (run : s.mode = .run)
    (stays : u.mode = .run) : WithinRun s u := by
  have notIdle : s.mode ≠ .idle := ne_idle_of_run run
  have notReady : s.mode ≠ .ready := by simp [run]
  cases effect with
  | quiet i => exact .inl (noFrame_of_kept rfl rfl rfl rfl)
  | malformed d => exact .inl (noFrame_of_kept rfl rfl rfl rfl)
  | accepted d => exact acceptDatagram_withinRun d s
  | pushbufWrite k v inRange => exact .inl (pushbufWrite_noFrame v.toNat s inRange)
  | stop => cases stays
  | deinit => cases stays
  | init idle => exact absurd idle notIdle
  | configure off c v idle => exact absurd idle notIdle
  | start ready => exact absurd ready notReady
  | fifoPush n xs ready => exact absurd ready notReady
  | fifoPop n ready => exact absurd ready notReady
  | engineRun ready => exact absurd ready notReady

/-! ### Steps -/

/-- A step is a hardware reset, or an effect on the state with its turn taken. -/
theorem step_effect {s t : State} (next : step s = .next t) :
    (∃ r, t = hardwareReset r) ∨ ∃ r i u, Effect r i u ∧ r.data = s.data ∧ t.data = u.data := by
  rcases step_cases s with ⟨-, h⟩ | ⟨rest, -, h⟩ | ⟨rest, -, -, h⟩ | ⟨rest, op, ops, -, -, h⟩ |
    ⟨rest, -, -, h⟩ | ⟨rest, ev, evs, -, -, h⟩ <;> rw [h] at next
  · cases next; exact .inr ⟨s, .nop, s, .quiet _, rfl, rfl⟩
  · cases next; exact .inl ⟨_, rfl⟩
  · cases next; exact .inr ⟨s, .nop, s, .quiet _, rfl, rfl⟩
  · obtain ⟨i, u, effect, data⟩ := perform_effect next
    exact .inr ⟨_, i, u, effect, rfl, data⟩
  · cases next; exact .inr ⟨s, .nop, s, .quiet _, rfl, rfl⟩
  · obtain ⟨i, u, effect, data⟩ := perform_effect next
    exact .inr ⟨_, i, u, effect, rfl, data⟩

theorem step_withinRun {s t : State} (next : step s = .next t) (run : s.mode = .run) (stays : t.mode = .run) :
    WithinRun s t := by
  rcases step_effect next with ⟨r, rfl⟩ | ⟨r, i, u, effect, before, after⟩
  · cases stays
  · have mode : r.mode = s.mode := congrArg Prod.fst before
    have mode' : t.mode = u.mode := congrArg Prod.fst after
    exact (effect_withinRun effect (mode.trans run) (mode'.symm.trans stays)).of_data before after

/-! ### The two ways to tell that no frame was computed -/

/-- A push takes AVAIL from above NRAW to no NRAW, so the trigger does not fire (R161). -/
theorem not_completesFrame_of_above {s u : State} (fits : s.csb.avail ≤ s.derived.cap)
    (above : s.derived.nraw < s.csb.avail) : ¬ CompletesFrame s u := by
  rintro ⟨⟨n, full⟩, -⟩
  omega

/-- Below saturation a frame changes its count (R8, R45). -/
theorem not_completesFrame_of_frames_eq {s u : State} (below : s.counters.frames.toNat < 2 ^ 64 - 1)
    (same : u.counters.frames = s.counters.frames) : ¬ CompletesFrame s u := by
  rintro ⟨-, frames⟩
  have count : s.counters.frames.toNat = min (s.counters.frames.toNat + 1) (2 ^ 64 - 1) := by
    rw [← toNat_satAdd, ← frames, same]
  omega

end Sys2Proof.Machine
end

section
/-! SUPPORT. Hardware reset as a step (R210), and what a read finds right after it (R211). -/
namespace Sys2Proof.Machine

/-- The turn of a reset. -/
theorem step_reset {s : State} {rest : List Source} (order : s.order = .reset :: rest) :
    step s = .next (hardwareReset { s with order := rest }) := by
  rw [step, fetch, order]

/-- Every register reads 0 right after reset (R211). -/
theorem Reg.read_reset (r : Reg) : r.read State.reset = 0 := by
  cases r with
  | cfg c => cases c <;> rfl
  | _ => rfl

/-- An element of an empty memory is unspecified. -/
theorem Memory.load_nil (a : Nat) {n : Nat} (bytes : 0 < n) : Memory.load [] a n = none := by
  cases n with
  | zero => cases bytes
  | succ n => rfl

theorem element_reset (w : Window) (i : Nat) : State.reset.element w i = none :=
  Memory.load_nil _ (elemSize_pos w)

end Sys2Proof.Machine
end

section
/-! The obligations on hazards and on reset. -/
namespace Sys2Proof.Proofs
open Sys2Proof Sys2Proof.Machine

/-- Settles O36: above NRAW no push meets the trigger, and nothing but a frame takes elements off the queue in RUN. -/
theorem triggerStall : Obligations.TriggerStall := by
  intro s t cursors run above next stays
  obtain ⟨fits, -, -, -⟩ := cursors
  obtain still | completes := step_withinRun next run stays
  · exact ⟨still.derived ▸ above.trans_le (still.avail fits), still.frames⟩
  · exact absurd completes (not_completesFrame_of_above fits above)

/-- Settles O37: in RUN only a frame changes SPEC_OUT, and below saturation a frame is counted. -/
theorem equalFrameCountWholeFrame : Obligations.EqualFrameCountWholeFrame := by
  intro s t run stays next below same
  obtain still | completes := step_withinRun next run stays
  · exact still.specOut
  · exact absurd completes (not_completesFrame_of_frames_eq below same)

/-- Settles O56: the step of a reset turn is the reset, whatever the state. -/
theorem hardwareResetAction : Obligations.HardwareResetAction := fun _ _ order =>
  ⟨_, step_reset order, rfl, rfl, rfl, rfl, rfl, rfl, fun _ => rfl, rfl, rfl, rfl, rfl, rfl⟩

/-- Settles O57: a listed offset names a register, and each register reads 0. -/
theorem resetValues : Obligations.ResetValues := by
  refine ⟨rfl, fun off listed => ?_, fun w i _ => element_reset w i, rfl⟩
  obtain ⟨r, register⟩ := exists_regAt_of_listed listed
  exact exec_hostRegRead_value register r.read_reset

/-- Settles O58: in IDLE with nothing left of a run and no byte of the memory listed, each invariant is met. -/
theorem resetMeetsInvariant : Obligations.ResetMeetsInvariant := by
  have csb : State.reset.CsbInv := csbInv_idle rfl rfl rfl rfl rfl
  have mem : State.reset.MemInv :=
    memInv_idle rfl ⟨rfl, Memory.wholeElements_nil⟩ (fun k _ => element_reset _ k) (fun k _ => element_reset _ k)
  exact ⟨⟨csb, mem⟩, specInRange_of_unspecified fun k _ => element_reset _ k⟩

end Sys2Proof.Proofs
end
